-- ==== Sys2Proof/Word.lean ====
section
/-! DEFINITION. The word types of MEXP-ECBC: a byte of a stream or of memory, a 32-bit register or bus word
(spec/00_scope.md R9, R12), and a 1 KiB register window of 256 words (spec/10_state.md R40, R47). -/

namespace Sys2Proof

/-- A byte, 0..255 (R16). -/
abbrev Byte := BitVec 8

/-- A 32-bit register value, DMA address or length (R9, R12). -/
abbrev Word := BitVec 32

/-- The contents of one 1 KiB window: word `k` is bits `[32k+31:32k]` (R40), and, for the byte windows, byte `j` is bits
`[8j+7:8j]`, which is lane `j mod 4` of word `j div 4` (R47). -/
abbrev Window := BitVec 8192

end Sys2Proof
end

