-- ==== Sys2Proof/Syntax.lean ====
section
/-! DEFINITION. The instructions: one constructor per row of spec/opcode_table.json. The CMD32 rows carry no field (R118:
no command word carries an operand); the CTRL32 rows carry the bits a CTRL write ignores (R115), so that every control
word is some instruction's word. -/

namespace Sys2Proof

/-- The commands (written to CMD) and control actions (written to CTRL) of MEXP-ECBC (R112, R115). -/
inductive Instr where
  /-- NOP, 0x00000000 (R147). -/
  | nop
  /-- MODEXP.E, 0x00000001: exponent from window E (R172). -/
  | modexpE
  /-- MODEXP.D, 0x00000011: exponent from window D (R172). -/
  | modexpD
  /-- ECB_ENC, 0x00000004 (R205). -/
  | ecbEnc
  /-- ECB_DEC, 0x00000005 (R206). -/
  | ecbDec
  /-- CBC_ENC, 0x00000006 (R207). -/
  | cbcEnc
  /-- CBC_DEC, 0x00000007 (R208). -/
  | cbcDec
  /-- CTRL.ABORT: bit 0 = 1, bit 1 = 0; `reserved` is bits [31:2], ignored (R115, R148). -/
  | ctrlAbort (reserved : Nat)
  /-- CTRL.SRST: bit 1 = 1; `abort` is bit 0, ignored since SRST wins; `reserved` is bits [31:2], ignored (R115, R149). -/
  | ctrlSrst (abort : Bool) (reserved : Nat)
  deriving DecidableEq, Repr

end Sys2Proof
end

