-- ==== Sys2Proof/WellFormed.lean ====
section
/-! DEFINITION. Which terms of `Instr` stand for words of the hardware: the ignored bits [31:2] of a control word are a
30-bit field (spec/30_encoding.md R115). Every CMD32 constructor is one word and needs no check (R114). -/

namespace Sys2Proof

/-- The ignored bits fit bits [31:2] of the control word (R115). -/
def Instr.wellFormed : Instr → Bool
  | .nop => true
  | .modexpE => true
  | .modexpD => true
  | .ecbEnc => true
  | .ecbDec => true
  | .cbcEnc => true
  | .cbcDec => true
  | .ctrlAbort reserved => decide (reserved < 1073741824)
  | .ctrlSrst _ reserved => decide (reserved < 1073741824)

end Sys2Proof
end

