-- ==== Sys2Proof/Decode.lean ====
section
/-! DEFINITION. Decoding and encoding of command and control words (spec/30_encoding.md R110 to R115) and the byte lanes
a word travels on (spec/20_memory.md R83). Decoding is total on any bytes and rejects by name. -/

namespace Sys2Proof

/-- The two instruction formats, told apart by the register offset written, never by the data (R110). -/
inductive Format where
  /-- The command word, written to CMD at offset 0x008. -/
  | cmd32
  /-- The control word, written to CTRL at offset 0x00C. -/
  | ctrl32
  deriving DecidableEq, Repr

/-- Why a word is no instruction. -/
inductive Reject where
  /-- OP is 0x2, 0x3 or 0x8 to 0xF (R114(a)). -/
  | reservedOp
  /-- One of bits [31:5] of a command word is 1 (R114(b)). -/
  | reservedBits
  /-- ESEL = 1 with OP other than MODEXP (R114(b)). -/
  | eselNotModexp
  /-- Not four byte lanes (R110: every format is 32 bits wide). -/
  | wrongLength
  deriving DecidableEq, Repr

/-- What the decoder answers. -/
inductive Decoded where
  /-- The word is this instruction. -/
  | instr (i : Instr)
  /-- A control word with ABORT = SRST = 0: it does nothing (R115). -/
  | noAction
  /-- The word is no instruction, for this reason. -/
  | rejected (r : Reject)
  deriving DecidableEq, Repr

/-- `OP`, bits [3:0] of a command word (R111). -/
def opField (w : Word) : BitVec 4 := w.extractLsb' 0 4

/-- `ESEL`, bit 4 of a command word (R111). -/
def eselField (w : Word) : Bool := w.getLsbD 4

/-- Bits [31:5] of a command word, which must be 0 (R111). -/
def cmdReserved (w : Word) : BitVec 27 := w.extractLsb' 5 27

/-- The instruction with the `OP` and `ESEL` of R112 and R113, or why there is none (R114). -/
def decodeOp (op : BitVec 4) (esel : Bool) : Decoded :=
  match op.toNat, esel with
  | 0, false => .instr .nop
  | 1, false => .instr .modexpE
  | 1, true  => .instr .modexpD
  | 4, false => .instr .ecbEnc
  | 5, false => .instr .ecbDec
  | 6, false => .instr .cbcEnc
  | 7, false => .instr .cbcDec
  | 0, true  => .rejected .eselNotModexp
  | 4, true  => .rejected .eselNotModexp
  | 5, true  => .rejected .eselNotModexp
  | 6, true  => .rejected .eselNotModexp
  | 7, true  => .rejected .eselNotModexp
  | _, _     => .rejected .reservedOp

/-- Decode a word written to CMD: each of the `2^32` values is one legal encoding or illegal (R114). -/
def decodeCmd (w : Word) : Decoded :=
  if cmdReserved w ≠ 0 then .rejected .reservedBits else decodeOp (opField w) (eselField w)

/-- Decode a word written to CTRL: SRST wins over ABORT, bits [31:2] are ignored, and no word is illegal (R115). -/
def decodeCtrl (w : Word) : Decoded :=
  if w.getLsbD 1 then .instr (.ctrlSrst (w.getLsbD 0) (w.extractLsb' 2 30).toNat)
  else if w.getLsbD 0 then .instr (.ctrlAbort (w.extractLsb' 2 30).toNat)
  else .noAction

/-- Decode a word of a format. -/
def decode (f : Format) (w : Word) : Decoded :=
  match f with
  | .cmd32 => decodeCmd w
  | .ctrl32 => decodeCtrl w

/-- Byte lane `k` of a word: bits `[8k+7:8k]`, lane 0 at the lowest byte address (R83). -/
def lane (w : Word) (k : Nat) : Byte := w.extractLsb' (8 * k) 8

/-- A word's four byte lanes, lane 0 first (R83). -/
def lanesOf (w : Word) : List Byte := [lane w 0, lane w 1, lane w 2, lane w 3]

/-- The word on byte lanes `b0 .. b3` (R83). -/
def wordOfLanes (b0 b1 b2 b3 : Byte) : Word := b3 ++ b2 ++ b1 ++ b0

/-- Decode the bytes of an instruction of a format: four lanes, little-endian (R83, R110). -/
def decodeBytes (f : Format) : List Byte → Decoded
  | [b0, b1, b2, b3] => decode f (wordOfLanes b0 b1 b2 b3)
  | _ => .rejected .wrongLength

/-- The format an instruction is written in (R110). -/
def Instr.format : Instr → Format
  | .nop => .cmd32
  | .modexpE => .cmd32
  | .modexpD => .cmd32
  | .ecbEnc => .cmd32
  | .ecbDec => .cmd32
  | .cbcEnc => .cmd32
  | .cbcDec => .cmd32
  | .ctrlAbort _ => .ctrl32
  | .ctrlSrst _ _ => .ctrl32

/-- The word of an instruction: R112's table for CMD32, R115's for CTRL32. -/
def encode : Instr → Word
  | .nop => 0x00000000
  | .modexpE => 0x00000001
  | .modexpD => 0x00000011
  | .ecbEnc => 0x00000004
  | .ecbDec => 0x00000005
  | .cbcEnc => 0x00000006
  | .cbcDec => 0x00000007
  | .ctrlAbort reserved => BitVec.ofNat 30 reserved ++ (0b01 : BitVec 2)
  | .ctrlSrst abort reserved => BitVec.ofNat 30 reserved ++ (0b1 : BitVec 1) ++ BitVec.ofBool abort

/-- The format of a word of spec/opcode_table.json. The table numbers CMD32 and CTRL32 words alike, and the hardware
tells them apart by the offset (R110), which the table's numbering does not hold. Its CMD32 rows fix all 32 bits and its
CTRL32 rows at most bits [1:0]: so a row of at most 8 bits is a control word, and a wider word is a command word unless
only the control register knows it. DESIGN CHOICE (log 9). -/
def tableFormat (nbits : Nat) (w : Nat) : Format :=
  if nbits ≤ 8 then .ctrl32
  else match decodeCmd (BitVec.ofNat 32 w), decodeCtrl (BitVec.ofNat 32 w) with
    | .rejected _, .instr _ => .ctrl32
    | _, _ => .cmd32

/-- The instruction the decoder reads from a word of spec/opcode_table.json, laid out on its byte lanes. -/
def decodeTableWord (nbits w : Nat) : Option Instr :=
  match decodeBytes (tableFormat nbits w) (lanesOf (BitVec.ofNat 32 w)) with
  | .instr i => some i
  | .noAction => none
  | .rejected _ => none

end Sys2Proof
end

