-- ==== Sys2Proof/Config.lean ====
section
/-! DEFINITION. What a platform or an implementation fixes (spec/00_scope.md R11 to R13, spec/93_implementation_defined.md
section 4), the named constants of the spec (its section 5 asks for named literals), and the FREE VALUES the model draws
where the spec says "unspecified" (R18, section 1 of 93). -/

namespace Sys2Proof.Config

/-- A set of DMA accesses that get an error response: every read (or, with `write`, every write) of an address in
`[first, first + len)`. A list of these is the oracle `busErr(addr, write)` of R13 written as data. -/
structure BusErrRange where
  first : Nat
  len   : Nat
  write : Bool
  deriving DecidableEq, Repr

/-- The OPEN platform parameters (R11 to R13), as data: they stand in `State`, no step changes them, and every statement
about all states is a statement for all their values. -/
structure Platform where
  /-- `MAXWORDS - 1`: `MAXW = 32 * MAXWORDS` with `32 <= MAXW <= 8192` (R11). -/
  maxWordsPred : Fin 256
  /-- `BASE_ADDR / 8 KiB`: the aperture's base is 8 KiB aligned (R12). -/
  basePage     : BitVec 19
  /-- `IRQ_ID`, the platform's number of the `irq` line (R12). -/
  irqId        : Nat
  /-- `busErr(addr, write)` (R13). -/
  busErr       : List BusErrRange
  /-- `DMA_COHERENT` (R13, R97). -/
  dmaCoherent  : Bool
  /-- `ECB_PARALLEL` (R13, R213). -/
  ecbParallel  : Bool
  deriving DecidableEq, Repr

/-- `MAXWORDS = MAXW/32` (R11). -/
def Platform.maxWords (p : Platform) : Nat := p.maxWordsPred.val + 1

/-- `MAXW`, the maximum operand width in bits (R11). -/
def Platform.maxW (p : Platform) : Nat := 32 * p.maxWords

/-- `MAXBS = MAXW/8`, the bytes of a byte window (R11, R47). -/
def Platform.maxBs (p : Platform) : Nat := 4 * p.maxWords

/-- The instance spec/95_test_vectors.md uses "unless a vector says otherwise", with R11's default `MAXW` = 2048.
DESIGN CHOICE (log 2): only `State.reset` starts from it. -/
def Platform.default : Platform :=
  { maxWordsPred := 63, basePage := 0, irqId := 0, busErr := [], dmaCoherent := true, ecbParallel := false }

/-- `NOBLOCK` (R49). -/
def noBlock : Word := 0xFFFFFFFF

/-- The identification word, "MEXP" (R33). -/
def idWord : Word := 0x4D455850

/-- `PARAM.REV` (R34). -/
def revision : BitVec 16 := 0x0001

/-- The block-size divisor of `floor(bitLen(n)/16)`, an unaudited literal taken as written (R5, R193). -/
def blockDivisor : Nat := 16

/-- The cipher-width divisor of `ceil(bitLen(n)/8)`, an unaudited literal taken as written (R5, R171). -/
def widthDivisor : Nat := 8

/-- The size of the system-memory address space, `2^32` bytes (R80, R87). -/
def addressSpace : Nat := 4294967296

/-- The greatest value `OUT_REQ` shows (R46). -/
def outReqMax : Nat := 4294967295

/-- FREE VALUE (log 4): the byte the `k`-th draw gives where the spec leaves a byte unspecified. No body. -/
opaque freeByte : Nat → Byte

/-- FREE VALUE (log 4): the number the `k`-th draw gives where the spec lets a byte be one of several values
("old or new", "stale or final"). No body. -/
opaque freeChoice : Nat → Nat

end Sys2Proof.Config
end

