-- ==== Sys2Proof/Machine/State.lean ====
section
/-! DEFINITION. The machine's state, as plain data: the architectural state of the block (spec/10_state.md R31), the
system memory and the platform parameters it works with (R80, R11 to R13), and the model's own fields: the moves to
come, the host's view of memory, and the counter of free values. Also the reasons a step can stop. -/

namespace Sys2Proof.Machine

/-- The sequencer's phase (R60). -/
inductive Phase where
  | idle | start | compute | blocks
  deriving DecidableEq, Repr

/-- The sequencer state `seq` (R60), which plays the part of a program counter. -/
structure Seq where
  /-- What the next engine step does. -/
  phase : Phase
  /-- `OP` of the accepted command word. -/
  op    : BitVec 4
  /-- `ESEL` of the accepted command word. -/
  esel  : Bool
  /-- The index of the next block to process. -/
  blk   : Word
  /-- The count of IV-header bytes in front of the cipher blocks (0 or EBS). -/
  hdr   : Nat
  deriving DecidableEq, Repr

/-- The error codes a command can report (R261); the reserved codes 0x0C to 0xFF are never reported, so they are no
values of this type (log 13). -/
inductive ErrCode where
  | none | illegalCmd | domain | encModulus | encRange | encCRange
  | encWidth | encOverflow | cfgBlksz | cfgRange | aborted | busError
  deriving DecidableEq, Repr

/-- The stored fields of STATUS (R37). `BUSY` is not stored: it is 1 exactly when `seq.phase` is not IDLE (R60). -/
structure Status where
  /-- `DONE`: the last command ended successfully. -/
  done    : Bool
  /-- `ERR`: the last command ended in error. -/
  err     : Bool
  /-- `LASTOP`: the `OP` field of the last CMD write that was not ignored. -/
  lastOp  : BitVec 4
  /-- `ERRCODE`. -/
  errCode : ErrCode
  deriving DecidableEq, Repr

/-- The two agents (R10). -/
inductive Agent where
  | host | engine
  deriving DecidableEq, Repr

/-- The seven register windows (R40, R41, R47). -/
inductive Win where
  | n | e | d | base | result | iv | chain
  deriving DecidableEq, Repr

/-- The registers of the map (R116); `word w k` is word `k` of window `w`. -/
inductive Reg where
  | id | param | cmd | ctrl | status | cfg | blksz | srcAddr | srcLen | dstAddr | dstCap | dstLen | nbits | cwidth
  | ebs | nblkTotal | nblkDone | outReq | errInfo | intEn | intStat
  | word (w : Win) (k : Nat)
  deriving DecidableEq, Repr

/-- How a register may be accessed (R116). -/
inductive Access where
  | ro | wo | rw | w1c
  deriving DecidableEq, Repr

/-- The four stream commands (R21). -/
inductive StreamOp where
  | ecbEnc | ecbDec | cbcEnc | cbcDec
  deriving DecidableEq, Repr

/-- One host step (R10, R119). `duty` on a memory access says that the host does what R312 (a write) or R313 (a read)
asks of it for these bytes; the accesses without it are the breaches whose outcome those rules leave open. -/
inductive HostStep where
  /-- A read on the register port of `bytes` bytes at a bus address (R140; only 4 aligned bytes are served, R82). -/
  | portRead (addr : Word) (bytes : Nat)
  /-- A write on the register port: one entry per byte lane, `none` where the lane's strobe is off (R141, R82, R83). -/
  | portWrite (addr : Word) (lanes : List (Option Byte))
  /-- `MR`: a host read of system memory (R119). -/
  | memRead (addr : Word) (len : Nat) (duty : Bool)
  /-- `MW`: a host write of system memory (R119). -/
  | memWrite (addr : Word) (data : List Byte) (duty : Bool)
  /-- The barrier of the host's own ISA between its memory accesses and its device accesses (R95, R312, R313). -/
  | barrier
  /-- The host cleans a range of its caches (R97). -/
  | clean (addr : Word) (len : Nat)
  /-- The host invalidates a range of its caches (R97). -/
  | invalidate (addr : Word) (len : Nat)
  /-- The host looks at the `irq` line (R155(b), R272). -/
  | sampleIrq
  /-- `WAIT`: the loop of `RD STATUS` that ends at the first read with BUSY = 0 (R120). -/
  | wait
  deriving DecidableEq, Repr

/-- One move of a run: the agent whose step is taken, or the outside asserting and releasing `rst` (R10, R300). -/
inductive Move where
  | host (h : HostStep)
  | engine
  | reset
  deriving DecidableEq, Repr

/-- The answer the host got from its last step. -/
inductive Response where
  /-- No answer yet. -/
  | none
  /-- A write was accepted by the bus. -/
  | ok
  /-- The 32-bit value of a register read. -/
  | data (v : Word)
  /-- The register port's error response, with the value the bus returns: 0 (R82, R270). -/
  | busError (v : Word)
  /-- The address is outside the block's aperture: the platform decodes it (R81). -/
  | elsewhere
  /-- The bytes of a system-memory read. -/
  | bytes (bs : List Byte)
  /-- The level of the interrupt line with the platform's number `id` (R12, R272). -/
  | irq (id : Nat) (level : Bool)
  deriving DecidableEq, Repr

/-- A byte one agent has written and the other may not see yet (R312, R313). -/
structure Lag where
  addr       : Nat
  /-- The value the other agent may still see. -/
  old        : Byte
  /-- The host's cache maintenance has covered the byte since (R97). -/
  maintained : Bool
  /-- For a host write: its cache line has been neither cleaned nor invalidated, without coherence (R97). For an engine write:
  such a line lay over the byte at the CMD write, so no later duty makes the byte's value certain (R318, log 6). -/
  dirty      : Bool
  deriving DecidableEq, Repr

/-- An ended command whose end the host has not observed (R93(b), R311). -/
structure Ended where
  /-- Its destination is `[first, first + len)`. -/
  first  : Nat
  len    : Nat
  /-- The INT_STAT bits set before it was accepted and not cleared since, which tell nothing of its end (R315). -/
  oldInt : BitVec 3
  /-- Its writes. -/
  writes : List Lag
  deriving DecidableEq, Repr

/-- System memory (R80): the bytes that differ from what an unlisted address reads as, addresses strictly rising. -/
abbrev Memory := List Host.Cell

/-- The state of the machine. -/
structure State where
  /-- Window N, the modulus (R40). -/
  n         : Window
  /-- Window E, the public exponent (R40). -/
  e         : Window
  /-- Window D, the private exponent (R40). -/
  d         : Window
  /-- Window BASE (R40). -/
  base      : Window
  /-- Window RESULT (R41). -/
  result    : Window
  /-- Byte window IV (R47). -/
  iv        : Window
  /-- Byte window CHAIN, the chaining-state register (R47, R48). -/
  chain     : Window
  /-- CFG: `BSSEL` is bit 0, `IVHDR` bit 1 (R38). -/
  cfg       : BitVec 2
  /-- `BLKSZ.BS` (R39). -/
  blksz     : BitVec 16
  /-- SRC_ADDR (R42). -/
  srcAddr   : Word
  /-- SRC_LEN (R42). -/
  srcLen    : Word
  /-- DST_ADDR (R43). -/
  dstAddr   : Word
  /-- DST_CAP (R43). -/
  dstCap    : Word
  /-- DST_LEN (R44). -/
  dstLen    : Word
  /-- NBITS (R45). -/
  nbits     : Word
  /-- CWIDTH (R45). -/
  cwidth    : Word
  /-- EBS (R45). -/
  ebs       : Word
  /-- NBLK_TOTAL (R46). -/
  nblkTotal : Word
  /-- NBLK_DONE (R46). -/
  nblkDone  : Word
  /-- OUT_REQ (R46). -/
  outReq    : Word
  /-- ERRINFO (R49). -/
  errInfo   : Word
  /-- The stored fields of STATUS (R37). -/
  status    : Status
  /-- INT_EN (R50). -/
  intEn     : BitVec 3
  /-- INT_STAT (R51). -/
  intStat   : BitVec 3
  /-- The sequencer state (R60). -/
  seq       : Seq
  /-- System memory, shared by the two agents (R80). -/
  mem       : Memory
  /-- The OPEN platform parameters (R11 to R13); no step changes them. -/
  plat      : Config.Platform
  /-- Model's own: the moves to come; empty leaves the turn to the engine (log 1). -/
  schedule  : List Move
  /-- Model's own: whose step is being taken (log 1). -/
  turn      : Agent
  /-- Model's own: the answer to the host's last step (log 5). -/
  resp      : Response
  /-- Model's own: host writes not yet made visible to DMA (R312, log 6). -/
  posted    : List Lag
  /-- Model's own: the host writes that were not visible at the last CMD write, which its command may not see (R312, log 6). -/
  unseen    : List Lag
  /-- Model's own: the running command's writes (R313, log 6). -/
  written   : List Lag
  /-- Model's own: the writes of commands whose end the host has observed, until it orders its reads after that (R313, log 6). -/
  stale     : List Lag
  /-- Model's own: bytes the host wrote while the command runs, with the value before (R311, log 6). -/
  raced     : List Host.Cell
  /-- Model's own: the ended commands whose end the host has not observed (R93(b), R311, log 6). -/
  unobserved : List Ended
  /-- Model's own: the INT_STAT bits set before the last command was accepted and not cleared since (R93(b), R315, log 6). -/
  oldInt    : BitVec 3
  /-- Model's own: how many free values have been drawn (R18, log 4). -/
  draws     : Nat
  deriving DecidableEq, Repr

/-- The reasons a step can stop with a fault. Neither is met in a run of the hardware: both are accesses to addresses the
spec says do not exist. -/
inductive Fault where
  /-- A DMA access past address `2^32 - 1`, raised by the header and block accesses of a stream command. SAFE: R198
  refuses such a range in the start step, so only states no run reaches raise it (R85 and R86 do not define it, R87: "The
  engine never wraps an address past `2^32 - 1`"). -/
  | dmaOutside
  /-- A host access to system memory past address `2^32 - 1`, raised by `memRead` and `memWrite`. SAFE: the byte does not
  exist (R80). -/
  | hostOutside
  deriving DecidableEq, Repr

/-- The reasons a step can be refused. -/
inductive Refusal where
  /-- An instruction with no meaning yet, raised by `exec`'s arms alone. SAFE. Every instruction has its meaning. -/
  | notModelled (mnemonic : String)
  deriving DecidableEq, Repr

/-- The block after reset (R300, R301): every value is the spec's. The model's own fields and the platform parameters
start as log 1 to 6 say. -/
def State.reset : State :=
  { n := 0, e := 0, d := 0, base := 0, result := 0, iv := 0, chain := 0
    cfg := 0, blksz := 0, srcAddr := 0, srcLen := 0, dstAddr := 0, dstCap := 0
    dstLen := 0, nbits := 0, cwidth := 0, ebs := 0, nblkTotal := 0, nblkDone := 0, outReq := 0
    errInfo := Config.noBlock
    status := { done := false, err := false, lastOp := 0, errCode := .none }
    intEn := 0, intStat := 0
    seq := { phase := .idle, op := 0, esel := false, blk := 0, hdr := 0 }
    mem := [], plat := Config.Platform.default
    schedule := [], turn := .host, resp := .none, posted := [], unseen := [], written := [], stale := [], raced := []
    unobserved := [], oldInt := 0, draws := 0 }

end Sys2Proof.Machine
end

