-- ==== Sys2Proof/Machine/Operands.lean ====
section
/-! DEFINITION. Every operand form of the block: byte strings and their integers (spec/00_scope.md R16, R17), window words
and bytes (spec/10_state.md R40, R47), operand values (spec/30_encoding.md R117), modular exponentiation (spec/41_modexp.md
R170), the block size, the block count and the range checks of a stream command (spec/42_mode_controller.md R193 to R198). -/

namespace Sys2Proof.Machine

/-! ### Integers and byte strings (R16, R17) -/

/-- `bitLen(v)`, the number of binary digits of `v` (R17). -/
def bitLen (v : Nat) : Nat := if v = 0 then 0 else Nat.log2 v + 1

/-- `ceil(a/b)` (R15). -/
def ceilDiv (a b : Nat) : Nat := (a + b - 1) / b

/-- `BE(s)`, the big-endian value of a byte string (R16). -/
def beNat : List Byte → Nat
  | [] => 0
  | b :: s => b.toNat * 256 ^ s.length + beNat s

/-- `BE_w(v)`, the `w`-byte string of `v < 256^w`, left-zero-padded (R16). -/
def beBytes : Nat → Nat → List Byte
  | 0, _ => []
  | w + 1, v => BitVec.ofNat 8 (v / 256 ^ w) :: beBytes w v

/-- `xor(s, t)` (R16). -/
def xorBytes (s t : List Byte) : List Byte := List.zipWith (· ^^^ ·) s t

/-- `low_k(s)`, the last `k` bytes (R16). -/
def lowBytes (k : Nat) (s : List Byte) : List Byte := s.drop (s.length - k)

/-- `zeros(k)` (R16). -/
def zeros (k : Nat) : List Byte := List.replicate k 0

/-- The little-endian value of a byte string, first byte least significant: how a byte window stores one (R47). -/
def leNat : List Byte → Nat
  | [] => 0
  | b :: s => b.toNat + 256 * leNat s

/-! ### Windows (R40, R47) -/

/-- The 32 ones of word 0 of a window. -/
def wordMask : Window := (BitVec.allOnes 32).setWidth 8192

/-- Word `k` of a window (R40). -/
def getWord (w : Window) (k : Nat) : Word := w.extractLsb' (32 * k) 32

/-- A window with word `k` replaced and the others unchanged (R40). -/
def setWord (w : Window) (k : Nat) (v : Word) : Window :=
  (w &&& ~~~(wordMask <<< (32 * k))) ||| (v.setWidth 8192 <<< (32 * k))

/-- Byte `j` of a byte window (R47). -/
def getByte (w : Window) (j : Nat) : Byte := w.extractLsb' (8 * j) 8

/-- Bytes `[j, j+k)` of a byte window. -/
def winBytesFrom (w : Window) : Nat → Nat → List Byte
  | _, 0 => []
  | j, k + 1 => getByte w j :: winBytesFrom w (j + 1) k

/-- `Bytes[X][0:k)` (R47). -/
def winBytes (w : Window) (k : Nat) : List Byte := winBytesFrom w 0 k

/-- A byte window with `[0:len(s))` replaced by `s` and the bytes above unchanged (R203, R204). -/
def setBytes (w : Window) (s : List Byte) : Window :=
  ((w >>> (8 * s.length)) <<< (8 * s.length)) ||| BitVec.ofNat 8192 (leNat s)

/-- `W[X] = sum over k < MAXWORDS of word_k * 2^(32k)`: the low `MAXW` bits of the window (R40). -/
def winValue (p : Config.Platform) (w : Window) : Nat := w.toNat % 2 ^ p.maxW

/-! ### The operands of a command, assembled from the registers (R117) -/

/-- `W[N]`. -/
def State.valN (s : State) : Nat := winValue s.plat s.n
/-- `W[E]`. -/
def State.valE (s : State) : Nat := winValue s.plat s.e
/-- `W[D]`. -/
def State.valD (s : State) : Nat := winValue s.plat s.d
/-- `W[BASE]`. -/
def State.valBase (s : State) : Nat := winValue s.plat s.base

/-- `CFG.BSSEL` (R38). -/
def State.bssel (s : State) : Bool := s.cfg.getLsbD 0

/-- `CFG.IVHDR` (R38). -/
def State.ivhdr (s : State) : Bool := s.cfg.getLsbD 1

/-! ### Modular exponentiation (R170) -/

/-- Binary exponentiation over the `fuel` low bits of `x`: `acc * b^x mod n`. -/
def modexpLoop : Nat → Nat → Nat → Nat → Nat → Nat
  | 0, _, _, _, acc => acc
  | fuel + 1, b, x, n, acc =>
    modexpLoop fuel (b * b % n) (x / 2) n (if x % 2 = 1 then acc * b % n else acc)

/-- `modexp(b, x, n) = (b^x) mod n` with `b^0 = 1` (R170), by the source's binary exponentiation; R14 and R178 leave the
schedule free, since no value depends on it. `Sys2Proof.Laws` proves it equal to the mathematical value. -/
def modexp (b x n : Nat) : Nat := modexpLoop (bitLen x) (b % n) x n (1 % n)

/-! ### Stream commands (R193 to R198) -/

/-- Bit 1 of OP marks CBC (R112). -/
def StreamOp.cbc : StreamOp → Bool
  | .ecbEnc => false
  | .ecbDec => false
  | .cbcEnc => true
  | .cbcDec => true

/-- Bit 0 of OP marks decryption (R112). -/
def StreamOp.dec : StreamOp → Bool
  | .ecbEnc => false
  | .ecbDec => true
  | .cbcEnc => false
  | .cbcDec => true

/-- The OP value of a stream command (R112). -/
def StreamOp.op : StreamOp → BitVec 4
  | .ecbEnc => 4
  | .ecbDec => 5
  | .cbcEnc => 6
  | .cbcDec => 7

/-- The stream command with this OP, if it is one (R112). -/
def streamOf (op : BitVec 4) : Option StreamOp :=
  if op = 4 then some .ecbEnc
  else if op = 5 then some .ecbDec
  else if op = 6 then some .cbcEnc
  else if op = 7 then some .cbcDec
  else none

/-- The exponent of a stream command: E to encrypt, D to decrypt (R113). -/
def State.exponent (s : State) (c : StreamOp) : Nat := if c.dec then s.valD else s.valE

/-- The effective block size: `floor(NBITS/16)` if `BSSEL = 0`, else `BLKSZ.BS` (R193, log 10). -/
def effectiveBs (s : State) : Nat :=
  if s.bssel then s.blksz.toNat else s.nbits.toNat / Config.blockDivisor

/-- A block size of 0 or above the cipher width is refused (R194). -/
def badBs (bs cw : Nat) : Bool := decide (bs = 0) || decide (cw < bs)

/-- Block count, IV-header bytes and output length of a stream command (R197). -/
structure Plan where
  nb  : Nat
  hdr : Nat
  out : Nat
  deriving DecidableEq, Repr

/-- R197: the plan of a stream command for `SRC_LEN = len`, or none where the ciphertext does not split into whole blocks
(ENC_WIDTH). `ivhdr` is CFG.IVHDR. -/
def plan (c : StreamOp) (ivhdr : Bool) (len bs cw : Nat) : Option Plan :=
  let hdr := if c.cbc && ivhdr then bs else 0
  if c.dec then
    if len < hdr ∨ (len - hdr) % cw ≠ 0 then none
    else some { nb := (len - hdr) / cw, hdr := hdr, out := (len - hdr) / cw * bs }
  else some { nb := ceilDiv len bs, hdr := hdr, out := hdr + ceilDiv len bs * cw }

/-- R198: the range checks (a) to (e) on source `[src, src+len)` and destination `[dst, dst+out)`. -/
def badRange (src len dst out cap : Nat) : Bool :=
  decide (Config.addressSpace < src + len)
  || decide (Config.outReqMax < out)
  || decide (Config.addressSpace < dst + out)
  || decide (cap < out)
  || (decide (0 < len) && decide (0 < out) && decide (src < dst + out) && decide (dst < src + len))

/-- The bytes one completed block adds to the destination: `CW` to encrypt, `bs` to decrypt (R205 to R208). -/
def State.outWidth (s : State) (c : StreamOp) : Nat := if c.dec then s.ebs.toNat else s.cwidth.toNat

end Sys2Proof.Machine
end

