-- ==== Sys2Proof/Machine/Flags.lean ====
section
/-! DEFINITION. The status flags (spec/10_state.md R37, R62), the error codes (spec/60_exceptions.md R261), the interrupt
bits and the interrupt line (R271 to R273). -/

namespace Sys2Proof.Machine

/-- `STATUS.BUSY`: 1 exactly when `seq.phase` is not IDLE (R60). -/
def State.busy (s : State) : Bool := decide (s.seq.phase ≠ .idle)

/-- The code an error is reported with (R261). -/
def ErrCode.code : ErrCode → BitVec 8
  | .none => 0x00
  | .illegalCmd => 0x01
  | .domain => 0x02
  | .encModulus => 0x03
  | .encRange => 0x04
  | .encCRange => 0x05
  | .encWidth => 0x06
  | .encOverflow => 0x07
  | .cfgBlksz => 0x08
  | .cfgRange => 0x09
  | .aborted => 0x0A
  | .busError => 0x0B

/-- The STATUS word (R37): BUSY [0], DONE [1], ERR [2], 0 [3], LASTOP [7:4], ERRCODE [15:8], 0 [31:16]. -/
def State.statusWord (s : State) : Word :=
  (0 : BitVec 16) ++ s.status.errCode.code ++ s.status.lastOp ++ (0 : BitVec 1) ++ BitVec.ofBool s.status.err
    ++ BitVec.ofBool s.status.done ++ BitVec.ofBool s.busy

/-- `INT_STAT.DONE_IS`, bit 0 (R51). -/
def doneIs : BitVec 3 := 0b001
/-- `INT_STAT.ERR_IS`, bit 1 (R51). -/
def errIs : BitVec 3 := 0b010
/-- `INT_STAT.WIGN_IS`, bit 2 (R51). -/
def wignIs : BitVec 3 := 0b100

/-- Set a bit of INT_STAT; it stays set until the host clears it (R51, R271). -/
def State.raiseInt (s : State) (b : BitVec 3) : State := { s with intStat := s.intStat ||| b }

/-- A register write ignored because the engine is busy sets WIGN_IS and nothing else (R143, R153). -/
def State.ignoredBusy (s : State) : State := s.raiseInt wignIs

/-- The interrupt line: level-sensitive, a function of INT_STAT and INT_EN (R272). -/
def State.irq (s : State) : Bool :=
  (s.intStat.getLsbD 0 && s.intEn.getLsbD 0) || (s.intStat.getLsbD 1 && s.intEn.getLsbD 1)
    || (s.intStat.getLsbD 2 && s.intEn.getLsbD 2)

/-- An INT_STAT bit that is cleared is no longer one from before a command (R315). -/
def Ended.clearInt (e : Ended) (v : BitVec 3) : Ended := { e with oldInt := e.oldInt &&& ~~~v }

/-- `WR INT_STAT, v`: `INT_STAT <- INT_STAT and not v[2:0]` (R273). -/
def State.writeIntStat (s : State) (v : Word) : State :=
  { s with
    intStat := s.intStat &&& ~~~(v.extractLsb' 0 3)
    oldInt := s.oldInt &&& ~~~(v.extractLsb' 0 3)
    unobserved := s.unobserved.map (·.clearInt (v.extractLsb' 0 3)) }

/-- A completion bit of INT_STAT has changed since a command before which the bits `old` were set (R93(b)). -/
def State.intShowsEnd (s : State) (old : BitVec 3) : Bool := decide (s.intStat &&& ~~~old &&& (doneIs ||| errIs) ≠ 0)

/-- The line is raised by completion bits that have changed since a command, and by them alone (R93(b)). -/
def State.irqShowsEnd (s : State) (old : BitVec 3) : Bool :=
  decide (s.intStat &&& s.intEn ≠ 0) && decide (s.intStat &&& s.intEn &&& (old ||| wignIs) = 0)

/-- `WR INT_EN, v`: `INT_EN <- v[2:0]` (R273). -/
def State.writeIntEn (s : State) (v : Word) : State := { s with intEn := v.extractLsb' 0 3 }

end Sys2Proof.Machine
end

