-- ==== Sys2Proof/Machine/Ops.lean ====
section
/-! DEFINITION. The named operations over memory and registers: system memory in canonical form (spec/20_memory.md R80),
the free values, DMA (R85, R86), the races of spec/70_reset_and_hazards.md R311 to R313, command acceptance
(spec/40_command_interface.md R144), ending a command by `complete()` (R150) or by `raise Error` (spec/60_exceptions.md
R266, the block's "taking an exception"; R268: there is no return, acceptance clears the report), and the reset action
(R300). -/

namespace Sys2Proof.Machine

/-! ### System memory (R80) -/

/-- What an unlisted address reads as. DESIGN CHOICE (log 3): the platform's memory before anything wrote it. -/
def Memory.unlisted : Byte := 0

/-- The byte at an address. -/
def Memory.get : Memory → Nat → Byte
  | [], _ => Memory.unlisted
  | (a, b) :: m, x => if x < a then Memory.unlisted else if x = a then b else Memory.get m x

/-- Memory with the byte at an address written, in canonical form. -/
def Memory.set : Memory → Nat → Byte → Memory
  | [], x, v => if v = Memory.unlisted then [] else [(x, v)]
  | (a, b) :: m, x, v =>
    if x < a then (if v = Memory.unlisted then (a, b) :: m else (x, v) :: (a, b) :: m)
    else if x = a then (if v = Memory.unlisted then m else (x, v) :: m)
    else (a, b) :: Memory.set m x v

/-- Every listed address is at least `lo`, addresses strictly rise, stay in the 32-bit space, and no listed byte equals
what an unlisted address reads as. -/
def Memory.wfFrom : Nat → Memory → Bool
  | _, [] => true
  | lo, (a, b) :: m =>
    decide (lo ≤ a) && decide (a < Config.addressSpace) && decide (b ≠ Memory.unlisted) && Memory.wfFrom (a + 1) m

/-- The canonical form of memory. -/
def Memory.wf (m : Memory) : Bool := Memory.wfFrom 0 m

/-- The `n` bytes from an address up. -/
def Memory.getBytes (m : Memory) : Nat → Nat → List Byte
  | _, 0 => []
  | a, n + 1 => m.get a :: Memory.getBytes m (a + 1) n

/-- Memory with a byte string written from an address up. -/
def Memory.setBytes (m : Memory) : Nat → List Byte → Memory
  | _, [] => m
  | a, b :: s => Memory.setBytes (m.set a b) (a + 1) s

/-! ### Free values (R18: "unspecified means a value the model takes as a draw") -/

/-- The `n` free bytes from draw `k` on. -/
def freeBytes : Nat → Nat → List Byte
  | _, 0 => []
  | k, n + 1 => Config.freeByte k :: freeBytes (k + 1) n

/-- One of several values, drawn: the first if there is no other (R311, R312, R313: "old or new"). -/
def pick (k : Nat) (v : Byte) : List Byte → Byte
  | [] => v
  | o :: os => (v :: o :: os).getD (Config.freeChoice k % (os.length + 2)) v

/-! ### What each agent sees of memory (R94, R311 to R313) -/

/-- `a` lies in `[first, first + len)`. -/
def inRange (first len a : Nat) : Bool := decide (first ≤ a) && decide (a < first + len)

/-- The values lagging entries give for an address. -/
def lagging (l : List Lag) (a : Nat) : List Byte := (l.filter (fun x => x.addr == a)).map (·.old)

/-- The values of the bytes of a list of cells at an address. -/
def cellsAt (l : List Host.Cell) (a : Nat) : List Byte := (l.filter (fun x => x.1 == a)).map (·.2)

/-- Lagging entries for the `n` bytes from `a` up, with their present values as the old ones; `dirty` says whose host cache
line may be written back (R97). -/
def lagsOf (m : Memory) (dirty : Nat → Bool) : Nat → Nat → List Lag
  | _, 0 => []
  | a, n + 1 => { addr := a, old := m.get a, maintained := false, dirty := dirty a } :: lagsOf m dirty (a + 1) n

/-- The cells of the `n` bytes from `a` up. -/
def cellsOf (m : Memory) : Nat → Nat → List Host.Cell
  | _, 0 => []
  | a, n + 1 => (a, m.get a) :: cellsOf m (a + 1) n

/-- The entries outside a range. -/
def lagsOutside (l : List Lag) (first len : Nat) : List Lag := l.filter (fun x => !inRange first len x.addr)

/-- The byte a DMA read finds at an address, draw `k`: the byte in memory, or the value before a host write it may not
see: one made while the command runs (R311) or one not made visible before (R312). -/
def State.dmaByte (s : State) (k a : Nat) : Byte :=
  pick k (s.mem.get a) (lagging s.unseen a ++ cellsAt s.raced a)

/-- The `n` bytes a DMA read finds from `a` up, from draw `k` on. -/
def State.dmaBytes (s : State) : Nat → Nat → Nat → List Byte
  | _, _, 0 => []
  | k, a, n + 1 => s.dmaByte k a :: State.dmaBytes s (k + 1) (a + 1) n

/-! ### DMA (R85, R86) -/

/-- `busErr(addr, write)` (R13). -/
def busErrAt (p : Config.Platform) (a : Nat) (write : Bool) : Bool :=
  p.busErr.any (fun r => r.write == write && inRange r.first r.len a)

/-- Some address of `[a, a+n)` gets an error response (R85, R86). -/
def busErrIn (p : Config.Platform) (write : Bool) : Nat → Nat → Bool
  | _, 0 => false
  | a, n + 1 => busErrAt p a write || busErrIn p write (a + 1) n

/-- An ended command's record with its writes changed. -/
def Ended.mapWrites (f : List Lag → List Lag) (e : Ended) : Ended := { e with writes := f e.writes }

/-- At the CMD write a host cache line lay over the byte, neither cleaned nor invalidated, without coherence: the breach of
R97's duty on the destination (R318). DEDUCED (log 6): a line the host's own write left dirty, and no other. DESIGN
CHOICE (log 16): the spec gives no line size; here each byte is a line of its own. -/
def State.dirtyAt (s : State) (a : Nat) : Bool := s.unseen.any (fun x => x.addr == a && x.dirty && !x.maintained)

/-- Entries of a range the engine writes again: where the host kept R97's duty this time, an earlier breach is over. -/
def State.rewritten (s : State) (first len : Nat) (l : List Lag) : List Lag :=
  l.map (fun x => if inRange first len x.addr && !s.dirtyAt x.addr then { x with dirty := false } else x)

/-- The engine's bytes land in memory; the host may still see the old ones until it has observed the end and ordered its reads
(R313), and, where it left a dirty line over a byte, after that too (R97, R318). -/
def State.dmaPut (s : State) (a : Nat) (bs : List Byte) : State :=
  { s with
    mem := s.mem.setBytes a bs
    written := lagsOf s.mem s.dirtyAt a bs.length ++ s.written
    posted := lagsOutside s.posted a bs.length
    stale := s.rewritten a bs.length s.stale
    unobserved := s.unobserved.map (Ended.mapWrites (s.rewritten a bs.length)) }

/-- The bytes of `[a, a+n)` that exist are unspecified: each is drawn (log 11). -/
def State.drawRange (s : State) (a n : Nat) : State :=
  let m := min n (Config.addressSpace - a)
  { s.dmaPut a (freeBytes s.draws m) with draws := s.draws + m }

/-- The result of a DMA access. -/
inductive DmaResult where
  /-- It was performed: the bytes read (none for a write) and the state after it. -/
  | done (bytes : List Byte) (s : State)
  /-- It got an error response: the state after it. -/
  | busError (s : State)
  /-- The range leaves the address space. -/
  | outside
  deriving DecidableEq, Repr

/-- `MemRead(addr, n)` (R85). -/
def dmaRead (s : State) (a n : Nat) : DmaResult :=
  if Config.addressSpace < a + n then .outside
  else if busErrIn s.plat false a n then .busError s
  else .done (s.dmaBytes s.draws a n) { s with draws := s.draws + n }

/-- `MemWrite(addr, n, s)` (R86): on an error response the bytes of the range are unspecified. -/
def dmaWrite (s : State) (a : Nat) (bs : List Byte) : DmaResult :=
  if Config.addressSpace < a + bs.length then .outside
  else if busErrIn s.plat true a bs.length then .busError (s.drawRange a bs.length)
  else .done [] (s.dmaPut a bs)

/-! ### The running command's destination (R311) -/

/-- `NBITS <- bitLen(W[N])`, `CWIDTH <- ceil(NBITS/8)` (R171). -/
def State.updateWidths (s : State) : State :=
  { s with
    nbits := BitVec.ofNat 32 (bitLen s.valN)
    cwidth := BitVec.ofNat 32 (ceilDiv (bitLen s.valN) Config.widthDivisor) }

/-- `EBS` is written (R193). -/
def State.updateEbs (s : State) : State := { s with ebs := BitVec.ofNat 32 (effectiveBs s) }

/-- The plan of a stream command that passes every check of its start step before the IV header, from the registers as
they stand; none where a check fails (R190). -/
def startPlan (c : StreamOp) (s : State) : Option Plan :=
  let s' := s.updateWidths.updateEbs
  if s.valN ≤ 1 then none
  else if badBs s'.ebs.toNat s'.cwidth.toNat then none
  else
    match plan c s.ivhdr s.srcLen.toNat s'.ebs.toNat s'.cwidth.toNat with
    | none => none
    | some p =>
      if badRange s.srcAddr.toNat s.srcLen.toNat s.dstAddr.toNat p.out s.dstCap.toNat then none else some p

/-- The number of destination bytes of the running command: the `OUT_REQ` of R311, 0 where no stream command runs or its
start step refuses it. The registers it is computed from cannot change while the command runs (R153). -/
def State.dstSpan (s : State) : Nat :=
  if s.busy then
    match streamOf s.seq.op with
    | some c => match startPlan c s with
      | some p => p.out
      | none => 0
    | none => 0
  else 0

/-- The addresses of destination bytes the host wrote while the command ran (R311). -/
def State.racedDst (s : State) : List Nat :=
  (s.raced.map (·.1)).filter
    (fun a => inRange s.dstAddr.toNat s.dstSpan a && decide (a < Config.addressSpace))

/-- Memory with the byte at each address of a list drawn, from draw `k` on. -/
def drawEach (m : Memory) : Nat → List Nat → Memory
  | _, [] => m
  | k, a :: as => drawEach (m.set a (Config.freeByte k)) (k + 1) as

/-- The ended command's record; none where it has no destination and wrote nothing (R311). -/
def State.ended (s : State) : List Ended :=
  if s.dstSpan = 0 ∧ s.written = [] then []
  else [{ first := s.dstAddr.toNat, len := s.dstSpan, oldInt := s.oldInt, writes := s.written }]

/-- At the end of a command: "the final destination contents are then unspecified for each byte the host wrote", and the
destination is not the host's before it has observed the end (R311). -/
def State.settleRaces (s : State) : State :=
  { s with
    mem := drawEach s.mem s.draws s.racedDst
    draws := s.draws + s.racedDst.length
    raced := []
    written := []
    unobserved := s.ended ++ s.unobserved }

/-- The writes of ended commands, for the host to order its reads after (R313). -/
def writesOf (l : List Ended) : List Lag := l.flatMap (·.writes)

/-- The host has observed the end of the ended commands that `shows` names by the INT_STAT bits older than them: their writes
are its to order, and their destinations its own (R93(b), R311, R313). It stays so whatever command or reset follows (R94). -/
def State.observe (s : State) (shows : BitVec 3 → Bool) : State :=
  { s with
    stale := writesOf (s.unobserved.filter (fun e => shows e.oldInt)) ++ s.stale
    unobserved := s.unobserved.filter (fun e => !shows e.oldInt) }

/-! ### Starting and ending a command (R144, R150, R266) -/

/-- The host writes DMA may not see at a CMD write: those not made visible before it (R312), and the bytes an earlier breach
left uncertain (R318). -/
def State.unseenAtCmd (s : State) : List Lag :=
  s.posted ++ (writesOf s.unobserved ++ s.stale).filter (·.dirty)

/-- Command acceptance (R144). What the host does after it comes too late for R312's duty. -/
def State.accept (s : State) (op : BitVec 4) (esel : Bool) : State :=
  { s with
    seq := { phase := .start, op := op, esel := esel, blk := 0, hdr := 0 }
    status := { done := false, err := false, lastOp := op, errCode := .none }
    errInfo := Config.noBlock
    unseen := s.unseenAtCmd
    oldInt := s.intStat }

/-- `complete()` (R150). -/
def State.complete (s : State) : State :=
  { s.settleRaces with
    seq := { s.seq with phase := .idle }
    status := { s.status with done := true }
    intStat := s.intStat ||| doneIs }

/-- `raise Error(code, info)` (R266): the one way an error ends a command. -/
def State.raise (s : State) (code : ErrCode) (info : Word) : State :=
  { s.settleRaces with
    seq := { s.seq with phase := .idle }
    status := { s.status with done := false, err := true, errCode := code }
    errInfo := info
    intStat := s.intStat ||| errIs }

/-- An illegal command, inside the CMD write step (R145). -/
def State.illegal (s : State) (op : BitVec 4) : State :=
  { s with status := { s.status with lastOp := op } }.raise .illegalCmd Config.noBlock

/-- A write of a legal command word to CMD: acceptance while idle (R142), ignored while busy (R143). -/
def State.cmdWrite (s : State) (op : BitVec 4) (esel : Bool) : State :=
  if s.busy then s.ignoredBusy else s.accept op esel

/-- The destination bytes not yet counted in DST_LEN, `[DST_ADDR + DST_LEN, DST_ADDR + OUT_REQ)`, are drawn (R148, R213). -/
def State.drawPending (s : State) : State :=
  s.drawRange (s.dstAddr.toNat + s.dstLen.toNat) (s.outReq.toNat - s.dstLen.toNat)

/-- The destination range `[a, a+n)` of a reset without the source range: "Source bytes are not changed" (R302). The two
overlap only before the start step has checked them (R198). -/
def State.drawDst (s : State) (a n : Nat) : State :=
  let past := max a (s.srcAddr.toNat + s.srcLen.toNat)
  (s.drawRange a (min n (s.srcAddr.toNat - a))).drawRange past (a + n - past)

/-- What memory a reset leaves (R302): every destination byte of a running stream command is drawn, and so is each one the
host wrote while it ran (R311). -/
def State.settleReset (s : State) : State :=
  if s.busy && (streamOf s.seq.op).isSome then (s.drawDst s.dstAddr.toNat s.outReq.toNat).settleRaces else s

/-- The reset action (R300, R302): every register, window and `seq` at its reset value. System memory, the platform, the
moves to come and the host's view of memory are not the block's. DESIGN CHOICE (log 6): no command is left to report, so the
host has nothing more to observe before it orders its reads. -/
def State.resetAction (s : State) : State :=
  let s' := s.settleReset.observe (fun _ => true)
  { State.reset with
    mem := s'.mem, plat := s.plat, schedule := s.schedule, turn := s.turn, resp := s.resp
    posted := s'.posted, stale := s'.stale, draws := s'.draws }

/-- The answer of a step. -/
abbrev StepResult := Host.Outcome State Fault Refusal

/-- The frame every CMD32 instruction's meaning is written in. On the host's turn the instruction is a CMD write (R142,
R143); on the engine's turn, if the command the sequencer runs is this one, `engine` gives the enabled step by phase (R146),
and otherwise it has no step. -/
def command (op : BitVec 4) (esel : Bool) (engine : State → StepResult) (s : State) : StepResult :=
  match s.turn with
  | .host => .next (s.cmdWrite op esel)
  | .engine => if s.seq.op = op ∧ s.seq.esel = esel then engine s else .next s

end Sys2Proof.Machine
end

