-- ==== Sys2Proof/Machine/Control.lean ====
section
/-! DEFINITION. The command that computes nothing and the two control actions: NOP (spec/40_command_interface.md R147),
CTRL.ABORT (R148), CTRL.SRST (R149). -/

namespace Sys2Proof.Machine

/-- NOP (R147): the start step is `complete()`. -/
def execNop (s : State) : StepResult :=
  command 0 false (fun s =>
    match s.seq.phase with
    | .start => .next s.complete
    | .idle => .next s
    | .compute => .next s
    | .blocks => .next s) s

/-- CTRL.ABORT (R148): ends a running command with ABORTED; the destination bytes of a stream command not counted in
DST_LEN are then unspecified (93 U2); no effect while idle. The ignored bits have no effect (R115). -/
def execCtrlAbort (_reserved : Nat) (s : State) : StepResult :=
  if s.busy then
    let s' := if (streamOf s.seq.op).isSome then s.drawPending else s
    .next (s'.raise .aborted Config.noBlock)
  else .next s

/-- CTRL.SRST (R149): the reset action, whether or not ABORT is set too (R115). -/
def execCtrlSrst (_abort : Bool) (_reserved : Nat) (s : State) : StepResult :=
  .next s.resetAction

end Sys2Proof.Machine
end

