-- ==== Sys2Proof/Machine/Modexp.lean ====
section
/-! DEFINITION. The modular-exponentiation commands (spec/41_modexp.md R171 to R180). -/

namespace Sys2Proof.Machine

/-- MODEXP's start step: widths first, then DOMAIN if `W[N] = 0` (R171, R172, R173). -/
def modexpStart (s : State) : State :=
  let s := s.updateWidths
  if s.valN = 0 then s.raise .domain Config.noBlock else { s with seq := { s.seq with phase := .compute } }

/-- MODEXP's compute step: `RESULT <- modexp(W[BASE], X, W[N])`, then `complete()` (R172). -/
def modexpCompute (x : Nat) (s : State) : State :=
  { s with result := BitVec.ofNat 8192 (modexp s.valBase x s.valN) }.complete

/-- MODEXP.E: exponent `W[E]` (R172, R113). -/
def execModexpE (s : State) : StepResult :=
  command 1 false (fun s =>
    match s.seq.phase with
    | .start => .next (modexpStart s)
    | .compute => .next (modexpCompute s.valE s)
    | .idle => .next s
    | .blocks => .next s) s

/-- MODEXP.D: exponent `W[D]` (R172, R113). -/
def execModexpD (s : State) : StepResult :=
  command 1 true (fun s =>
    match s.seq.phase with
    | .start => .next (modexpStart s)
    | .compute => .next (modexpCompute s.valD s)
    | .idle => .next s
    | .blocks => .next s) s

end Sys2Proof.Machine
end

