-- ==== Sys2Proof/Machine/Stream.lean ====
section
/-! DEFINITION. The stream commands of the ECB/CBC mode controller (spec/42_mode_controller.md R190 to R213): the start
step, the encrypting and the decrypting block step, and the four commands. -/

namespace Sys2Proof.Machine

/-- With ECB_PARALLEL, the destination bytes of the ECB blocks not yet complete are unspecified while the command is busy
and after it ends in error (R213); DST_LEN counts exactly the complete ones (log 12). -/
def State.drawAhead (s : State) (c : StreamOp) : State :=
  if s.plat.ecbParallel && !c.cbc then s.drawPending else s

/-- An error of block step `seq.blk` (R210). -/
def raiseBlock (c : StreamOp) (s : State) (code : ErrCode) : StepResult :=
  .next ((s.drawAhead c).raise code s.seq.blk)

/-! ### The start step (R190) -/

/-- NBLK_DONE and DST_LEN are cleared right after the widths, before any check (R199). -/
def State.clearCounters (s : State) : State := { s with nblkDone := 0, dstLen := 0 }

/-- NBLK_TOTAL, OUT_REQ (saturated) and `seq.hdr` are written (R197). -/
def State.setPlan (s : State) (p : Plan) : State :=
  { s with
    nblkTotal := BitVec.ofNat 32 p.nb
    outReq := BitVec.ofNat 32 (min p.out Config.outReqMax)
    seq := { s.seq with hdr := p.hdr } }

/-- The end of a start step that no check failed: `phase <- BLOCKS; blk <- 0` (R190). -/
def enterBlocks (c : StreamOp) (s : State) : StepResult :=
  .next ({ s with seq := { s.seq with phase := .blocks, blk := 0 } }.drawAhead c)

/-- `Bytes[CHAIN][0:len bs) <- bs` (R203, R204). -/
def State.setChain (s : State) (bs : List Byte) : State := { s with chain := setBytes s.chain bs }

/-- `Bytes[CHAIN][0:MAXBS) <- zeros(MAXBS)` (R204). -/
def State.clearChain (s : State) : State := { s with chain := 0 }

/-- `Bytes[IV][0:bs)`. -/
def State.ivBytes (s : State) : List Byte := winBytes s.iv s.ebs.toNat

/-- `Bytes[CHAIN][0:bs)`, the chain value. -/
def State.chainBytes (s : State) : List Byte := winBytes s.chain s.ebs.toNat

/-- CBC chain initialisation and the IV header (R204), the last part of the start step; ECB commands skip it. -/
def chainInit (c : StreamOp) (s : State) : StepResult :=
  match c with
  | .ecbEnc => enterBlocks c s
  | .ecbDec => enterBlocks c s
  | .cbcEnc =>
    let s1 := s.clearChain.setChain s.ivBytes
    if s1.ivhdr then
      match dmaWrite s1 s1.dstAddr.toNat s1.ivBytes with
      | .outside => .fault .dmaOutside
      | .busError s2 => .next (s2.raise .busError Config.noBlock)
      | .done _ s2 => enterBlocks c { s2 with dstLen := s2.ebs }
    else enterBlocks c s1
  | .cbcDec =>
    let s1 := s.clearChain
    if s1.ivhdr then
      match dmaRead s1 s1.srcAddr.toNat s1.ebs.toNat with
      | .outside => .fault .dmaOutside
      | .busError s2 => .next (s2.raise .busError Config.noBlock)
      | .done header s2 => enterBlocks c (s2.setChain header)
    else enterBlocks c (s1.setChain s1.ivBytes)

/-- The start step of a stream command (R190): R171, R199, R192, R193, R194, R197, R198, R204 in order; the first check that
fails raises its error. -/
def streamStart (c : StreamOp) (s : State) : StepResult :=
  let s1 := s.updateWidths.clearCounters
  if s1.valN ≤ 1 then .next (s1.raise .encModulus Config.noBlock)
  else
    let s2 := s1.updateEbs
    if badBs s2.ebs.toNat s2.cwidth.toNat then .next (s2.raise .cfgBlksz Config.noBlock)
    else
      match plan c s2.ivhdr s2.srcLen.toNat s2.ebs.toNat s2.cwidth.toNat with
      | none => .next (s2.raise .encWidth Config.noBlock)
      | some p =>
        let s3 := s2.setPlan p
        if badRange s3.srcAddr.toNat s3.srcLen.toNat s3.dstAddr.toNat p.out s3.dstCap.toNat then
          .next (s3.raise .cfgRange Config.noBlock)
        else chainInit c s3

/-! ### The block steps (R205 to R208) -/

/-- The counters of a completed block of `width` output bytes: DST_LEN, NBLK_DONE, `seq.blk` (R205 to R208). -/
def State.blockDone (s : State) (width : Word) : State :=
  { s with
    dstLen := s.dstLen + width
    nblkDone := s.nblkDone + 1
    seq := { s.seq with blk := s.seq.blk + 1 } }

/-- The source address of block `seq.blk`: `S + i*bs` to encrypt (R200), `S + hdr + i*CW` to decrypt (R201). -/
def State.srcBlock (s : State) (c : StreamOp) : Nat :=
  if c.dec then s.srcAddr.toNat + s.seq.hdr + s.seq.blk.toNat * s.cwidth.toNat
  else s.srcAddr.toNat + s.seq.blk.toNat * s.ebs.toNat

/-- How many source bytes block `seq.blk` takes: `min(bs, L - i*bs)` to encrypt (R200), `CW` to decrypt (R201). -/
def State.srcTake (s : State) (c : StreamOp) : Nat :=
  if c.dec then s.cwidth.toNat else min s.ebs.toNat (s.srcLen.toNat - s.seq.blk.toNat * s.ebs.toNat)

/-- The destination address of block `seq.blk`: `T + hdr + i*CW` to encrypt, `T + i*bs` to decrypt (R205 to R208). -/
def State.dstBlock (s : State) (c : StreamOp) : Nat :=
  if c.dec then s.dstAddr.toNat + s.seq.blk.toNat * s.ebs.toNat
  else s.dstAddr.toNat + s.seq.hdr + s.seq.blk.toNat * s.cwidth.toNat

/-- `PB(i)`: the source bytes, zero-padded at the end of the block to `bs` bytes (R200). -/
def padBlock (bs : Nat) (raw : List Byte) : List Byte := raw ++ zeros (bs - raw.length)

/-- The CBC chaining update of a completed block, `Bytes[CHAIN][0:bs) <- low_bs(CB)` (R203); none for ECB. -/
def State.chainUpdate (s : State) (c : StreamOp) (cb : List Byte) : State :=
  if c.cbc then s.setChain (lowBytes s.ebs.toNat cb) else s

/-- XOR with the chain value, for CBC alone (R207, R208). -/
def State.chainXor (s : State) (c : StreamOp) (pb : List Byte) : List Byte :=
  if c.cbc then xorBytes pb s.chainBytes else pb

/-- The end of a block step: write `out` at the block's destination, then update the chain with the cipher block `cb` and
the counters (R205 to R208). -/
def finishBlock (c : StreamOp) (s : State) (out cb : List Byte) (width : Word) : StepResult :=
  match dmaWrite s (s.dstBlock c) out with
  | .outside => .fault .dmaOutside
  | .busError s' => raiseBlock c s' .busError
  | .done _ s' => .next (((s'.chainUpdate c cb).blockDone width).drawAhead c)

/-- The block step of ECB_ENC and CBC_ENC (R205, R207). -/
def encBlock (c : StreamOp) (s : State) : StepResult :=
  match dmaRead s (s.srcBlock c) (s.srcTake c) with
  | .outside => .fault .dmaOutside
  | .busError s' => raiseBlock c s' .busError
  | .done raw s' =>
    let m := beNat (s'.chainXor c (padBlock s'.ebs.toNat raw))
    if s'.valN ≤ m then raiseBlock c s' .encRange
    else
      let cb := beBytes s'.cwidth.toNat (modexp m (s'.exponent c) s'.valN)
      finishBlock c s' cb cb s'.cwidth

/-- The block step of ECB_DEC and CBC_DEC (R206, R208). -/
def decBlock (c : StreamOp) (s : State) : StepResult :=
  match dmaRead s (s.srcBlock c) (s.srcTake c) with
  | .outside => .fault .dmaOutside
  | .busError s' => raiseBlock c s' .busError
  | .done cb s' =>
    if s'.valN ≤ beNat cb then raiseBlock c s' .encCRange
    else
      let m := modexp (beNat cb) (s'.exponent c) s'.valN
      if 256 ^ s'.ebs.toNat ≤ m then raiseBlock c s' .encOverflow
      else finishBlock c s' (s'.chainXor c (beBytes s'.ebs.toNat m)) cb s'.ebs

/-- The BLOCKS phase: a block step while `seq.blk < NBLK_TOTAL`, then `complete()` (R146, R209). -/
def blocksPhase (block : State → StepResult) (s : State) : StepResult :=
  if s.seq.blk < s.nblkTotal then block s
  else if s.seq.blk = s.nblkTotal then .next s.complete
  else .next s

/-- The engine's steps of a stream command, by phase (R146). -/
def streamEngine (c : StreamOp) (block : State → StepResult) (s : State) : StepResult :=
  match s.seq.phase with
  | .start => streamStart c s
  | .blocks => blocksPhase block s
  | .idle => .next s
  | .compute => .next s

/-- ECB_ENC (R205). -/
def execEcbEnc (s : State) : StepResult := command 4 false (streamEngine .ecbEnc (encBlock .ecbEnc)) s

/-- ECB_DEC (R206). -/
def execEcbDec (s : State) : StepResult := command 5 false (streamEngine .ecbDec (decBlock .ecbDec)) s

/-- CBC_ENC (R207). -/
def execCbcEnc (s : State) : StepResult := command 6 false (streamEngine .cbcEnc (encBlock .cbcEnc)) s

/-- CBC_DEC (R208). -/
def execCbcDec (s : State) : StepResult := command 7 false (streamEngine .cbcDec (decBlock .cbcDec)) s

end Sys2Proof.Machine
end

