-- ==== Sys2Proof/Machine/Dispatch.lean ====
section
/-! DEFINITION. One arm per instruction. -/

namespace Sys2Proof.Machine

def exec (i : Instr) (s : State) : Host.Outcome State Fault Refusal :=
  match i with
  | .nop => Sys2Proof.Machine.execNop s
  | .modexpE => Sys2Proof.Machine.execModexpE s
  | .modexpD => Sys2Proof.Machine.execModexpD s
  | .ecbEnc => Sys2Proof.Machine.execEcbEnc s
  | .ecbDec => Sys2Proof.Machine.execEcbDec s
  | .cbcEnc => Sys2Proof.Machine.execCbcEnc s
  | .cbcDec => Sys2Proof.Machine.execCbcDec s
  | .ctrlAbort reserved => Sys2Proof.Machine.execCtrlAbort reserved s
  | .ctrlSrst abort reserved => Sys2Proof.Machine.execCtrlSrst abort reserved s

end Sys2Proof.Machine
end

