-- ==== Sys2Proof/Machine/Port.lean ====
section
/-! DEFINITION. The register slave port (spec/20_memory.md R81 to R84, spec/30_encoding.md R116, spec/40_command_interface.md
R140 to R155): the register map, reads, writes, and the CMD and CTRL writes that run instructions. -/

namespace Sys2Proof.Machine

/-! ### The register map (R116) -/

/-- The register at word index `off/4` below 0x400; 0x054 to 0x3FF are unmapped (R81, R116). -/
def controlReg : Nat → Option Reg
  | 0 => some .id
  | 1 => some .param
  | 2 => some .cmd
  | 3 => some .ctrl
  | 4 => some .status
  | 5 => some .cfg
  | 6 => some .blksz
  | 7 => some .srcAddr
  | 8 => some .srcLen
  | 9 => some .dstAddr
  | 10 => some .dstCap
  | 11 => some .dstLen
  | 12 => some .nbits
  | 13 => some .cwidth
  | 14 => some .ebs
  | 15 => some .nblkTotal
  | 16 => some .nblkDone
  | 17 => some .outReq
  | 18 => some .errInfo
  | 19 => some .intEn
  | 20 => some .intStat
  | _ => none

/-- The window at the `i`-th KiB of the aperture (R116). -/
def windowAt : Nat → Option Win
  | 1 => some .n
  | 2 => some .e
  | 3 => some .d
  | 4 => some .base
  | 5 => some .result
  | 6 => some .iv
  | 7 => some .chain
  | _ => none

/-- The register at a byte offset of the aperture; none where it is misaligned or unmapped (R81, R116). -/
def regAt (off : Nat) : Option Reg :=
  if off % 4 ≠ 0 then none
  else if off < 0x400 then controlReg (off / 4)
  else (windowAt (off / 0x400)).map (fun w => .word w (off % 0x400 / 4))

/-- The first byte offset of a window (R116). -/
def Win.offset : Win → Nat
  | .n => 0x400
  | .e => 0x800
  | .d => 0xC00
  | .base => 0x1000
  | .result => 0x1400
  | .iv => 0x1800
  | .chain => 0x1C00

/-- A register's byte offset (R116). -/
def Reg.offset : Reg → Nat
  | .id => 0x000
  | .param => 0x004
  | .cmd => 0x008
  | .ctrl => 0x00C
  | .status => 0x010
  | .cfg => 0x014
  | .blksz => 0x018
  | .srcAddr => 0x01C
  | .srcLen => 0x020
  | .dstAddr => 0x024
  | .dstCap => 0x028
  | .dstLen => 0x02C
  | .nbits => 0x030
  | .cwidth => 0x034
  | .ebs => 0x038
  | .nblkTotal => 0x03C
  | .nblkDone => 0x040
  | .outReq => 0x044
  | .errInfo => 0x048
  | .intEn => 0x04C
  | .intStat => 0x050
  | .word w k => w.offset + 4 * k

/-- A window's access (R116). -/
def Win.access : Win → Access
  | .n => .rw
  | .e => .rw
  | .d => .rw
  | .base => .rw
  | .result => .ro
  | .iv => .rw
  | .chain => .ro

/-- A register's access (R116). -/
def Reg.access : Reg → Access
  | .id => .ro
  | .param => .ro
  | .cmd => .wo
  | .ctrl => .wo
  | .status => .ro
  | .cfg => .rw
  | .blksz => .rw
  | .srcAddr => .rw
  | .srcLen => .rw
  | .dstAddr => .rw
  | .dstCap => .rw
  | .dstLen => .ro
  | .nbits => .ro
  | .cwidth => .ro
  | .ebs => .ro
  | .nblkTotal => .ro
  | .nblkDone => .ro
  | .outReq => .ro
  | .errInfo => .ro
  | .intEn => .rw
  | .intStat => .w1c
  | .word w _ => w.access

/-- `BASE_ADDR`, aligned to 8 KiB (R12). -/
def baseAddr (p : Config.Platform) : Word := p.basePage ++ (0 : BitVec 13)

/-- The bus address of a register. -/
def busAddr (p : Config.Platform) (r : Reg) : Word := baseAddr p + BitVec.ofNat 32 r.offset

/-- The aperture offset of a bus address; none outside the 8 KiB aperture (R80, R81). -/
def portOffset (p : Config.Platform) (addr : Word) : Option Nat :=
  if addr.extractLsb' 13 19 = p.basePage then some (addr.extractLsb' 0 13).toNat else none

/-! ### Register reads (R140) -/

/-- A window's contents. -/
def State.window (s : State) : Win → Window
  | .n => s.n
  | .e => s.e
  | .d => s.d
  | .base => s.base
  | .result => s.result
  | .iv => s.iv
  | .chain => s.chain

/-- The value of PARAM: REV [31:16], 0 [15:9], MAXWORDS [8:0] (R34). -/
def paramWord (p : Config.Platform) : Word := Config.revision ++ (0 : BitVec 7) ++ BitVec.ofNat 9 p.maxWords

/-- The value a read of a register returns (R33 to R51; write-only registers read 0, R52; words past MAXWORDS or MAXBS read
0, R40, R47). A read while busy is no different (R154). -/
def State.readReg (s : State) : Reg → Word
  | .id => Config.idWord
  | .param => paramWord s.plat
  | .cmd => 0
  | .ctrl => 0
  | .status => s.statusWord
  | .cfg => s.cfg.setWidth 32
  | .blksz => s.blksz.setWidth 32
  | .srcAddr => s.srcAddr
  | .srcLen => s.srcLen
  | .dstAddr => s.dstAddr
  | .dstCap => s.dstCap
  | .dstLen => s.dstLen
  | .nbits => s.nbits
  | .cwidth => s.cwidth
  | .ebs => s.ebs
  | .nblkTotal => s.nblkTotal
  | .nblkDone => s.nblkDone
  | .outReq => s.outReq
  | .errInfo => s.errInfo
  | .intEn => s.intEn.setWidth 32
  | .intStat => s.intStat.setWidth 32
  | .word w k => if k < s.plat.maxWords then getWord (s.window w) k else 0

/-- Does this read show the end of a command before which the INT_STAT bits `old` were set (R93(b), R155)? STATUS shows it by
BUSY = 0 with DONE or ERR, for every command before; INT_STAT by a completion bit not set before, while a later command runs
too. -/
def State.showsEnd (s : State) (r : Reg) (old : BitVec 3) : Bool :=
  match r with
  | .status => !s.busy && (s.status.done || s.status.err)
  | .intStat => s.intShowsEnd old
  | _ => false

/-! ### Register writes (R141) -/

/-- A window word is written: all 32 bits, or none past MAXWORDS or MAXBS (R40, R47). -/
def State.writeWord (s : State) (w : Win) (k : Nat) (v : Word) : State :=
  if k < s.plat.maxWords then
    match w with
    | .n => { s with n := setWord s.n k v }
    | .e => { s with e := setWord s.e k v }
    | .d => { s with d := setWord s.d k v }
    | .base => { s with base := setWord s.base k v }
    | .iv => { s with iv := setWord s.iv k v }
    | .result => s
    | .chain => s
  else s

/-- The stored bits of an RW register (R141(8)); a register that is not RW stores nothing. -/
def State.writeRw (s : State) (r : Reg) (v : Word) : State :=
  match r with
  | .cfg => { s with cfg := v.extractLsb' 0 2 }
  | .blksz => { s with blksz := v.extractLsb' 0 16 }
  | .srcAddr => { s with srcAddr := v }
  | .srcLen => { s with srcLen := v }
  | .dstAddr => { s with dstAddr := v }
  | .dstCap => { s with dstCap := v }
  | .word w k => s.writeWord w k v
  | _ => s

/-- A write to a register other than CMD and CTRL: cases (4) to (8) of R141. -/
def State.writePlain (s : State) (r : Reg) (v : Word) : State :=
  match r with
  | .intStat => s.writeIntStat v
  | .intEn => s.writeIntEn v
  | _ =>
    match r.access with
    | .ro => s
    | .wo => s
    | .w1c => s
    | .rw => if s.busy then s.ignoredBusy else s.writeRw r v

/-- A write to CMD: a legal word runs its instruction (acceptance, or WIGN_IS while busy); an illegal one is ILLEGAL_CMD
while idle (R142, R145) and ignored while busy, whatever it is (R143). -/
def writeCmd (s : State) (v : Word) : StepResult :=
  match decodeCmd v with
  | .instr i => exec i s
  | .noAction => .next s
  | .rejected _ => .next (if s.busy then s.ignoredBusy else s.illegal (opField v))

/-- A write to CTRL: the control action the word names, or nothing (R115, R148, R149). -/
def writeCtrl (s : State) (v : Word) : StepResult :=
  match decodeCtrl v with
  | .instr i => exec i s
  | .noAction => .next s
  | .rejected _ => .next s

/-- `WR off, v` to a mapped register (R141). -/
def writeReg (s : State) (r : Reg) (v : Word) : StepResult :=
  match r with
  | .cmd => writeCmd s v
  | .ctrl => writeCtrl s v
  | _ => .next (s.writePlain r v)

/-! ### Port accesses (R82, R270) -/

/-- The answer to a host step is recorded. -/
def State.answer (s : State) (a : Response) : State := { s with resp := a }

/-- The data of a full-strobe 32-bit write; none for any other lanes (R82, R83). -/
def fullWord : List (Option Byte) → Option Word
  | [some b0, some b1, some b2, some b3] => some (wordOfLanes b0 b1 b2 b3)
  | _ => none

/-- A full-strobe 32-bit write of a word. -/
def fullLanes (v : Word) : List (Option Byte) := (lanesOf v).map some

/-- A port read (R140): any access R81 and R82 refuse gets the error response and changes nothing (R270). -/
def portRead (s : State) (addr : Word) (bytes : Nat) : StepResult :=
  match portOffset s.plat addr with
  | none => .next (s.answer .elsewhere)
  | some off =>
    if bytes = 4 then
      match regAt off with
      | none => .next (s.answer (.busError 0))
      | some r => .next ((s.observe (s.showsEnd r)).answer (.data (s.readReg r)))
    else .next (s.answer (.busError 0))

/-- A port write (R141): any access R81 and R82 refuse gets the error response and changes nothing (R270). -/
def portWrite (s : State) (addr : Word) (lanes : List (Option Byte)) : StepResult :=
  match portOffset s.plat addr with
  | none => .next (s.answer .elsewhere)
  | some off =>
    match regAt off, fullWord lanes with
    | some r, some v => writeReg (s.answer .ok) r v
    | _, _ => .next (s.answer (.busError 0))

end Sys2Proof.Machine
end

