-- ==== Sys2Proof/Machine/HostSteps.lean ====
section
/-! DEFINITION. The steps of the two agents: the host's accesses to system memory, its barriers and cache maintenance
(spec/20_memory.md R94, R97, spec/70_reset_and_hazards.md R311 to R313), its look at `irq`, its WAIT loop, and the
engine's turn (spec/40_command_interface.md R146). -/

namespace Sys2Proof.Machine

/-! ### Visibility (R97, R312, R313) -/

/-- Entries of a range are marked as covered by the host's cache maintenance. -/
def maintain (first len : Nat) (l : List Lag) : List Lag :=
  l.map (fun x => if inRange first len x.addr then { x with maintained := true } else x)

/-- Of entries the host's reads are not yet ordered after, maintenance counts for a breach alone: the line is gone before the
next CMD write (R97). -/
def maintainDirty (first len : Nat) (l : List Lag) : List Lag :=
  l.map (fun x => if inRange first len x.addr && x.dirty then { x with maintained := true } else x)

/-- Host writes of a range whose line is no longer dirty. -/
def settleLines (first len : Nat) (l : List Lag) : List Lag :=
  l.map (fun x => if inRange first len x.addr then { x with dirty := false } else x)

/-- The entries a barrier leaves: none with coherence; without it, those no cache maintenance has covered (R97, R312, R313), and the bytes a
breach left uncertain (R318). DESIGN CHOICE (log 15): the rules ask for the barrier and the maintenance and state no order; here
maintenance counts only at a barrier, or an access with its duty, that comes after it. -/
def afterBarrier (p : Config.Platform) (l : List Lag) : List Lag :=
  if p.dmaCoherent then [] else l.filter (fun x => x.dirty || !x.maintained)

/-- The host's barrier: its earlier writes are visible to the DMA of later commands (R312), and its later reads see the final
bytes of the commands whose end it has observed (R313), in each case if the caches are coherent or maintained (R97). -/
def State.barrier (s : State) : State :=
  { s with posted := afterBarrier s.plat s.posted, stale := afterBarrier s.plat s.stale }

/-- Cache maintenance of a range removes the lines that the destination of a later command must not have (R97). -/
def State.dropLines (s : State) (a n : Nat) : State :=
  { s with
    posted := settleLines a n s.posted
    written := maintainDirty a n s.written
    unobserved := s.unobserved.map (Ended.mapWrites (maintainDirty a n))
    stale := maintainDirty a n s.stale }

/-- The host cleans a range (R97). -/
def State.clean (s : State) (a n : Nat) : State :=
  { s.dropLines a n with posted := maintain a n (settleLines a n s.posted) }

/-- The host invalidates a range: for its reads it counts where the end was observed (R97, R313). -/
def State.invalidate (s : State) (a n : Nat) : State :=
  { s.dropLines a n with stale := maintain a n s.stale }

/-! ### Host accesses to system memory (R94, R311) -/

/-- The entries of a range after the host's duty before reading it: those a breach left uncertain (R313, R318). -/
def ordered (l : List Lag) (first len : Nat) : List Lag := l.filter (fun x => !inRange first len x.addr || x.dirty)

/-- The state after the host's duty before reading `[a, a + len)`: the bytes of the commands whose end it has observed are
final (R313). -/
def State.orderReads (s : State) (a n : Nat) : State := { s with stale := ordered s.stale a n }

/-- The address lies in the destination of an ended command whose end the host has not observed (R311). -/
def State.notReleased (s : State) (a : Nat) : Bool := s.unobserved.any (fun e => inRange e.first e.len a)

/-- Every engine write the host's reads are not ordered after (R313). -/
def State.lags (s : State) : List Lag := s.written ++ writesOf s.unobserved ++ s.stale

/-- The byte the host finds at an address, draw `k`: unspecified in the destination of a command whose end it has not
observed (R311); else the byte in memory, or the one before an engine write it may not see yet (R313). -/
def State.hostByte (s : State) (k a : Nat) : Byte :=
  if inRange s.dstAddr.toNat s.dstSpan a || s.notReleased a then Config.freeByte k
  else pick k (s.mem.get a) (lagging s.lags a)

/-- The `n` bytes the host finds from `a` up, from draw `k` on. -/
def State.hostBytes (s : State) : Nat → Nat → Nat → List Byte
  | _, _, 0 => []
  | k, a, n + 1 => s.hostByte k a :: State.hostBytes s (k + 1) (a + 1) n

/-- The bytes a host write from `a` up leaves, from draw `k` on: unspecified in the destination of an ended command whose end
the host has not observed (R311; while a command runs, its destination is settled at its end). -/
def State.landed (s : State) : Nat → Nat → List Byte → List Byte
  | _, _, [] => []
  | k, a, b :: bs => (if s.notReleased a then Config.freeByte k else b) :: State.landed s (k + 1) (a + 1) bs

/-- `MR` (R119). -/
def hostRead (s : State) (a n : Nat) (duty : Bool) : StepResult :=
  if Config.addressSpace < a + n then .fault .hostOutside
  else
    let s := if duty then s.orderReads a n else s
    .next ({ s with draws := s.draws + n }.answer (.bytes (s.hostBytes s.draws a n)))

/-- `MW` (R119): without the duty of R312 a DMA read may still find the old byte; a write while a command runs is a race
(R311). Without coherence the write leaves the line of each of its bytes dirty. DESIGN CHOICE (log 16): the spec gives no line
size; here each byte is a line of its own, so no byte beside the written ones is touched. -/
def hostWrite (s : State) (a : Nat) (bs : List Byte) (duty : Bool) : StepResult :=
  if Config.addressSpace < a + bs.length then .fault .hostOutside
  else
    .next ({ s with
      mem := s.mem.setBytes a (s.landed s.draws a bs)
      draws := s.draws + bs.length
      posted :=
        if duty then lagsOutside s.posted a bs.length
        else lagsOf s.mem (fun _ => !s.plat.dmaCoherent) a bs.length ++ s.posted
      written := lagsOutside s.written a bs.length
      unobserved := s.unobserved.map (Ended.mapWrites (lagsOutside · a bs.length))
      stale := lagsOutside s.stale a bs.length
      raced := if s.busy then cellsOf s.mem a bs.length ++ s.raced else s.raced }.answer .ok)

/-! ### The agents' moves -/

/-- The host looks at `irq` (R155(b), R272). -/
def sampleIrq (s : State) : StepResult :=
  .next ((s.observe s.irqShowsEnd).answer (.irq s.plat.irqId s.irq))

/-- `WAIT` (R120): `RD STATUS`; while BUSY, the loop goes on after an engine step (progress, R316). -/
def hostWait (s : State) : StepResult :=
  let s := if s.busy then { s with schedule := .engine :: .host .wait :: s.schedule } else s
  portRead s (busAddr s.plat .status) 4

/-- A host step. -/
def hostStep (h : HostStep) (s : State) : StepResult :=
  match h with
  | .portRead addr bytes => portRead s addr bytes
  | .portWrite addr lanes => portWrite s addr lanes
  | .memRead addr len duty => hostRead s addr.toNat len duty
  | .memWrite addr data duty => hostWrite s addr.toNat data duty
  | .barrier => .next (s.barrier.answer .ok)
  | .clean addr len => .next ((s.clean addr.toNat len).answer .ok)
  | .invalidate addr len => .next ((s.invalidate addr.toNat len).answer .ok)
  | .sampleIrq => sampleIrq s
  | .wait => hostWait s

/-- The instruction the sequencer runs: the one its `op` and `esel` encode (R60, R144). -/
def runningInstr (s : State) : Option Instr :=
  if s.busy then
    match decodeOp s.seq.op s.seq.esel with
    | .instr i => some i
    | .noAction => none
    | .rejected _ => none
  else none

/-- The engine's turn: the one enabled step of the running command (R146); no step while idle. -/
def engineStep (s : State) : StepResult :=
  match runningInstr s with
  | some i => exec i s
  | none => .next s

/-- The state handed to the agent whose move is taken: its turn, and the move out of the schedule. -/
def State.taking (s : State) (who : Agent) (rest : List Move) : State := { s with turn := who, schedule := rest }

/-- The next move of a run: the schedule's first, or the engine's step if the schedule is empty (R10, R316). -/
def takeMove (s : State) : StepResult :=
  match s.schedule with
  | [] => engineStep (s.taking .engine [])
  | .engine :: rest => engineStep (s.taking .engine rest)
  | .host h :: rest => hostStep h (s.taking .host rest)
  | .reset :: rest => .next (s.taking .host rest).resetAction

/-- The register a word of a format is written to (R110). -/
def formatReg : Format → Reg
  | .cmd32 => .cmd
  | .ctrl32 => .ctrl

/-- The host step that writes an instruction's bytes, one per lane, to its format's register (R82, R83, R110). -/
def instrWrite (p : Config.Platform) (f : Format) (bytes : List Byte) : HostStep :=
  .portWrite (busAddr p (formatReg f)) (bytes.map some)

/-- The host step that writes a word of spec/opcode_table.json on its byte lanes. -/
def tableWrite (p : Config.Platform) (nbits w : Nat) : HostStep :=
  instrWrite p (tableFormat nbits w) (lanesOf (BitVec.ofNat 32 w))

end Sys2Proof.Machine
end

