-- ==== Sys2Proof/Machine/Step.lean ====
section
/-! DEFINITION. One step of the machine: the next move of the run (spec/00_scope.md R10), and where an instruction is placed
for the step to fetch it: the block fetches none from memory (spec/20_memory.md R98), an instruction reaches it as a write to
CMD or CTRL, the next move of the schedule. -/

namespace Sys2Proof.Machine

/-- One step: the move of the agent whose turn it is (R10). -/
def step (s : State) : Host.Outcome State Fault Refusal := takeMove s

/-- `s` with the host's write of a word of spec/opcode_table.json to the register of its format as the next move. -/
def State.withFetchWord (s : State) (nbits w : Nat) : State :=
  { s with schedule := .host (tableWrite s.plat nbits w) :: s.schedule }

end Sys2Proof.Machine
end

