-- ==== Sys2Proof/Safety.lean ====
section
/-! DEFINITION. What counts as a safe state, and the words the claims use: the invariant every step keeps, which bytes a
step leaves alone, which registers a command may not change. -/

namespace Sys2Proof.Machine

/-! ### Words of the claims -/

/-- The instruction of a stream command. -/
def StreamOp.instr : StreamOp → Instr
  | .ecbEnc => .ecbEnc
  | .ecbDec => .ecbDec
  | .cbcEnc => .cbcEnc
  | .cbcDec => .cbcDec

/-- It is the engine's turn, and the sequencer runs the command of `op` and `esel` in this phase (R60, R146). -/
abbrev State.runs (s : State) (op : BitVec 4) (esel : Bool) (phase : Phase) : Prop :=
  s.turn = .engine ∧ s.seq.op = op ∧ s.seq.esel = esel ∧ s.seq.phase = phase

/-- Every byte outside `[a, a+n)` reads in `t` as in `s`. -/
def sameOutside (s t : State) (a n : Nat) : Prop := ∀ y, y < a ∨ a + n ≤ y → t.mem.get y = s.mem.get y

/-- Every byte outside `[a, a+n)` that the host did not write in the running command's destination (R311) reads in `t` as in
`s`. -/
def keepsBytes (s t : State) (a n : Nat) : Prop :=
  s.mem.wf = true → ∀ y, y < a ∨ a + n ≤ y → y ∉ s.racedDst → t.mem.get y = s.mem.get y

/-- What an error of a block step leaves in memory (R210, R213): every byte that is not of an incomplete block keeps its
value, and without ECB_PARALLEL, or for CBC, every byte outside `[a, a+n)` does. -/
structure KeepsDone (c : StreamOp) (s t : State) (a n : Nat) : Prop where
  complete : keepsBytes s t (s.dstAddr.toNat + s.dstLen.toNat) (s.outReq.toNat - s.dstLen.toNat)
  others   : s.plat.ecbParallel = false ∨ c.cbc = true → keepsBytes s t a n

/-- Every byte reads in `t` as in `s`. -/
def sameMemory (s t : State) : Prop := ∀ y, t.mem.get y = s.mem.get y

/-- The registers and windows the host writes and a command reads are in `t` as in `s` (R153), and so are INT_EN and the
platform. -/
structure KeepsOperands (s t : State) : Prop where
  n       : t.n = s.n
  e       : t.e = s.e
  d       : t.d = s.d
  base    : t.base = s.base
  iv      : t.iv = s.iv
  cfg     : t.cfg = s.cfg
  blksz   : t.blksz = s.blksz
  srcAddr : t.srcAddr = s.srcAddr
  srcLen  : t.srcLen = s.srcLen
  dstAddr : t.dstAddr = s.dstAddr
  dstCap  : t.dstCap = s.dstCap
  intEn   : t.intEn = s.intEn
  plat    : t.plat = s.plat

/-- The stream counters and the chaining state are in `t` as in `s` (R44, R46, R48, R180). -/
structure KeepsStream (s t : State) : Prop where
  chain     : t.chain = s.chain
  dstLen    : t.dstLen = s.dstLen
  ebs       : t.ebs = s.ebs
  nblkTotal : t.nblkTotal = s.nblkTotal
  nblkDone  : t.nblkDone = s.nblkDone
  outReq    : t.outReq = s.outReq

/-- The command has ended in error with ERRCODE `code` (R261) and ERRINFO `info`: what `raise Error` leaves (R266). `s` is the
state before the step. -/
structure EndsInError (s t : State) (code : BitVec 8) (info : Word) : Prop where
  seq     : t.seq = { s.seq with phase := .idle, hdr := t.seq.hdr }
  done    : t.status.done = false
  err     : t.status.err = true
  lastOp  : t.status.lastOp = s.status.lastOp
  errCode : t.status.errCode.code = code
  errInfo : t.errInfo = info
  intStat : t.intStat = s.intStat ||| errIs

/-- One of the range checks (a) to (e) of R198 fails, in the words of the rule. -/
def RangeFault (src len dst out cap : Nat) : Prop :=
  2 ^ 32 < src + len ∨ 2 ^ 32 - 1 < out ∨ 2 ^ 32 < dst + out ∨ cap < out ∨
    (0 < len ∧ 0 < out ∧ ∃ a, src ≤ a ∧ a < src + len ∧ dst ≤ a ∧ a < dst + out)

/-- The source bytes the DMA read of block `seq.blk` finds (R85, R200, R201). -/
def State.sourceBytes (s : State) (c : StreamOp) : List Byte := s.dmaBytes s.draws (s.srcBlock c) (s.srcTake c)

/-- The block integer of an encrypting block step: the padded source block, for CBC XORed with the chain value (R205, R207). -/
def State.encInput (s : State) (c : StreamOp) : Nat := beNat (s.chainXor c (padBlock s.ebs.toNat (s.sourceBytes c)))

/-- The DMA read of block `seq.blk` is performed: it stays in the address space and gets no error response (R85). -/
abbrev State.readable (s : State) (c : StreamOp) : Prop :=
  s.srcBlock c + s.srcTake c ≤ Config.addressSpace ∧ busErrIn s.plat false (s.srcBlock c) (s.srcTake c) = false

/-- The DMA write of `n` bytes at the destination of block `seq.blk` is performed (R86). -/
abbrev State.writable (s : State) (c : StreamOp) (n : Nat) : Prop :=
  s.dstBlock c + n ≤ Config.addressSpace ∧ busErrIn s.plat true (s.dstBlock c) n = false

/-- The block count of the running stream command, from the registers; 0 where none runs or its start step refuses it (R197). -/
def State.plannedBlocks (s : State) : Nat :=
  match streamOf s.seq.op with
  | some c =>
    match startPlan c s with
    | some p => p.nb
    | none => 0
  | none => 0

/-- A key that meets the invariants of R30: `N = p*q` for two distinct primes, and `e*d mod (p-1)*(q-1) = 1`. -/
structure ValidKey (n e d : Nat) : Prop where
  factors : ∃ p q, p.Prime ∧ q.Prime ∧ p ≠ q ∧ n = p * q ∧ e * d % ((p - 1) * (q - 1)) = 1

/-- The host owns the bytes of `[a, a+n)`: no running command has them as its destination or wrote them, the host has observed
the end of every command that did (R93(b), R311), and it left no dirty line over them (R97, log 6). -/
def State.hostOwns (s : State) (a n : Nat) : Prop :=
  ∀ x, a ≤ x → x < a + n → inRange s.dstAddr.toNat s.dstSpan x = false ∧ s.notReleased x = false ∧
    (∀ l ∈ s.written ++ writesOf s.unobserved, l.addr ≠ x) ∧ ∀ l ∈ s.stale, l.addr = x → l.dirty = false

/-- The next move is the engine's (R10, R316). -/
def State.engineNext (s : State) : Prop := s.schedule = [] ∨ ∃ rest, s.schedule = .engine :: rest

/-- The next move is a reset: `rst`, or a full-strobe host write to CTRL of a word with SRST set (R149, R300). -/
def State.resetNext (s : State) : Prop :=
  ∃ rest, s.schedule = .reset :: rest ∨
    ∃ w : Word, w.getLsbD 1 = true ∧ s.schedule = .host (.portWrite (busAddr s.plat .ctrl) (fullLanes w)) :: rest

/-- What the reset action leaves (R300, R302): the reset values; of memory only `[DST_ADDR, DST_ADDR + OUT_REQ)` of a running
stream command and the destination bytes the host wrote while it ran (R311) are unspecified, and no byte of its source. `s` is
the state before. -/
structure ResetTo (s t : State) : Prop where
  regs : ∀ r, t.readReg r = ({ State.reset with plat := s.plat } : State).readReg r
  seq  : t.seq = { phase := .idle, op := 0, esel := false, blk := 0, hdr := 0 }
  irq  : t.irq = false
  plat : t.plat = s.plat
  dst  : keepsBytes s t s.dstAddr.toNat s.outReq.toNat
  src  : s.mem.wf = true → ∀ y, s.srcAddr.toNat ≤ y → y < s.srcAddr.toNat + s.srcLen.toNat → t.mem.get y = s.mem.get y
  mem  : s.busy = false ∨ streamOf s.seq.op = none → t.mem = s.mem

/-! ### The invariant -/

/-- Every window holds a value below `2^MAXW`: its words past MAXWORDS (bytes past MAXBS) are 0 (R40, R47). -/
structure WindowsOk (s : State) : Prop where
  n      : s.n.toNat < 2 ^ s.plat.maxW
  e      : s.e.toNat < 2 ^ s.plat.maxW
  d      : s.d.toNat < 2 ^ s.plat.maxW
  base   : s.base.toNat < 2 ^ s.plat.maxW
  result : s.result.toNat < 2 ^ s.plat.maxW
  iv     : s.iv.toNat < 2 ^ s.plat.maxW
  chain  : s.chain.toNat < 2 ^ s.plat.maxW

/-- At most one of BUSY, DONE and ERR is 1; ERRCODE is 0 exactly when the last command has not ended in error; ERRINFO is
NOBLOCK then too; LASTOP is the running command's OP (R37, R49). -/
structure StatusOk (s : State) : Prop where
  done    : s.status.done = true → s.busy = false ∧ s.status.err = false
  err     : s.status.err = true → s.busy = false
  code    : s.status.err = false ↔ s.status.errCode = .none
  info    : s.status.err = false → s.errInfo = Config.noBlock
  lastOp  : s.busy = true → s.status.lastOp = s.seq.op

/-- What holds between two block steps of a stream command (R190 to R210). -/
structure BlocksOk (c : StreamOp) (s : State) : Prop where
  modulus : 1 < s.valN
  nbits   : s.nbits.toNat = bitLen s.valN
  cwidth  : s.cwidth.toNat = ceilDiv (bitLen s.valN) Config.widthDivisor
  bs      : s.ebs.toNat = effectiveBs s
  size    : badBs s.ebs.toNat s.cwidth.toNat = false
  plan    : plan c s.ivhdr s.srcLen.toNat s.ebs.toNat s.cwidth.toNat
              = some { nb := s.nblkTotal.toNat, hdr := s.seq.hdr, out := s.outReq.toNat }
  range   : badRange s.srcAddr.toNat s.srcLen.toNat s.dstAddr.toNat s.outReq.toNat s.dstCap.toNat = false
  blk     : s.seq.blk = s.nblkDone
  le      : s.seq.blk.toNat ≤ s.nblkTotal.toNat
  dstLen  : s.dstLen.toNat = (if c.dec then 0 else s.seq.hdr) + s.seq.blk.toNat * s.outWidth c

/-- The sequencer is in a row of R146's table, and between block steps the counters agree with the plan. -/
structure SeqOk (s : State) : Prop where
  legal   : s.busy = true → ∃ i, decodeOp s.seq.op s.seq.esel = .instr i
  start   : s.seq.phase = .start → s.seq.blk = 0 ∧ s.seq.hdr = 0
  compute : s.seq.phase = .compute → s.seq.op = 1 ∧ 0 < s.valN
  blocks  : s.seq.phase = .blocks → ∃ c : StreamOp, s.seq.op = c.op ∧ BlocksOk c s

/-- The invariant of the machine: it holds at reset and every step keeps it. -/
structure Inv (s : State) : Prop where
  mem     : s.mem.wf = true
  windows : WindowsOk s
  status  : StatusOk s
  seq     : SeqOk s
  raced   : s.busy = false → s.raced = []
  written : s.busy = false → s.written = []

end Sys2Proof.Machine
end

