-- ==== Sys2Proof/Certificates/Slice0/Obligations.lean ====
section
/-! DEFINITION. The statements for the provers, from the numbered rules of spec/. Each docstring names its rules. -/

open Sys2Proof Sys2Proof.Machine

/-! ## Encoding (spec/30_encoding.md) -/

/-- R112, R114, R115: the words of the spec's own tables decode to their instructions, and the reserved, malformed and
misused words I3, I4, I5 of spec/95_test_vectors.md are rejected by name. -/
def Obligations.SpecWordsDecode : Prop :=
  decodeCmd 0x00000000 = .instr .nop ∧ decodeCmd 0x00000001 = .instr .modexpE ∧
  decodeCmd 0x00000011 = .instr .modexpD ∧ decodeCmd 0x00000004 = .instr .ecbEnc ∧
  decodeCmd 0x00000005 = .instr .ecbDec ∧ decodeCmd 0x00000006 = .instr .cbcEnc ∧
  decodeCmd 0x00000007 = .instr .cbcDec ∧ decodeCtrl 0x00000001 = .instr (.ctrlAbort 0) ∧
  decodeCtrl 0x00000002 = .instr (.ctrlSrst false 0) ∧ decodeCtrl 0x00000003 = .instr (.ctrlSrst true 0) ∧
  decodeCtrl 0x00000000 = .noAction ∧ decodeCmd 0x00000002 = .rejected .reservedOp ∧
  decodeCmd 0x00000014 = .rejected .eselNotModexp ∧ decodeCmd 0x00000021 = .rejected .reservedBits

/-- Decoding the bytes of an encoded well-formed instruction gives it back, for every instruction and every value of the
bits a control word ignores. -/
def Obligations.DecodeEncodeAgree : Prop :=
  ∀ i : Instr, i.wellFormed = true → decodeBytes i.format (lanesOf (encode i)) = .instr i

/-- The other direction: a word that decodes to an instruction is that instruction's word, of its format, and the
instruction is well-formed. -/
def Obligations.EncodeDecodeAgree : Prop :=
  ∀ (f : Format) (w : Word) (i : Instr), decode f w = .instr i →
    i.format = f ∧ i.wellFormed = true ∧ encode i = w

/-- R114, R115: each of the `2^32` command words is one of the seven legal encodings or illegal. A control word is never
illegal: SRST wins over ABORT, bits [31:2] are ignored, and a word with both action bits 0 does nothing. -/
def Obligations.DecodeIsTotal : Prop :=
  ∀ w : Word,
    ((∃ i, decodeCmd w = .instr i) ↔ w ∈ [0x00000000, 0x00000001, 0x00000011, 0x00000004, 0x00000005, 0x00000006, 0x00000007]) ∧
    ((∃ i, decodeCmd w = .instr i) ∨ ∃ r, decodeCmd w = .rejected r) ∧
    (w.getLsbD 1 = true → ∃ abort reserved, decodeCtrl w = .instr (.ctrlSrst abort reserved)) ∧
    (w.getLsbD 1 = false → w.getLsbD 0 = true → ∃ reserved, decodeCtrl w = .instr (.ctrlAbort reserved)) ∧
    (w.getLsbD 1 = false → w.getLsbD 0 = false → decodeCtrl w = .noAction)

/-! ## How a step runs an instruction (spec/40_command_interface.md R141 to R146) -/

/-- A host write whose word decodes to an instruction runs it: the step is `exec` of the instruction on the state with the
move taken, the host's turn, and the bus having accepted the write. R141: a full-strobe write of any word to any mapped register
is that register's write, `writeCmd` at CMD and `writeCtrl` at CTRL, where a word with both action bits 0 does nothing (R115). Any
other host step runs on the state with the move taken. -/
def Obligations.StepRunsWrittenInstruction : Prop :=
  (∀ (s : State) (rest : List Move) (f : Format) (w : Word) (i : Instr), decode f w = .instr i →
    s.schedule = .host (.portWrite (busAddr s.plat (formatReg f)) (fullLanes w)) :: rest →
    step s = exec i { s with turn := .host, schedule := rest, resp := .ok }) ∧
  (∀ (s : State) (rest : List Move) (r : Reg) (w : Word), (∀ v k, r = .word v k → k < 256) →
    s.schedule = .host (.portWrite (busAddr s.plat r) (fullLanes w)) :: rest →
    step s = writeReg { s with turn := .host, schedule := rest, resp := .ok } r w) ∧
  (∀ (s : State) (w : Word), writeReg s .cmd w = writeCmd s w ∧ writeReg s .ctrl w = writeCtrl s w ∧
    (∀ i, decodeCmd w = .instr i → writeCmd s w = exec i s) ∧ (∀ i, decodeCtrl w = .instr i → writeCtrl s w = exec i s) ∧
    (w.getLsbD 1 = false → w.getLsbD 0 = false → writeCtrl s w = .next s)) ∧
  (∀ (s : State) (rest : List Move) (h : HostStep), s.schedule = .host h :: rest →
    step s = hostStep h { s with turn := .host, schedule := rest }) ∧
  (∀ (s : State) (addr : Word) (bytes : Nat), hostStep (.portRead addr bytes) s = portRead s addr bytes) ∧
  (∀ (s : State) (addr : Word) (lanes : List (Option Byte)), hostStep (.portWrite addr lanes) s = portWrite s addr lanes)

/-- R146: on the engine's move the step is the running command's, and while idle the engine has no step. -/
def Obligations.StepRunsEngine : Prop :=
  ∀ (s : State) (rest : List Move), (s.schedule = .engine :: rest ∨ (s.schedule = [] ∧ rest = [])) →
    (∀ i, s.busy = true → decodeOp s.seq.op s.seq.esel = .instr i →
      step s = exec i { s with turn := .engine, schedule := rest }) ∧
    (s.busy = false → step s = .next { s with turn := .engine, schedule := rest })

/-- R144: what acceptance writes, for every command, and that nothing else of the block changes (`unseen` and `oldInt` are
the model's own, and their values its choice, log 6: which writes the command may not see, and which INT_STAT bits are older than
it). -/
def Obligations.CommandAcceptance : Prop :=
  ∀ (i : Instr) (s : State), i.format = .cmd32 → s.turn = .host → s.busy = false →
    exec i s = .next { s with
      seq := { phase := .start, op := opField (encode i), esel := eselField (encode i), blk := 0, hdr := 0 }
      status := { done := false, err := false, lastOp := opField (encode i), errCode := .none }
      errInfo := 0xFFFFFFFF
      unseen := s.unseenAtCmd
      oldInt := s.intStat }

/-- R143: a CMD write while busy is ignored, whatever the word; only WIGN_IS records it. -/
def Obligations.BusyCommandIgnored : Prop :=
  ∀ (s : State) (v : Word), s.turn = .host → s.busy = true →
    writeCmd s v = .next { s with intStat := s.intStat ||| 0b100 }

/-- R145: an illegal command word while idle ends at once in ILLEGAL_CMD; no operand, counter, window or memory byte
changes. -/
def Obligations.IllegalCommand : Prop :=
  ∀ (s : State) (v : Word) (r : Reject), s.busy = false → decodeCmd v = .rejected r →
    ∃ t, writeCmd s v = .next t ∧
      t.status.done = false ∧ t.status.err = true ∧ t.status.lastOp = opField v ∧ t.status.errCode.code = 0x01 ∧
      t.errInfo = 0xFFFFFFFF ∧ t.intStat = s.intStat ||| 0b010 ∧ t.seq = s.seq ∧
      KeepsOperands s t ∧ KeepsStream s t ∧ t.result = s.result ∧ t.nbits = s.nbits ∧ t.cwidth = s.cwidth ∧ t.mem = s.mem

/-! ## NOP, MODEXP (spec/40_command_interface.md R147, R150; spec/41_modexp.md) -/

/-- R147, R150: NOP's start step completes the command and changes no operand, counter, window or memory byte. -/
def Obligations.NopCompletes : Prop :=
  ∀ s : State, s.runs 0 false .start →
    ∃ t, exec .nop s = .next t ∧ t.seq = { s.seq with phase := .idle } ∧ t.status = { s.status with done := true } ∧
      t.intStat = s.intStat ||| 0b001 ∧ t.errInfo = s.errInfo ∧ t.result = s.result ∧ t.nbits = s.nbits ∧
      t.cwidth = s.cwidth ∧ t.mem = s.mem ∧ KeepsOperands s t ∧ KeepsStream s t

/-- R170: `modexp` is exact integer exponentiation, `b^0 = 1` (so `0^0 = 1`). -/
def Obligations.ModexpIsPower : Prop := ∀ b x n : Nat, modexp b x n = b ^ x % n

/-- R171, R172: MODEXP's start step with a modulus above 0 writes NBITS and CWIDTH, goes on to COMPUTE, and changes nothing
else, for both exponents. -/
def Obligations.ModexpStartStep : Prop :=
  ∀ (s : State) (esel : Bool), s.runs 1 esel .start → 0 < s.valN →
    exec (if esel then .modexpD else .modexpE) s = .next { s with
      nbits := BitVec.ofNat 32 (bitLen s.valN)
      cwidth := BitVec.ofNat 32 ((bitLen s.valN + 7) / 8)
      seq := { s.seq with phase := .compute } }

/-- R173: MODEXP with modulus 0 ends in DOMAIN; RESULT is unchanged, NBITS and CWIDTH are 0. -/
def Obligations.ModexpDomain : Prop :=
  ∀ (s : State) (esel : Bool), s.runs 1 esel .start → s.valN = 0 →
    ∃ t, exec (if esel then .modexpD else .modexpE) s = .next t ∧ EndsInError s t 0x02 0xFFFFFFFF ∧ t.seq.hdr = s.seq.hdr ∧
      t.result = s.result ∧ t.nbits = 0 ∧ t.cwidth = 0 ∧ t.mem = s.mem ∧ KeepsOperands s t ∧ KeepsStream s t

/-- R172, R180: MODEXP.E's compute step writes `RESULT = BASE^E mod N`, completes the command, and changes nothing else. -/
def Obligations.ModexpEResult : Prop :=
  ∀ s : State, s.runs 1 false .compute → 0 < s.valN →
    ∃ t, exec .modexpE s = .next t ∧ t.result.toNat = s.valBase ^ s.valE % s.valN ∧
      t.seq = { s.seq with phase := .idle } ∧ t.status = { s.status with done := true } ∧
      t.intStat = s.intStat ||| 0b001 ∧ t.errInfo = s.errInfo ∧ t.nbits = s.nbits ∧ t.cwidth = s.cwidth ∧
      t.mem = s.mem ∧ KeepsOperands s t ∧ KeepsStream s t

/-- R172, R180: MODEXP.D's compute step writes `RESULT = BASE^D mod N`, completes the command, and changes nothing else. -/
def Obligations.ModexpDResult : Prop :=
  ∀ s : State, s.runs 1 true .compute → 0 < s.valN →
    ∃ t, exec .modexpD s = .next t ∧ t.result.toNat = s.valBase ^ s.valD % s.valN ∧
      t.seq = { s.seq with phase := .idle } ∧ t.status = { s.status with done := true } ∧
      t.intStat = s.intStat ||| 0b001 ∧ t.errInfo = s.errInfo ∧ t.nbits = s.nbits ∧ t.cwidth = s.cwidth ∧
      t.mem = s.mem ∧ KeepsOperands s t ∧ KeepsStream s t

/-- R179: for a key that meets the invariants of R30, decryption after encryption gives every `m < n` back. -/
def Obligations.RsaInverseLaw : Prop :=
  ∀ n e d m : Nat, ValidKey n e d → m < n → modexp (modexp m e n) d n = m

/-! ## ABORT, SRST, reset (spec/40_command_interface.md R148, R149; spec/70_reset_and_hazards.md R300, R302) -/

/-- R148: ABORT while idle has no effect; while busy it ends the command in ABORTED; RESULT, CHAIN and the counters keep their
values, and of memory only the bytes `[DST_ADDR + DST_LEN, DST_ADDR + OUT_REQ)` of a stream command are unspecified (given that
the host wrote no byte while the command ran, R311). -/
def Obligations.Abort : Prop :=
  ∀ (s : State) (reserved : Nat),
    (s.busy = false → exec (.ctrlAbort reserved) s = .next s) ∧
    (s.busy = true → ∃ t, exec (.ctrlAbort reserved) s = .next t ∧ EndsInError s t 0x0A 0xFFFFFFFF ∧ t.seq.hdr = s.seq.hdr ∧
      t.result = s.result ∧ t.nbits = s.nbits ∧ t.cwidth = s.cwidth ∧ KeepsOperands s t ∧ KeepsStream s t ∧
      (s.mem.wf = true → s.raced = [] →
        sameOutside s t (s.dstAddr.toNat + s.dstLen.toNat) (s.outReq.toNat - s.dstLen.toNat)) ∧
      (streamOf s.seq.op = none → t.mem = s.mem))

/-- R301: the value every register and window word reads after reset, for every value of the platform's parameters, and the
reset values of `seq` and of the line. -/
def Obligations.ResetRegisters : Prop :=
  (∀ (p : Config.Platform) (r : Reg),
    ({ State.reset with plat := p } : State).readReg r =
      match r with
      | .id => 0x4D455850
      | .param => 0x00010000 ||| BitVec.ofNat 32 (p.maxW / 32)
      | .errInfo => 0xFFFFFFFF
      | _ => 0) ∧
  State.reset.seq = { phase := .idle, op := 0, esel := false, blk := 0, hdr := 0 } ∧ State.reset.irq = false

/-- R149, R300, R302: SRST, with or without ABORT, and `rst` leave every register and `seq` at its reset value, busy or not. Of
memory only the destination bytes of a running stream command are unspecified, no source byte changes, and while idle, or while
NOP or MODEXP runs, no byte does (`ResetTo`). That a source byte survives even where the destination range, not yet checked,
covers it is the model's reading of R302 (log 11). -/
def Obligations.SoftReset : Prop :=
  ∀ s : State,
    (∀ (abort : Bool) (reserved : Nat), ∃ t, exec (.ctrlSrst abort reserved) s = .next t ∧ ResetTo s t) ∧
    (∀ rest : List Move, s.schedule = .reset :: rest → ∃ t, step s = .next t ∧ ResetTo s t ∧ t.schedule = rest)

/-! ## The start step of a stream command (spec/42_mode_controller.md R190 to R204) -/

/-- R197: block count, header bytes and output length of the four stream commands, and where the ciphertext does not split
into whole blocks. -/
def Obligations.BlockPlan : Prop :=
  ∀ (ivhdr : Bool) (len bs cw : Nat),
    plan .ecbEnc ivhdr len bs cw = some { nb := (len + bs - 1) / bs, hdr := 0, out := (len + bs - 1) / bs * cw } ∧
    plan .cbcEnc ivhdr len bs cw = some
      { nb := (len + bs - 1) / bs, hdr := if ivhdr then bs else 0
        out := (if ivhdr then bs else 0) + (len + bs - 1) / bs * cw } ∧
    plan .ecbDec ivhdr len bs cw = (if len % cw ≠ 0 then none else some { nb := len / cw, hdr := 0, out := len / cw * bs }) ∧
    plan .cbcDec ivhdr len bs cw =
      (if len < (if ivhdr then bs else 0) ∨ (len - if ivhdr then bs else 0) % cw ≠ 0 then none
       else some { nb := (len - if ivhdr then bs else 0) / cw, hdr := if ivhdr then bs else 0
                   out := (len - if ivhdr then bs else 0) / cw * bs })

/-- R198: the range checks, in the words of the rule. -/
def Obligations.RangeChecks : Prop :=
  ∀ src len dst out cap : Nat,
    badRange src len dst out cap = true ↔ RangeFault src len dst out cap

/-- R190: the start step of a stream command that no check fails goes on to BLOCKS with the widths, block size, counters and
header written; the command's operands, STATUS, ERRINFO, INT_STAT and every byte outside the destination keep their values,
and for ECB so do CHAIN and, without ECB_PARALLEL, all of memory. -/
def Obligations.StreamStartSucceeds : Prop :=
  ∀ (c : StreamOp) (s : State) (p : Plan) (bs cw : Nat), s.runs c.op false .start → 1 < s.valN →
    bs = (if s.bssel then s.blksz.toNat else bitLen s.valN / 16) → cw = (bitLen s.valN + 7) / 8 →
    0 < bs → bs ≤ cw → plan c s.ivhdr s.srcLen.toNat bs cw = some p →
    badRange s.srcAddr.toNat s.srcLen.toNat s.dstAddr.toNat p.out s.dstCap.toNat = false →
    (c = .cbcEnc → s.ivhdr = true → busErrIn s.plat true s.dstAddr.toNat bs = false) →
    (c = .cbcDec → s.ivhdr = true → busErrIn s.plat false s.srcAddr.toNat bs = false) →
    ∃ t, exec c.instr s = .next t ∧ t.seq = { s.seq with phase := .blocks, blk := 0, hdr := p.hdr } ∧
      t.nbits.toNat = bitLen s.valN ∧ t.cwidth.toNat = cw ∧ t.ebs.toNat = bs ∧ t.nblkTotal.toNat = p.nb ∧
      t.outReq.toNat = p.out ∧ t.nblkDone = 0 ∧ t.dstLen.toNat = (if c = .cbcEnc then p.hdr else 0) ∧
      t.status = s.status ∧ t.errInfo = s.errInfo ∧ t.intStat = s.intStat ∧ t.result = s.result ∧ KeepsOperands s t ∧
      (s.mem.wf = true → sameOutside s t s.dstAddr.toNat p.out) ∧
      (c.cbc = false → t.chain = s.chain ∧ (s.plat.ecbParallel = false → t.mem = s.mem))

/-- R204 for CBC_ENC: the start step clears CHAIN, loads `bs` bytes of IV into it, and with IVHDR writes them at DST_ADDR and
nothing else. -/
def Obligations.CbcEncStart : Prop :=
  ∀ (s t : State), s.runs 6 false .start → s.mem.wf = true → exec .cbcEnc s = .next t → t.seq.phase = .blocks →
    winBytes t.chain t.ebs.toNat = winBytes s.iv t.ebs.toNat ∧
    (∀ j, t.ebs.toNat ≤ j → j < 1024 → getByte t.chain j = 0) ∧
    (s.ivhdr = true → t.mem.getBytes s.dstAddr.toNat t.ebs.toNat = winBytes s.iv t.ebs.toNat ∧ t.dstLen = t.ebs ∧
      sameOutside s t s.dstAddr.toNat t.ebs.toNat) ∧
    (s.ivhdr = false → t.mem = s.mem ∧ t.dstLen = 0)

/-- R204 for CBC_DEC: the start step clears CHAIN and loads the chain value from the source's IV header with IVHDR, else from
the IV window; memory is unchanged. -/
def Obligations.CbcDecStart : Prop :=
  ∀ (s t : State), s.runs 7 false .start → exec .cbcDec s = .next t → t.seq.phase = .blocks →
    winBytes t.chain t.ebs.toNat =
      (if s.ivhdr then s.dmaBytes s.draws s.srcAddr.toNat t.ebs.toNat else winBytes s.iv t.ebs.toNat) ∧
    (∀ j, t.ebs.toNat ≤ j → j < 1024 → getByte t.chain j = 0) ∧ t.mem = s.mem ∧ t.dstLen = 0

/-- R192, R199: a stream command with modulus 0 or 1 ends in ENC_MODULUS with NOBLOCK, the widths written and the counters
cleared; EBS, CHAIN, OUT_REQ and memory are unchanged. -/
def Obligations.ModulusCheck : Prop :=
  ∀ (c : StreamOp) (s : State), s.runs c.op false .start → s.valN ≤ 1 →
    ∃ t, exec c.instr s = .next t ∧ EndsInError s t 0x03 0xFFFFFFFF ∧ t.seq.hdr = s.seq.hdr ∧
      t.nbits.toNat = bitLen s.valN ∧ t.cwidth.toNat = (bitLen s.valN + 7) / 8 ∧ t.nblkDone = 0 ∧ t.dstLen = 0 ∧
      t.ebs = s.ebs ∧ t.chain = s.chain ∧ t.nblkTotal = s.nblkTotal ∧ t.outReq = s.outReq ∧ t.result = s.result ∧
      t.mem = s.mem ∧ KeepsOperands s t

/-- R193, R194: a block size of 0 or above the cipher width ends in CFG_BLKSZ; EBS shows it, and no memory is accessed. -/
def Obligations.BlockSizeCheck : Prop :=
  ∀ (c : StreamOp) (s : State) (bs : Nat), s.runs c.op false .start → 1 < s.valN →
    bs = (if s.bssel then s.blksz.toNat else bitLen s.valN / 16) → bs = 0 ∨ (bitLen s.valN + 7) / 8 < bs →
    ∃ t, exec c.instr s = .next t ∧ EndsInError s t 0x08 0xFFFFFFFF ∧ t.seq.hdr = s.seq.hdr ∧ t.ebs.toNat = bs ∧
      t.nbits.toNat = bitLen s.valN ∧ t.cwidth.toNat = (bitLen s.valN + 7) / 8 ∧ t.nblkDone = 0 ∧ t.dstLen = 0 ∧
      t.chain = s.chain ∧ t.nblkTotal = s.nblkTotal ∧ t.outReq = s.outReq ∧ t.result = s.result ∧ t.mem = s.mem ∧
      KeepsOperands s t

/-- R197: a ciphertext that does not split into whole blocks ends in ENC_WIDTH; NBLK_TOTAL, OUT_REQ and `seq.hdr` are left
unchanged, and no memory is accessed. -/
def Obligations.WidthCheck : Prop :=
  ∀ (c : StreamOp) (s : State) (bs cw : Nat), s.runs c.op false .start → 1 < s.valN →
    bs = (if s.bssel then s.blksz.toNat else bitLen s.valN / 16) → cw = (bitLen s.valN + 7) / 8 →
    0 < bs → bs ≤ cw → plan c s.ivhdr s.srcLen.toNat bs cw = none →
    ∃ t, exec c.instr s = .next t ∧ EndsInError s t 0x06 0xFFFFFFFF ∧ t.seq.hdr = s.seq.hdr ∧ t.ebs.toNat = bs ∧
      t.cwidth.toNat = cw ∧ t.nblkDone = 0 ∧ t.dstLen = 0 ∧ t.nblkTotal = s.nblkTotal ∧ t.outReq = s.outReq ∧
      t.chain = s.chain ∧ t.result = s.result ∧ t.mem = s.mem ∧ KeepsOperands s t

/-- R198: a range check that fails ends in CFG_RANGE with NBLK_TOTAL and the saturated OUT_REQ written, before any memory
access. -/
def Obligations.RangeCheck : Prop :=
  ∀ (c : StreamOp) (s : State) (p : Plan) (bs cw : Nat), s.runs c.op false .start → 1 < s.valN →
    bs = (if s.bssel then s.blksz.toNat else bitLen s.valN / 16) → cw = (bitLen s.valN + 7) / 8 →
    0 < bs → bs ≤ cw → plan c s.ivhdr s.srcLen.toNat bs cw = some p →
    RangeFault s.srcAddr.toNat s.srcLen.toNat s.dstAddr.toNat p.out s.dstCap.toNat →
    ∃ t, exec c.instr s = .next t ∧ EndsInError s t 0x09 0xFFFFFFFF ∧ t.seq.hdr = p.hdr ∧ t.ebs.toNat = bs ∧
      t.cwidth.toNat = cw ∧ t.nblkDone = 0 ∧ t.dstLen = 0 ∧ t.nblkTotal.toNat = p.nb ∧
      t.outReq.toNat = min p.out 0xFFFFFFFF ∧ t.chain = s.chain ∧ t.result = s.result ∧ t.mem = s.mem ∧ KeepsOperands s t

/-- R204, R261: a bus error on the IV header ends the command in BUS_ERROR with NOBLOCK. For CBC_ENC, CHAIN holds the IV,
DST_LEN is 0 and only the header's bytes are unspecified; for CBC_DEC, CHAIN is clear and memory unchanged. -/
def Obligations.HeaderBusError : Prop :=
  (∀ (s : State) (p : Plan) (bs cw : Nat), s.runs 6 false .start → 1 < s.valN → s.raced = [] → s.mem.wf = true →
    bs = (if s.bssel then s.blksz.toNat else bitLen s.valN / 16) → cw = (bitLen s.valN + 7) / 8 →
    0 < bs → bs ≤ cw → plan .cbcEnc s.ivhdr s.srcLen.toNat bs cw = some p →
    badRange s.srcAddr.toNat s.srcLen.toNat s.dstAddr.toNat p.out s.dstCap.toNat = false →
    s.ivhdr = true → busErrIn s.plat true s.dstAddr.toNat bs = true →
    ∃ t, exec .cbcEnc s = .next t ∧ EndsInError s t 0x0B 0xFFFFFFFF ∧ t.seq.hdr = p.hdr ∧ t.dstLen = 0 ∧
      winBytes t.chain bs = winBytes s.iv bs ∧ sameOutside s t s.dstAddr.toNat bs ∧ KeepsOperands s t) ∧
  (∀ (s : State) (p : Plan) (bs cw : Nat), s.runs 7 false .start → 1 < s.valN → s.raced = [] →
    bs = (if s.bssel then s.blksz.toNat else bitLen s.valN / 16) → cw = (bitLen s.valN + 7) / 8 →
    0 < bs → bs ≤ cw → plan .cbcDec s.ivhdr s.srcLen.toNat bs cw = some p →
    badRange s.srcAddr.toNat s.srcLen.toNat s.dstAddr.toNat p.out s.dstCap.toNat = false →
    s.ivhdr = true → busErrIn s.plat false s.srcAddr.toNat bs = true →
    ∃ t, exec .cbcDec s = .next t ∧ EndsInError s t 0x0B 0xFFFFFFFF ∧ t.seq.hdr = p.hdr ∧ t.dstLen = 0 ∧ t.chain = 0 ∧
      t.mem = s.mem ∧ KeepsOperands s t)

/-! ## The block steps (spec/42_mode_controller.md R200 to R213) -/

/-- R200, R205: ECB_ENC's block step reads the block's source bytes at `SRC_ADDR + i*bs`, writes `BE_CW(m^E mod N)` at
`DST_ADDR + i*CW` and counts the block. With ECB_PARALLEL the destination bytes of the later blocks are unspecified (R213); every
other byte of memory is unchanged. -/
def Obligations.EcbEncBlock : Prop :=
  ∀ s : State, s.runs 4 false .blocks → s.mem.wf = true → BlocksOk .ecbEnc s → s.seq.blk < s.nblkTotal →
    busErrIn s.plat false (s.srcBlock .ecbEnc) (s.srcTake .ecbEnc) = false →
    busErrIn s.plat true (s.dstBlock .ecbEnc) s.cwidth.toNat = false → s.encInput .ecbEnc < s.valN →
    s.srcBlock .ecbEnc = s.srcAddr.toNat + s.seq.blk.toNat * s.ebs.toNat ∧
    s.srcTake .ecbEnc = min s.ebs.toNat (s.srcLen.toNat - s.seq.blk.toNat * s.ebs.toNat) ∧
    ∃ t, exec .ecbEnc s = .next t ∧
      s.dstBlock .ecbEnc = s.dstAddr.toNat + s.seq.blk.toNat * s.cwidth.toNat + s.seq.hdr ∧ s.seq.hdr = 0 ∧
      t.mem.getBytes (s.dstBlock .ecbEnc) s.cwidth.toNat
        = beBytes s.cwidth.toNat (s.encInput .ecbEnc ^ s.valE % s.valN) ∧
      sameOutside s t (s.dstBlock .ecbEnc) (if s.plat.ecbParallel then s.outReq.toNat - s.dstLen.toNat else s.cwidth.toNat) ∧
      t.dstLen = s.dstLen + s.cwidth ∧ t.nblkDone = s.nblkDone + 1 ∧ t.seq = { s.seq with blk := s.seq.blk + 1 } ∧
      t.chain = s.chain ∧ t.status = s.status ∧ t.errInfo = s.errInfo ∧ t.intStat = s.intStat ∧ t.result = s.result ∧
      t.nbits = s.nbits ∧ t.cwidth = s.cwidth ∧ t.ebs = s.ebs ∧ t.nblkTotal = s.nblkTotal ∧ t.outReq = s.outReq ∧
      KeepsOperands s t

/-- R201, R206: ECB_DEC's block step reads the cipher block at `SRC_ADDR + hdr + i*CW` (here `hdr` is 0, R197), writes
`BE_bs(c^D mod N)` at `DST_ADDR + i*bs` and counts the block. -/
def Obligations.EcbDecBlock : Prop :=
  ∀ s : State, s.runs 5 false .blocks → s.mem.wf = true → BlocksOk .ecbDec s → s.seq.blk < s.nblkTotal →
    busErrIn s.plat false (s.srcBlock .ecbDec) (s.srcTake .ecbDec) = false →
    busErrIn s.plat true (s.dstBlock .ecbDec) s.ebs.toNat = false →
    beNat (s.sourceBytes .ecbDec) < s.valN →
    beNat (s.sourceBytes .ecbDec) ^ s.valD % s.valN < 256 ^ s.ebs.toNat →
    s.srcBlock .ecbDec = s.srcAddr.toNat + s.seq.hdr + s.seq.blk.toNat * s.cwidth.toNat ∧
    s.srcTake .ecbDec = s.cwidth.toNat ∧
    ∃ t, exec .ecbDec s = .next t ∧ s.dstBlock .ecbDec = s.dstAddr.toNat + s.seq.blk.toNat * s.ebs.toNat ∧
      t.mem.getBytes (s.dstBlock .ecbDec) s.ebs.toNat
        = beBytes s.ebs.toNat (beNat (s.sourceBytes .ecbDec) ^ s.valD % s.valN) ∧
      sameOutside s t (s.dstBlock .ecbDec) (if s.plat.ecbParallel then s.outReq.toNat - s.dstLen.toNat else s.ebs.toNat) ∧
      t.dstLen = s.dstLen + s.ebs ∧ t.nblkDone = s.nblkDone + 1 ∧ t.seq = { s.seq with blk := s.seq.blk + 1 } ∧
      t.chain = s.chain ∧ t.status = s.status ∧ t.errInfo = s.errInfo ∧ t.intStat = s.intStat ∧ t.result = s.result ∧
      t.nbits = s.nbits ∧ t.cwidth = s.cwidth ∧ t.ebs = s.ebs ∧ t.nblkTotal = s.nblkTotal ∧ t.outReq = s.outReq ∧
      KeepsOperands s t

/-- R200, R203, R207: CBC_ENC's block step reads the block's source bytes at `SRC_ADDR + i*bs`, encrypts the XOR of the padded
block and the chain value, writes the cipher block at `DST_ADDR + hdr + i*CW`, and sets the chain value to its low `bs` bytes;
nothing else of memory changes. -/
def Obligations.CbcEncBlock : Prop :=
  ∀ s : State, s.runs 6 false .blocks → s.mem.wf = true → BlocksOk .cbcEnc s → s.seq.blk < s.nblkTotal →
    busErrIn s.plat false (s.srcBlock .cbcEnc) (s.srcTake .cbcEnc) = false →
    busErrIn s.plat true (s.dstBlock .cbcEnc) s.cwidth.toNat = false →
    beNat (xorBytes (padBlock s.ebs.toNat (s.sourceBytes .cbcEnc)) (winBytes s.chain s.ebs.toNat)) < s.valN →
    s.srcBlock .cbcEnc = s.srcAddr.toNat + s.seq.blk.toNat * s.ebs.toNat ∧
    s.srcTake .cbcEnc = min s.ebs.toNat (s.srcLen.toNat - s.seq.blk.toNat * s.ebs.toNat) ∧
    ∃ t cb, exec .cbcEnc s = .next t ∧
      cb = beBytes s.cwidth.toNat
        (beNat (xorBytes (padBlock s.ebs.toNat (s.sourceBytes .cbcEnc)) (winBytes s.chain s.ebs.toNat)) ^ s.valE % s.valN) ∧
      s.dstBlock .cbcEnc = s.dstAddr.toNat + s.seq.hdr + s.seq.blk.toNat * s.cwidth.toNat ∧
      t.mem.getBytes (s.dstBlock .cbcEnc) s.cwidth.toNat = cb ∧
      sameOutside s t (s.dstBlock .cbcEnc) s.cwidth.toNat ∧
      winBytes t.chain s.ebs.toNat = lowBytes s.ebs.toNat cb ∧
      (∀ j, s.ebs.toNat ≤ j → j < 1024 → getByte t.chain j = getByte s.chain j) ∧
      t.dstLen = s.dstLen + s.cwidth ∧ t.nblkDone = s.nblkDone + 1 ∧ t.seq = { s.seq with blk := s.seq.blk + 1 } ∧
      t.status = s.status ∧ t.errInfo = s.errInfo ∧ t.intStat = s.intStat ∧ t.result = s.result ∧ t.nbits = s.nbits ∧
      t.cwidth = s.cwidth ∧ t.ebs = s.ebs ∧ t.nblkTotal = s.nblkTotal ∧ t.outReq = s.outReq ∧ KeepsOperands s t

/-- R201, R203, R208: CBC_DEC's block step reads the cipher block at `SRC_ADDR + hdr + i*CW`, writes the XOR of the decrypted
block and the chain value at `DST_ADDR + i*bs`, and sets the chain value to the low `bs` bytes of the consumed cipher block;
nothing else of memory changes. -/
def Obligations.CbcDecBlock : Prop :=
  ∀ s : State, s.runs 7 false .blocks → s.mem.wf = true → BlocksOk .cbcDec s → s.seq.blk < s.nblkTotal →
    busErrIn s.plat false (s.srcBlock .cbcDec) (s.srcTake .cbcDec) = false →
    busErrIn s.plat true (s.dstBlock .cbcDec) s.ebs.toNat = false →
    beNat (s.sourceBytes .cbcDec) < s.valN →
    beNat (s.sourceBytes .cbcDec) ^ s.valD % s.valN < 256 ^ s.ebs.toNat →
    s.srcBlock .cbcDec = s.srcAddr.toNat + s.seq.hdr + s.seq.blk.toNat * s.cwidth.toNat ∧
    s.srcTake .cbcDec = s.cwidth.toNat ∧
    ∃ t, exec .cbcDec s = .next t ∧ s.dstBlock .cbcDec = s.dstAddr.toNat + s.seq.blk.toNat * s.ebs.toNat ∧
      t.mem.getBytes (s.dstBlock .cbcDec) s.ebs.toNat
        = xorBytes (beBytes s.ebs.toNat (beNat (s.sourceBytes .cbcDec) ^ s.valD % s.valN)) (winBytes s.chain s.ebs.toNat) ∧
      sameOutside s t (s.dstBlock .cbcDec) s.ebs.toNat ∧
      winBytes t.chain s.ebs.toNat = lowBytes s.ebs.toNat (s.sourceBytes .cbcDec) ∧
      (∀ j, s.ebs.toNat ≤ j → j < 1024 → getByte t.chain j = getByte s.chain j) ∧
      t.dstLen = s.dstLen + s.ebs ∧ t.nblkDone = s.nblkDone + 1 ∧ t.seq = { s.seq with blk := s.seq.blk + 1 } ∧
      t.status = s.status ∧ t.errInfo = s.errInfo ∧ t.intStat = s.intStat ∧ t.result = s.result ∧ t.nbits = s.nbits ∧
      t.cwidth = s.cwidth ∧ t.ebs = s.ebs ∧ t.nblkTotal = s.nblkTotal ∧ t.outReq = s.outReq ∧ KeepsOperands s t

/-- R205, R207, R210: a block value at or above the modulus ends ECB_ENC and CBC_ENC in ENC_RANGE with the block's index; the
counters and CHAIN keep their values, the completed blocks keep their bytes, and without ECB_PARALLEL no byte of memory changes,
but for bytes the host wrote in the destination while the command ran (`KeepsDone`). -/
def Obligations.EncRangeError : Prop :=
  ∀ (c : StreamOp) (s : State), c.dec = false → s.runs c.op false .blocks → BlocksOk c s → s.seq.blk < s.nblkTotal →
    busErrIn s.plat false (s.srcBlock c) (s.srcTake c) = false → s.valN ≤ s.encInput c →
    ∃ t, exec c.instr s = .next t ∧ EndsInError s t 0x04 s.seq.blk ∧ t.seq.hdr = s.seq.hdr ∧ KeepsOperands s t ∧ KeepsStream s t ∧
      t.nblkDone = s.seq.blk ∧ t.result = s.result ∧ KeepsDone c s t 0 0 ∧
      (s.raced = [] → s.plat.ecbParallel = false ∨ c.cbc = true → t.mem = s.mem)

/-- R206, R208, R210: a cipher value at or above the modulus ends ECB_DEC and CBC_DEC in ENC_CRANGE, and a decrypted value of
more than `bs` bytes in ENC_OVERFLOW, each with the block's index and nothing written. The completed
blocks keep their bytes (`KeepsDone`). R86: a bus error on the write of a
decrypted block ends the command in BUS_ERROR with the block's index; CHAIN and the counters are those before the block, and
without ECB_PARALLEL only the block's own destination bytes are unspecified. -/
def Obligations.DecErrors : Prop :=
  ∀ (c : StreamOp) (s : State), c.dec = true → s.runs c.op false .blocks → BlocksOk c s → s.seq.blk < s.nblkTotal →
    busErrIn s.plat false (s.srcBlock c) (s.srcTake c) = false →
    ((s.valN ≤ beNat (s.sourceBytes c) ∨
        256 ^ s.ebs.toNat ≤ beNat (s.sourceBytes c) ^ s.valD % s.valN) →
      ∃ t, exec c.instr s = .next t ∧
        EndsInError s t (if s.valN ≤ beNat (s.sourceBytes c) then 0x05 else 0x07) s.seq.blk ∧ t.seq.hdr = s.seq.hdr ∧
        KeepsOperands s t ∧ KeepsStream s t ∧ t.nblkDone = s.seq.blk ∧ t.result = s.result ∧ KeepsDone c s t 0 0 ∧
        (s.raced = [] → s.plat.ecbParallel = false ∨ c.cbc = true → t.mem = s.mem)) ∧
    (s.mem.wf = true → beNat (s.sourceBytes c) < s.valN →
      beNat (s.sourceBytes c) ^ s.valD % s.valN < 256 ^ s.ebs.toNat →
      busErrIn s.plat true (s.dstBlock c) s.ebs.toNat = true →
      ∃ t, exec c.instr s = .next t ∧ EndsInError s t 0x0B s.seq.blk ∧ t.seq.hdr = s.seq.hdr ∧ KeepsOperands s t ∧ KeepsStream s t ∧
        t.nblkDone = s.seq.blk ∧ t.result = s.result ∧ KeepsDone c s t (s.dstBlock c) s.ebs.toNat ∧
        (s.raced = [] → s.plat.ecbParallel = false ∨ c.cbc = true → sameOutside s t (s.dstBlock c) s.ebs.toNat))

/-- R85, R210: a bus error on a block's read ends the command in BUS_ERROR with the block's index, before any other check.
The completed blocks keep their bytes (`KeepsDone`). -/
def Obligations.BlockReadBusError : Prop :=
  ∀ (c : StreamOp) (s : State), s.runs c.op false .blocks → BlocksOk c s → s.seq.blk < s.nblkTotal →
    busErrIn s.plat false (s.srcBlock c) (s.srcTake c) = true →
    ∃ t, exec c.instr s = .next t ∧ EndsInError s t 0x0B s.seq.blk ∧ t.seq.hdr = s.seq.hdr ∧ KeepsOperands s t ∧ KeepsStream s t ∧
      t.nblkDone = s.seq.blk ∧ t.result = s.result ∧ KeepsDone c s t 0 0 ∧
      (s.raced = [] → s.plat.ecbParallel = false ∨ c.cbc = true → t.mem = s.mem)

/-- R86, R210: a bus error on the write of an encrypted block ends the command in BUS_ERROR with the block's index; CHAIN and
the counters are those before the block, the completed blocks keep their bytes (`KeepsDone`), and without ECB_PARALLEL only the
block's own destination bytes are unspecified. -/
def Obligations.EncWriteBusError : Prop :=
  ∀ (c : StreamOp) (s : State), c.dec = false → s.runs c.op false .blocks → s.mem.wf = true → BlocksOk c s →
    s.seq.blk < s.nblkTotal → busErrIn s.plat false (s.srcBlock c) (s.srcTake c) = false → s.encInput c < s.valN →
    busErrIn s.plat true (s.dstBlock c) s.cwidth.toNat = true →
    ∃ t, exec c.instr s = .next t ∧ EndsInError s t 0x0B s.seq.blk ∧ t.seq.hdr = s.seq.hdr ∧ KeepsOperands s t ∧ KeepsStream s t ∧
      t.nblkDone = s.seq.blk ∧ t.result = s.result ∧ KeepsDone c s t (s.dstBlock c) s.cwidth.toNat ∧
      (s.raced = [] → s.plat.ecbParallel = false ∨ c.cbc = true → sameOutside s t (s.dstBlock c) s.cwidth.toNat)

/-- R209: when every block is done the next step completes the command: DST_LEN = OUT_REQ, NBLK_DONE = NBLK_TOTAL, DONE and
DONE_IS set, no byte of memory changed. -/
def Obligations.StreamCompletes : Prop :=
  ∀ (c : StreamOp) (s : State), s.runs c.op false .blocks → BlocksOk c s → s.seq.blk = s.nblkTotal →
    ∃ t, exec c.instr s = .next t ∧ t.seq = { s.seq with phase := .idle } ∧ t.status = { s.status with done := true } ∧
      t.intStat = s.intStat ||| 0b001 ∧ t.dstLen = t.outReq ∧ t.nblkDone = t.nblkTotal ∧ t.errInfo = s.errInfo ∧
      t.chain = s.chain ∧ t.result = s.result ∧ (s.raced = [] → t.mem = s.mem) ∧ KeepsOperands s t ∧ KeepsStream s t

/-- R85, R94, R97, R312: where the host's writes were made visible before the command and none is made while it runs, a DMA read
finds the bytes of memory. A host write, in no destination whose end is not observed (R311), stores its bytes and no other; it
is visible at once with its duty, else after a barrier on a coherent platform, or after a clean and a barrier on any. What is visible when a command is accepted, its DMA reads find (no
byte an earlier breach left uncertain, R318). The lists of writes are the model's own (log 6). -/
def Obligations.DmaReadsMemory : Prop :=
  (∀ (s : State) (k a n : Nat),
    (∀ x, a ≤ x → x < a + n → (∀ l ∈ s.unseen, l.addr ≠ x) ∧ ∀ c ∈ s.raced, c.1 ≠ x) →
    s.dmaBytes k a n = s.mem.getBytes a n) ∧
  (∀ (s : State) (a : Word) (bs : List Byte) (duty : Bool), s.mem.wf = true → a.toNat + bs.length ≤ 2 ^ 32 →
    (∀ x, a.toNat ≤ x → x < a.toNat + bs.length → s.notReleased x = false) →
    ∃ t, hostStep (.memWrite a bs duty) s = .next t ∧ t.mem.getBytes a.toNat bs.length = bs ∧
      sameOutside s t a.toNat bs.length ∧
      (duty = true → ∀ l ∈ t.posted, l.addr < a.toNat ∨ a.toNat + bs.length ≤ l.addr)) ∧
  (∀ s : State, ∃ t, hostStep .barrier s = .next t ∧ t.mem = s.mem ∧ (s.plat.dmaCoherent = true → t.posted = [])) ∧
  (∀ (s : State) (a : Word) (n : Nat), ∃ t u, hostStep (.clean a n) s = .next t ∧ hostStep .barrier t = .next u ∧
    u.mem = s.mem ∧ ∀ l ∈ u.posted, l.addr < a.toNat ∨ a.toNat + n ≤ l.addr) ∧
  (∀ (i : Instr) (s : State) (a n : Nat), i.format = .cmd32 → s.turn = .host → s.busy = false → s.raced = [] →
    (∀ l ∈ s.posted, l.addr < a ∨ a + n ≤ l.addr) → (∀ l ∈ s.lags, l.dirty = false) →
    ∃ t, exec i s = .next t ∧ ∀ k, t.dmaBytes k a n = s.mem.getBytes a n)

/-- R311, R312: otherwise each byte is the byte of memory or one that a host write not yet visible, or made while the command
runs, has replaced. `unseen` also lists (the model's choice, log 6) the byte an engine write replaced where the host had left a
dirty line over it (R318), and the DMA read may find that one too. What a host write lists is the byte it replaced, for each byte it
writes and no other: in `posted` without its duty, and in `raced` while a command runs. -/
def Obligations.DmaReadsOldOrNew : Prop :=
  (∀ (s : State) (k a : Nat),
    s.dmaByte k a = s.mem.get a ∨ (∃ l ∈ s.unseen, l.addr = a ∧ s.dmaByte k a = l.old) ∨
      ∃ c ∈ s.raced, c.1 = a ∧ s.dmaByte k a = c.2) ∧
  (∀ (s t : State) (a : Word) (bs : List Byte) (duty : Bool), hostStep (.memWrite a bs duty) s = .next t →
    (∀ l ∈ t.posted, l ∉ s.posted → a.toNat ≤ l.addr ∧ l.addr < a.toNat + bs.length ∧ l.old = s.mem.get l.addr) ∧
    (∀ c ∈ t.raced, c ∉ s.raced → s.busy = true ∧ a.toNat ≤ c.1 ∧ c.1 < a.toNat + bs.length ∧ c.2 = s.mem.get c.1) ∧
    (∀ x, a.toNat ≤ x → x < a.toNat + bs.length →
      (duty = false → ∃ l ∈ t.posted, l.addr = x ∧ l.old = s.mem.get x) ∧ (s.busy = true → (x, s.mem.get x) ∈ t.raced)))

/-- R195: a derived block size never gives ENC_RANGE: every block value, after the XOR for CBC, is below the modulus. -/
def Obligations.DerivedBlockNeverOutOfRange : Prop :=
  ∀ (c : StreamOp) (s : State), c.dec = false → BlocksOk c s → s.bssel = false → s.encInput c < s.valN

/-! ## Registers and interrupts (spec/10_state.md, spec/40_command_interface.md, spec/60_exceptions.md) -/

/-- R81, R116: the map gives each register its offset and access in R116's own numbers, each window word its own, and no other
aligned or misaligned offset of the aperture is mapped. R12: the aperture is the 8 KiB from BASE_ADDR. -/
def Obligations.RegisterMap : Prop :=
  (∀ r : Reg, (∀ w k, r = .word w k → k < 256) → regAt r.offset = some r) ∧
  (∀ (off : Nat) (r : Reg), off < 0x2000 → regAt off = some r → r.offset = off) ∧
  (∀ off : Nat, off < 0x2000 → (regAt off = none ↔ off % 4 ≠ 0 ∨ (0x54 ≤ off ∧ off < 0x400))) ∧
  (∀ x ∈ [(0x000, Reg.id, Access.ro), (0x004, .param, .ro), (0x008, .cmd, .wo), (0x00C, .ctrl, .wo), (0x010, .status, .ro),
      (0x014, .cfg, .rw), (0x018, .blksz, .rw), (0x01C, .srcAddr, .rw), (0x020, .srcLen, .rw), (0x024, .dstAddr, .rw),
      (0x028, .dstCap, .rw), (0x02C, .dstLen, .ro), (0x030, .nbits, .ro), (0x034, .cwidth, .ro), (0x038, .ebs, .ro),
      (0x03C, .nblkTotal, .ro), (0x040, .nblkDone, .ro), (0x044, .outReq, .ro), (0x048, .errInfo, .ro), (0x04C, .intEn, .rw),
      (0x050, .intStat, .w1c)],
    regAt x.1 = some x.2.1 ∧ x.2.1.offset = x.1 ∧ x.2.1.access = x.2.2) ∧
  (∀ x ∈ [(0x400, Win.n, Access.rw), (0x800, .e, .rw), (0xC00, .d, .rw), (0x1000, .base, .rw), (0x1400, .result, .ro),
      (0x1800, .iv, .rw), (0x1C00, .chain, .ro)],
    ∀ k < 256, regAt (x.1 + 4 * k) = some (.word x.2.1 k) ∧ (Reg.word x.2.1 k).access = x.2.2) ∧
  (∀ (p : Config.Platform) (addr : Word) (off : Nat),
    portOffset p addr = some off ↔ addr.toNat = 8192 * p.basePage.toNat + off ∧ off < 0x2000)

/-- R37, R261: the fields of the STATUS word, and the code of each error. -/
def Obligations.StatusLayout : Prop :=
  ∀ s : State, s.statusWord.getLsbD 0 = s.busy ∧ s.statusWord.getLsbD 1 = s.status.done ∧
    s.statusWord.getLsbD 2 = s.status.err ∧ s.statusWord.getLsbD 3 = false ∧
    s.statusWord.extractLsb' 4 4 = s.status.lastOp ∧ s.statusWord.extractLsb' 8 8 = s.status.errCode.code ∧
    s.statusWord.extractLsb' 16 16 = 0 ∧
    [ErrCode.none, .illegalCmd, .domain, .encModulus, .encRange, .encCRange, .encWidth, .encOverflow, .cfgBlksz, .cfgRange,
      .aborted, .busError].map ErrCode.code = [0x00, 0x01, 0x02, 0x03, 0x04, 0x05, 0x06, 0x07, 0x08, 0x09, 0x0A, 0x0B]

/-- R84, R140, R154: a register read at its bus address returns the register's value, busy or not, and changes nothing but
what the host has seen (`resp`, `unobserved` and `stale`, the model's own). R33 to R52: what that value is. ID and PARAM are
constants, CMD and CTRL read 0, a register shorter than 32 bits reads its field zero-extended, word `k` of a window reads its bits
`[32k+31 : 32k]`, and 0 past MAXWORDS. -/
def Obligations.RegisterRead : Prop :=
  ∀ s : State,
    (∀ r : Reg, (∀ w k, r = .word w k → k < 256) →
      ∃ ends lags, portRead s (busAddr s.plat r) 4 =
        .next { s with resp := .data (s.readReg r), unobserved := ends, stale := lags }) ∧
    s.readReg .id = 0x4D455850 ∧ (s.readReg .param).toNat = 0x00010000 + s.plat.maxW / 32 ∧
    s.readReg .cmd = 0 ∧ s.readReg .ctrl = 0 ∧ s.readReg .status = s.statusWord ∧
    (s.readReg .cfg).toNat = s.cfg.toNat ∧ (s.readReg .blksz).toNat = s.blksz.toNat ∧
    s.readReg .srcAddr = s.srcAddr ∧ s.readReg .srcLen = s.srcLen ∧ s.readReg .dstAddr = s.dstAddr ∧
    s.readReg .dstCap = s.dstCap ∧ s.readReg .dstLen = s.dstLen ∧ s.readReg .nbits = s.nbits ∧
    s.readReg .cwidth = s.cwidth ∧ s.readReg .ebs = s.ebs ∧ s.readReg .nblkTotal = s.nblkTotal ∧
    s.readReg .nblkDone = s.nblkDone ∧ s.readReg .outReq = s.outReq ∧ s.readReg .errInfo = s.errInfo ∧
    (s.readReg .intEn).toNat = s.intEn.toNat ∧ (s.readReg .intStat).toNat = s.intStat.toNat ∧
    (∀ x ∈ [(Win.n, s.n), (.e, s.e), (.d, s.d), (.base, s.base), (.result, s.result), (.iv, s.iv), (.chain, s.chain)],
      ∀ k, (k < s.plat.maxW / 32 → ∀ i < 32, (s.readReg (.word x.1 k)).getLsbD i = x.2.getLsbD (32 * k + i)) ∧
        (s.plat.maxW / 32 ≤ k → s.readReg (.word x.1 k) = 0))

/-- R81, R82, R270: an access that is not 32 bits wide, not word-aligned, not full-strobe, or at an unmapped offset gets the
error response and changes no state of the block. That the step answers a next state, with the error response in `resp`, is the
model's choice (log 5): R270 leaves what it does to the host program to the platform. -/
def Obligations.PortBusError : Prop :=
  ∀ (s : State) (addr : Word) (off bytes : Nat) (lanes : List (Option Byte)), portOffset s.plat addr = some off →
    (bytes ≠ 4 ∨ off % 4 ≠ 0 ∨ (0x54 ≤ off ∧ off < 0x400) →
      portRead s addr bytes = .next { s with resp := .busError 0 }) ∧
    (lanes.length ≠ 4 ∨ none ∈ lanes ∨ off % 4 ≠ 0 ∨ (0x54 ≤ off ∧ off < 0x400) →
      portWrite s addr lanes = .next { s with resp := .busError 0 })

/-- R39, R40, R47, R141(8): a write to a read-write register while idle stores its bits that are not reserved, a window word
past MAXWORDS stores none, and every other register reads as before. -/
def Obligations.RegisterWriteReadsBack : Prop :=
  ∀ (s : State) (r : Reg) (v : Word), r.access = .rw → r ≠ .intEn → s.busy = false →
    (∀ w k, r = .word w k → k < 256) →
    ∃ t, writeReg s r v = .next t ∧
      t.readReg r =
        (match r with
         | .cfg => v &&& 0x3
         | .blksz => v &&& 0xFFFF
         | .word _ k => if k < s.plat.maxWords then v else 0
         | _ => v) ∧
      (∀ r', r' ≠ r → (∀ w k, r' = .word w k → k < 256) → t.readReg r' = s.readReg r') ∧
      t.seq = s.seq ∧ t.mem = s.mem ∧ t.plat = s.plat

/-- R52, R153: a write to a read-only register or window changes no state, busy or not; while busy a write to any read-write
register or window word but INT_EN and INT_STAT is ignored and sets WIGN_IS. -/
def Obligations.IgnoredWrites : Prop :=
  ∀ (s : State) (r : Reg) (v : Word),
    (r.access = .ro → writeReg s r v = .next s) ∧
    (r.access = .rw → r ≠ .intEn → s.busy = true → writeReg s r v = .next { s with intStat := s.intStat ||| 0b100 })

/-- R272, R273: the line is high exactly when an enabled bit is set. Writing 1 to a bit of INT_STAT clears it, writing 0
leaves it; INT_EN takes the written bits; both writes act busy or not and change nothing else (`oldInt` and `unobserved` are the
model's own, log 6). -/
def Obligations.Interrupts : Prop :=
  ∀ (s : State) (v : Word),
    (s.irq = true ↔ ∃ i < 3, s.intStat.getLsbD i = true ∧ s.intEn.getLsbD i = true) ∧
    (∃ x old ends, writeReg s .intStat v = .next { s with intStat := x, oldInt := old, unobserved := ends } ∧
      ∀ i < 3, x.getLsbD i = (s.intStat.getLsbD i && !v.getLsbD i)) ∧
    (∃ x, writeReg s .intEn v = .next { s with intEn := x } ∧ ∀ i < 3, x.getLsbD i = v.getLsbD i)

/-! ## The host's view of memory (spec/20_memory.md R94, spec/70_reset_and_hazards.md R313) -/

/-- R94, R313: a host that has observed the end of the commands with these destination bytes, and orders its read after that,
reads the final bytes (`hostOwns`). A STATUS read with BUSY = 0 and DONE or ERR observes the end of every command so far (R93(b));
what it released stays the host's when a command with another destination is accepted. That a reset releases every earlier
destination is the model's choice (log 6). Read without its duty, the bytes are final after a
barrier on a coherent platform, or after an invalidation and a barrier on any. In every clause the host left no dirty line over a
destination (R97). -/
def Obligations.HostReadsFinalBytes : Prop :=
  (∀ (s : State) (a n : Nat), s.hostOwns a n → a + n ≤ 2 ^ 32 →
    ∃ t, hostRead s a n true = .next t ∧ t.resp = .bytes (s.mem.getBytes a n) ∧ t.mem = s.mem ∧ t.seq = s.seq) ∧
  (∀ s : State, Inv s → s.busy = false → s.status.done = true ∨ s.status.err = true → (∀ l ∈ s.lags, l.dirty = false) →
    ∃ t, portRead s (busAddr s.plat .status) 4 = .next t ∧ ∀ a n, t.hostOwns a n) ∧
  (∀ (i : Instr) (s : State) (a n : Nat), i.format = .cmd32 → s.turn = .host → s.busy = false → s.hostOwns a n →
    ∃ t, exec i s = .next t ∧
      ((∀ x, a ≤ x → x < a + n → inRange t.dstAddr.toNat t.dstSpan x = false) → t.hostOwns a n)) ∧
  (∀ (s : State) (abort : Bool) (reserved : Nat), (∀ l ∈ s.lags ++ s.unseen, l.dirty = false) →
    ∃ t, exec (.ctrlSrst abort reserved) s = .next t ∧ ∀ a n, t.hostOwns a n) ∧
  (∀ (s : State) (a : Word) (n : Nat), s.hostOwns a.toNat n → a.toNat + n ≤ 2 ^ 32 →
    (s.plat.dmaCoherent = true →
      ∃ t u, hostStep .barrier s = .next t ∧ hostStep (.memRead a n false) t = .next u ∧
        u.resp = .bytes (s.mem.getBytes a.toNat n) ∧ u.mem = s.mem) ∧
    ∃ t u v, hostStep (.invalidate a n) s = .next t ∧ hostStep .barrier t = .next u ∧
      hostStep (.memRead a n false) u = .next v ∧ v.resp = .bytes (s.mem.getBytes a.toNat n) ∧ v.mem = s.mem)

/-! ## The whole machine -/

/-- The reset state meets the machine's invariant. -/
def Obligations.InvAtReset : Prop := Inv State.reset

/-- Every step keeps the invariant: memory stays canonical, every window stays below `2^MAXW`, STATUS stays consistent (R37,
R49), and between block steps the counters agree with the plan (R190 to R210). -/
def Obligations.InvKept : Prop := ∀ s t : State, Inv s → step s = .next t → Inv t

/-- R87: no step of a state that meets the invariant makes the engine pass address `2^32 - 1`, and no step is refused. -/
def Obligations.EngineStaysInAddressSpace : Prop :=
  ∀ s : State, Inv s → step s ≠ .fault .dmaOutside ∧ ∀ r, step s ≠ .refused r

/-- R153: every operand and configuration register keeps its value through every step that leaves the command running. -/
def Obligations.OperandsFrozenWhileBusy : Prop :=
  ∀ s t : State, s.busy = true → step s = .next t → t.busy = true →
    t.n = s.n ∧ t.e = s.e ∧ t.d = s.d ∧ t.base = s.base ∧ t.iv = s.iv ∧ t.cfg = s.cfg ∧ t.blksz = s.blksz ∧
    t.srcAddr = s.srcAddr ∧ t.srcLen = s.srcLen ∧ t.dstAddr = s.dstAddr ∧ t.dstCap = s.dstCap

/-- R41: RESULT changes only in MODEXP's compute step, or to 0 by a reset: `rst`, or a write of SRST to CTRL. -/
def Obligations.OnlyModexpWritesResult : Prop :=
  ∀ s t : State, step s = .next t → t.result ≠ s.result →
    (s.seq.phase = .compute ∧ s.seq.op = 1 ∧ t.status.done = true) ∨ (s.resetNext ∧ t.result = 0)

/-- R48: CHAIN changes only in the engine's start step or a block step of a CBC command, or to 0 by a reset: `rst`, or a write of SRST to CTRL. -/
def Obligations.OnlyCbcWritesChain : Prop :=
  ∀ s t : State, step s = .next t → t.chain ≠ s.chain →
    (s.engineNext ∧ (s.seq.op = 6 ∨ s.seq.op = 7) ∧
      (s.seq.phase = .start ∨ (s.seq.phase = .blocks ∧ s.seq.blk < s.nblkTotal))) ∨ (s.resetNext ∧ t.chain = 0)

/-- R89: an engine step touches no byte of memory outside the running command's destination range (none, for MODEXP and NOP),
in every state that meets the invariant. -/
def Obligations.EngineWritesOnlyDestination : Prop :=
  ∀ s t : State, Inv s → (s.schedule = [] ∨ ∃ rest, s.schedule = .engine :: rest) → step s = .next t →
    sameOutside s t s.dstAddr.toNat s.dstSpan

/-- R316: every command ends. With the turn left to the engine, a state that meets the invariant reaches, in at most
`nb + 2` steps (2 where no stream command runs or its start step refuses it), a state in which no command runs and, if one
ran, DONE or ERR is set. -/
def Obligations.EveryCommandEnds : Prop :=
  ∀ s : State, Inv s → s.schedule = [] →
    ∃ k t, k ≤ s.plannedBlocks + 2 ∧ Sys2Proof.core.run k s = .next t ∧ t.busy = false ∧
      (s.busy = true → t.status.done = true ∨ t.status.err = true)

/-- R218: no chain across commands. The start step of a CBC command that goes on to BLOCKS gives the same state whatever
CHAIN an earlier command left. -/
def Obligations.NoChainAcrossCommands : Prop :=
  ∀ (c : StreamOp) (s t : State) (x : Window), c.cbc = true → s.runs c.op false .start → exec c.instr s = .next t →
    t.seq.phase = .blocks → exec c.instr { s with chain := x } = .next t

/-- R209, R212, R214: an ECB encryption run. From the state its start step leaves, with no bus error, no race and every
block below the modulus, the engine's `nb + 1` steps end in DONE with the destination holding the cipher blocks of the
source in order and every byte outside `[DST_ADDR, DST_ADDR + OUT_REQ)` unchanged, whatever ECB_PARALLEL is. -/
def Obligations.EcbEncryptionRun : Prop :=
  ∀ s : State, Inv s → s.schedule = [] → s.seq.op = 4 → s.seq.esel = false → s.seq.phase = .blocks → s.seq.blk = 0 →
    s.plat.busErr = [] → s.unseen = [] → s.raced = [] →
    (∀ i < s.nblkTotal.toNat,
      beNat (padBlock s.ebs.toNat (s.mem.getBytes (s.srcAddr.toNat + i * s.ebs.toNat)
        (min s.ebs.toNat (s.srcLen.toNat - i * s.ebs.toNat)))) < s.valN) →
    ∃ t, Sys2Proof.core.run (s.nblkTotal.toNat + 1) s = .next t ∧ t.status.done = true ∧ t.busy = false ∧
      t.dstLen = s.outReq ∧ t.nblkDone = s.nblkTotal ∧
      (∀ i < s.nblkTotal.toNat,
        t.mem.getBytes (s.dstAddr.toNat + i * s.cwidth.toNat) s.cwidth.toNat =
          beBytes s.cwidth.toNat (beNat (padBlock s.ebs.toNat (s.mem.getBytes (s.srcAddr.toNat + i * s.ebs.toNat)
            (min s.ebs.toNat (s.srcLen.toNat - i * s.ebs.toNat)))) ^ s.valE % s.valN)) ∧
      sameOutside s t s.dstAddr.toNat s.outReq.toNat

/-- R215, for one block: with a valid key, decrypting the cipher block of a block below the modulus gives the block back. -/
def Obligations.BlockRoundTrip : Prop :=
  ∀ (n e d cw : Nat) (pb chain : List Byte), ValidKey n e d → n ≤ 256 ^ cw → chain.length = pb.length →
    beNat (xorBytes pb chain) < n →
    xorBytes (beBytes pb.length (modexp (beNat (beBytes cw (modexp (beNat (xorBytes pb chain)) e n))) d n)) chain = pb
end

