-- ==== Sys2Proof/Laws/Memory.lean ====
section
/-! SUPPORT. The laws of system memory: a read after a write, and that every memory operation keeps the canonical form. -/

namespace Sys2Proof.Laws

open Sys2Proof.Machine

theorem wfFrom_mono {m : Memory} {lo lo' : Nat} (h : lo' ≤ lo) (hw : Memory.wfFrom lo m = true) :
    Memory.wfFrom lo' m = true := by
  cases m with
  | nil => rfl
  | cons c m =>
    obtain ⟨a, b⟩ := c
    simp only [Memory.wfFrom, Bool.and_eq_true, decide_eq_true_eq] at hw ⊢
    exact ⟨⟨⟨h.trans hw.1.1.1, hw.1.1.2⟩, hw.1.2⟩, hw.2⟩

/-- An address below every listed one reads as unlisted. -/
theorem get_of_lt {m : Memory} {lo x : Nat} (hw : Memory.wfFrom lo m = true) (h : x < lo) :
    m.get x = Memory.unlisted := by
  cases m with
  | nil => rfl
  | cons c m =>
    obtain ⟨a, b⟩ := c
    simp only [Memory.wfFrom, Bool.and_eq_true, decide_eq_true_eq] at hw
    simp [Memory.get, Nat.lt_of_lt_of_le h hw.1.1.1]

theorem get_set_from {m : Memory} {lo : Nat} (hw : Memory.wfFrom lo m = true) (x y : Nat) (v : Byte) :
    (m.set x v).get y = if y = x then v else m.get y := by
  induction m generalizing lo with
  | nil => grind [Memory.set, Memory.get]
  | cons c m ih =>
    obtain ⟨a, b⟩ := c
    simp only [Memory.wfFrom, Bool.and_eq_true, decide_eq_true_eq] at hw
    have hlt := fun z (h : z < a + 1) => get_of_lt hw.2 h
    have := ih hw.2
    grind [Memory.set, Memory.get]

/-- A read after a write: the byte written at its address, every other byte as before. -/
theorem get_set {m : Memory} (hw : m.wf = true) (x y : Nat) (v : Byte) :
    (m.set x v).get y = if y = x then v else m.get y := get_set_from hw x y v

theorem wfFrom_set {m : Memory} {lo : Nat} (hw : Memory.wfFrom lo m = true) {x : Nat} (v : Byte) (hlo : lo ≤ x)
    (hx : x < Config.addressSpace) : Memory.wfFrom lo (m.set x v) = true := by
  induction m generalizing lo with
  | nil => grind [Memory.set, Memory.wfFrom]
  | cons c m ih =>
    obtain ⟨a, b⟩ := c
    simp only [Memory.wfFrom, Bool.and_eq_true, decide_eq_true_eq] at hw
    obtain ⟨⟨⟨h1, h2⟩, h3⟩, h4⟩ := hw
    unfold Memory.set
    split
    · split
      · simp [Memory.wfFrom, *]
      · simp [Memory.wfFrom, *]
    · split
      · split
        · exact wfFrom_mono (by omega) h4
        · simp [Memory.wfFrom, *]
      · have := ih h4 (by omega)
        simp [Memory.wfFrom, *]

/-- Writing a byte that exists keeps the canonical form. -/
theorem wf_set {m : Memory} (hw : m.wf = true) {x : Nat} (v : Byte) (hx : x < Config.addressSpace) :
    (m.set x v).wf = true := wfFrom_set hw v (Nat.zero_le x) hx

/-- Writing a byte string that lies in the address space keeps the canonical form. -/
theorem wf_setBytes {m : Memory} (hw : m.wf = true) {a : Nat} {bs : List Byte}
    (h : a + bs.length ≤ Config.addressSpace) : (m.setBytes a bs).wf = true := by
  induction bs generalizing m a with
  | nil => exact hw
  | cons b bs ih =>
    simp only [List.length_cons] at h
    exact ih (wf_set hw b (by omega)) (by omega)

/-- A read after a byte string was written: its byte inside the range, the byte from before outside. -/
theorem get_setBytes {m : Memory} (hw : m.wf = true) {a : Nat} {bs : List Byte}
    (h : a + bs.length ≤ Config.addressSpace) (y : Nat) :
    (m.setBytes a bs).get y = if a ≤ y then bs.getD (y - a) (m.get y) else m.get y := by
  induction bs generalizing m a with
  | nil => simp [Memory.setBytes]
  | cons b bs ih =>
    simp only [List.length_cons] at h
    have hs := get_set hw a y b
    rw [Memory.setBytes, ih (wf_set hw b (by omega)) (by omega), hs]
    rcases Nat.lt_trichotomy y a with hy | hy | hy
    · simp [show ¬ a + 1 ≤ y by omega, show ¬ a ≤ y by omega, show y ≠ a by omega]
    · subst hy; simp
    · have : y - a = (y - (a + 1)) + 1 := by omega
      simp [show a + 1 ≤ y by omega, show a ≤ y by omega, show y ≠ a by omega, this]

/-- Bytes outside the written range read as before. -/
theorem get_setBytes_outside {m : Memory} (hw : m.wf = true) {a : Nat} {bs : List Byte}
    (h : a + bs.length ≤ Config.addressSpace) {y : Nat} (hy : y < a ∨ a + bs.length ≤ y) :
    (m.setBytes a bs).get y = m.get y := by
  rw [get_setBytes hw h]
  split
  · rw [List.getD_eq_default]; omega
  · rfl

/-- Reading back a byte string just written. -/
theorem getBytes_setBytes {m : Memory} (hw : m.wf = true) {a : Nat} {bs : List Byte}
    (h : a + bs.length ≤ Config.addressSpace) : (m.setBytes a bs).getBytes a bs.length = bs := by
  have key : ∀ k (c : List Byte), k + c.length = bs.length → bs.drop k = c →
      (m.setBytes a bs).getBytes (a + k) c.length = c := by
    intro k c
    induction c generalizing k with
    | nil => intros; rfl
    | cons b c ih =>
      intro hk hd
      simp only [List.length_cons] at hk
      have hget : bs[k]? = some b := by
        have := congrArg (·[0]?) hd
        simpa using this
      have hrest : bs.drop (k + 1) = c := by
        have := congrArg List.tail hd
        simpa using this
      have := ih (k + 1) (by omega) hrest
      simp only [Memory.getBytes, List.length_cons, List.cons.injEq]
      refine ⟨?_, by simpa [Nat.add_assoc] using this⟩
      rw [get_setBytes hw h]
      simp [hget, List.getD]
  simpa using key 0 bs (by simp) (by simp)

@[simp] theorem getBytes_length (m : Memory) (a n : Nat) : (m.getBytes a n).length = n := by
  induction n generalizing a with
  | zero => rfl
  | succ n ih => simp [Memory.getBytes, ih]

/-- Byte `j` of a byte string read from memory. -/
theorem getBytes_getD (m : Memory) (a n j : Nat) (h : j < n) (v : Byte) : (m.getBytes a n).getD j v = m.get (a + j) := by
  induction n generalizing a j with
  | zero => omega
  | succ n ih =>
    cases j with
    | zero => simp [Memory.getBytes]
    | succ j =>
      have := ih (a + 1) j (by omega)
      simpa [Memory.getBytes, Nat.add_assoc, Nat.add_comm 1 j] using this

/-- Memories that agree on a range read alike there. -/
theorem getBytes_congr {m m' : Memory} {a n : Nat} (h : ∀ j < n, m.get (a + j) = m'.get (a + j)) :
    m.getBytes a n = m'.getBytes a n := by
  induction n generalizing a with
  | zero => rfl
  | succ n ih =>
    have h0 := h 0 (by omega)
    have := ih (a := a + 1) (fun j hj => by have := h (j + 1) (by omega); simpa [Nat.add_assoc, Nat.add_comm 1 j] using this)
    simp only [Nat.add_zero] at h0
    simp [Memory.getBytes, h0, this]

/-- Drawing bytes at addresses that exist keeps the canonical form. -/
theorem wf_drawEach {m : Memory} (hw : m.wf = true) {k : Nat} {l : List Nat} (h : ∀ a ∈ l, a < Config.addressSpace) :
    (drawEach m k l).wf = true := by
  induction l generalizing m k with
  | nil => exact hw
  | cons a l ih => exact ih (wf_set hw _ (h a (by simp))) (fun x hx => h x (by simp [hx]))

/-- Drawing bytes leaves every other byte alone. -/
theorem get_drawEach {m : Memory} (hw : m.wf = true) {k : Nat} {l : List Nat} (h : ∀ a ∈ l, a < Config.addressSpace)
    {y : Nat} (hy : y ∉ l) : (drawEach m k l).get y = m.get y := by
  induction l generalizing m k with
  | nil => rfl
  | cons a l ih =>
    simp only [List.mem_cons, not_or] at hy
    rw [drawEach, ih (wf_set hw _ (h a (by simp))) (fun x hx => h x (by simp [hx])) hy.2, get_set hw]
    simp [hy.1]

@[simp] theorem freeBytes_length (k n : Nat) : (freeBytes k n).length = n := by
  induction n generalizing k with
  | zero => rfl
  | succ n ih => simp [freeBytes, ih]

@[simp] theorem dmaBytes_length (s : State) (k a n : Nat) : (s.dmaBytes k a n).length = n := by
  induction n generalizing k a with
  | zero => rfl
  | succ n ih => simp [State.dmaBytes, ih]

end Sys2Proof.Laws
end

