-- ==== Sys2Proof/Laws/Operands.lean ====
section
/-! SUPPORT. The laws of operands: byte strings and their integers (R16, R17), window words and bytes (R40, R47), the
exponentiation loop (R170), the block plan (R197). -/

namespace Sys2Proof.Laws

open Sys2Proof.Machine

/-! ### Byte strings (R16) -/

@[simp] theorem beBytes_length (w v : Nat) : (beBytes w v).length = w := by
  induction w with
  | zero => rfl
  | succ w ih => simp [beBytes, ih]

/-- The value of a byte string is below `256` to its length. -/
theorem beNat_lt (s : List Byte) : beNat s < 256 ^ s.length := by
  induction s with
  | nil => simp [beNat]
  | cons b s ih =>
    have hb : b.toNat ≤ 255 := by have := b.isLt; omega
    have : b.toNat * 256 ^ s.length ≤ 255 * 256 ^ s.length := Nat.mul_le_mul_right _ hb
    simp only [beNat, List.length_cons, Nat.pow_succ]
    omega

/-- `BE(BE_w(v)) = v mod 256^w`. -/
theorem beNat_beBytes (w v : Nat) : beNat (beBytes w v) = v % 256 ^ w := by
  induction w with
  | zero => simp [beBytes, beNat, Nat.mod_one]
  | succ w ih =>
    have h : v % 256 ^ (w + 1) = v % 256 ^ w + 256 ^ w * (v / 256 ^ w % 256) := by rw [Nat.pow_succ, Nat.mod_mul]
    rw [h, beBytes, beNat, beBytes_length, ih, BitVec.toNat_ofNat, Nat.add_comm, Nat.mul_comm]

/-- `BE_w(v)` depends on `v mod 256^w` alone. -/
theorem beBytes_add_mul (w v k : Nat) : beBytes w (k * 256 ^ w + v) = beBytes w v := by
  induction w generalizing k with
  | zero => rfl
  | succ w ih =>
    have h1 : k * 256 ^ (w + 1) + v = (k * 256) * 256 ^ w + v := by ring
    have h2 : ((k * 256) * 256 ^ w + v) / 256 ^ w = k * 256 + v / 256 ^ w := by
      rw [Nat.add_comm, Nat.add_mul_div_right _ _ (by positivity)]; omega
    rw [h1, beBytes, beBytes, ih, h2]
    congr 1
    apply BitVec.eq_of_toNat_eq
    simp

/-- `BE_w(BE(s)) = s` for a string of `w` bytes. -/
theorem beBytes_beNat (s : List Byte) : beBytes s.length (beNat s) = s := by
  induction s with
  | nil => rfl
  | cons b s ih =>
    have hlt := beNat_lt s
    simp only [List.length_cons, beNat, beBytes]
    rw [beBytes_add_mul, ih, Nat.add_comm, Nat.add_mul_div_right _ _ (by positivity), Nat.div_eq_of_lt hlt]
    simp

@[simp] theorem zeros_length (k : Nat) : (zeros k).length = k := by simp [zeros]

@[simp] theorem xorBytes_length (s t : List Byte) : (xorBytes s t).length = min s.length t.length := by
  simp [xorBytes]

/-- XOR with the same string twice gives the string back. -/
theorem xorBytes_cancel (s t : List Byte) (h : s.length ≤ t.length) : xorBytes (xorBytes s t) t = s := by
  induction s generalizing t with
  | nil => cases t <;> simp [xorBytes]
  | cons a s ih =>
    cases t with
    | nil => simp at h
    | cons b t =>
      have := ih t (by simpa using h)
      simp only [xorBytes, List.zipWith_cons_cons, List.cons.injEq] at this ⊢
      exact ⟨by rw [BitVec.xor_assoc]; simp, this⟩

@[simp] theorem lowBytes_length (k : Nat) (s : List Byte) : (lowBytes k s).length = min k s.length := by
  simp [lowBytes]; omega

/-! ### Bit lengths (R17) -/

/-- `v < 2^bitLen(v)`. -/
theorem lt_pow_bitLen (v : Nat) : v < 2 ^ bitLen v := by
  unfold bitLen
  split
  · simp [*]
  · exact Nat.lt_log2_self

/-- `2^(bitLen(v)-1) <= v` for `v > 0`. -/
theorem pow_bitLen_le {v : Nat} (h : 0 < v) : 2 ^ (bitLen v - 1) ≤ v := by
  unfold bitLen
  rw [if_neg (by omega)]
  simpa using Nat.log2_self_le (by omega : v ≠ 0)

theorem bitLen_pos {v : Nat} (h : 0 < v) : 0 < bitLen v := by
  unfold bitLen
  rw [if_neg (by omega)]
  omega

/-- A value below `2^k` has at most `k` digits. -/
theorem bitLen_le {v k : Nat} (h : v < 2 ^ k) : bitLen v ≤ k := by
  rcases Nat.eq_zero_or_pos v with hv | hv
  · subst hv; simp [bitLen]
  · by_contra hc
    have h1 := pow_bitLen_le hv
    have h2 : 2 ^ k ≤ 2 ^ (bitLen v - 1) := Nat.pow_le_pow_right (by omega) (by omega)
    omega

/-- `v < 256^ceil(bitLen(v)/8)`: a value fits its cipher width (R202). -/
theorem lt_pow_width (v : Nat) : v < 256 ^ ceilDiv (bitLen v) Config.widthDivisor := by
  have h := lt_pow_bitLen v
  have h8 : bitLen v ≤ 8 * ceilDiv (bitLen v) Config.widthDivisor := by
    simp only [ceilDiv, Config.widthDivisor]; omega
  have : (256 : Nat) ^ ceilDiv (bitLen v) Config.widthDivisor = 2 ^ (8 * ceilDiv (bitLen v) Config.widthDivisor) := by
    rw [Nat.pow_mul]
  rw [this]
  exact lt_of_lt_of_le h (Nat.pow_le_pow_right (by omega) h8)

/-! ### Windows (R40, R47) -/

theorem winValue_lt (p : Config.Platform) (w : Window) : winValue p w < 2 ^ p.maxW :=
  Nat.mod_lt _ (Nat.two_pow_pos _)

theorem maxW_le (p : Config.Platform) : p.maxW ≤ 8192 := by
  have := p.maxWordsPred.isLt
  simp only [Config.Platform.maxW, Config.Platform.maxWords]
  omega

/-- `bitLen(W[X]) <= MAXW`. -/
theorem bitLen_winValue_le (p : Config.Platform) (w : Window) : bitLen (winValue p w) ≤ p.maxW :=
  bitLen_le (winValue_lt p w)

theorem getLsbD_wordMask (i : Nat) : wordMask.getLsbD i = decide (i < 32) := by
  simp only [wordMask, BitVec.getLsbD_setWidth, BitVec.getLsbD_allOnes]
  by_cases hi : i < 32 <;> simp [hi]
  omega

/-- A word of a window after a word was written (R40): the written word, or the word from before. -/
theorem getWord_setWord (w : Window) (j k : Nat) (v : Word) (hk : k < 256) :
    getWord (setWord w k v) j = if j = k then v else getWord w j := by
  apply BitVec.eq_of_getLsbD_eq
  intro i hi
  simp only [getWord, setWord, BitVec.getLsbD_extractLsb', BitVec.getLsbD_or, BitVec.getLsbD_and, BitVec.getLsbD_not,
    BitVec.getLsbD_shiftLeft, getLsbD_wordMask, BitVec.getLsbD_setWidth]
  split
  · subst j
    have h1 : 32 * k + i < 8192 := by omega
    have h2 : i < 8192 := by omega
    simp [hi, h1, h2]
  · rename_i hjk
    simp only [BitVec.getLsbD_extractLsb', hi, decide_true, Bool.true_and]
    by_cases hb : 32 * j + i < 8192
    · rcases Nat.lt_or_gt_of_ne hjk with h | h
      · simp [hb, show 32 * j + i < 32 * k by omega]
      · have h2 : ¬ 32 * j + i < 32 * k := by omega
        have h3 : ¬ 32 * j + i - 32 * k < 32 := by omega
        have h4 : v.getLsbD (32 * j + i - 32 * k) = false := BitVec.getLsbD_of_ge _ _ (by omega)
        simp [hb, h2, h3, h4]
    · simp [hb, BitVec.getLsbD_of_ge w _ (by omega : 8192 ≤ 32 * j + i)]

theorem leNat_lt (s : List Byte) : leNat s < 2 ^ (8 * s.length) := by
  induction s with
  | nil => simp [leNat]
  | cons b s ih =>
    have hb := b.isLt
    have : (2 : Nat) ^ (8 * (b :: s).length) = 256 * 2 ^ (8 * s.length) := by
      simp only [List.length_cons, Nat.mul_add, Nat.pow_add]; omega
    simp only [leNat]
    omega

theorem leNat_div (s : List Byte) (j : Nat) : leNat s / 2 ^ (8 * j) % 256 = (s.getD j 0).toNat := by
  induction s generalizing j with
  | nil => simp [leNat]
  | cons b s ih =>
    cases j with
    | zero => have := b.isLt; simp [leNat]; omega
    | succ j =>
      have h1 : (2 : Nat) ^ (8 * (j + 1)) = 256 * 2 ^ (8 * j) := by rw [Nat.mul_add, Nat.pow_add]; omega
      have hb := b.isLt
      have h2 : leNat (b :: s) / 256 = leNat s := by simp only [leNat]; omega
      rw [h1, ← Nat.div_div_eq_div_mul, h2, ih]
      simp

/-- A byte of a byte window after `[0:len(s))` was written (R203, R204): the string's byte, or the byte from before. -/
theorem getByte_setBytes (w : Window) (s : List Byte) (j : Nat) (hs : s.length ≤ 1024) :
    getByte (setBytes w s) j = if j < s.length then s.getD j 0 else getByte w j := by
  apply BitVec.eq_of_getLsbD_eq
  intro i hi
  have hle := leNat_lt s
  simp only [getByte, setBytes, BitVec.getLsbD_extractLsb', BitVec.getLsbD_or, BitVec.getLsbD_shiftLeft,
    BitVec.getLsbD_ushiftRight, BitVec.getLsbD_ofNat]
  split
  · rename_i hj
    have h1 : 8 * j + i < 8 * s.length := by omega
    have h2 : 8 * j + i < 8192 := by omega
    have hd := leNat_div s j
    have h3 : (leNat s).testBit (8 * j + i) = (s.getD j 0).getLsbD i := by
      rw [← BitVec.testBit_toNat, ← hd, show (256 : Nat) = 2 ^ 8 by rfl, Nat.testBit_mod_two_pow, Nat.testBit_div_two_pow]
      simp [hi, Nat.add_comm]
    simp [hi, h1, h2, h3]
  · rename_i hj
    have h1 : ¬ 8 * j + i < 8 * s.length := by omega
    have h2 : (leNat s).testBit (8 * j + i) = false := by
      apply Nat.testBit_lt_two_pow
      exact lt_of_lt_of_le hle (Nat.pow_le_pow_right (by omega) (by omega))
    have h3 : 8 * s.length + (8 * j + i - 8 * s.length) = 8 * j + i := by omega
    by_cases hb : 8 * j + i < 8192
    · simp [hi, h1, h2, h3, hb]
    · simp [hi, h1, h2, h3, hb, BitVec.getLsbD_of_ge w _ (by omega : 8192 ≤ 8 * j + i)]

theorem winBytesFrom_length (w : Window) (j k : Nat) : (winBytesFrom w j k).length = k := by
  induction k generalizing j with
  | zero => rfl
  | succ k ih => simp [winBytesFrom, ih]

@[simp] theorem winBytes_length (w : Window) (k : Nat) : (winBytes w k).length = k := winBytesFrom_length w 0 k

theorem winBytesFrom_getD (w : Window) (j k i : Nat) (h : i < k) : (winBytesFrom w j k).getD i 0 = getByte w (j + i) := by
  induction k generalizing j i with
  | zero => omega
  | succ k ih =>
    cases i with
    | zero => simp [winBytesFrom]
    | succ i =>
      have := ih (j + 1) i (by omega)
      simpa [winBytesFrom, Nat.add_assoc, Nat.add_comm 1 i] using this

theorem ext_getD {s t : List Byte} (hl : s.length = t.length) (h : ∀ i < s.length, s.getD i 0 = t.getD i 0) : s = t := by
  apply List.ext_getElem hl
  intro i h1 h2
  have := h i h1
  simpa [List.getD, h1, h2] using this

/-- The bytes of a byte window that was just written (R203, R204). -/
theorem winBytes_setBytes (w : Window) (s : List Byte) (hs : s.length ≤ 1024) : winBytes (setBytes w s) s.length = s := by
  apply ext_getD (by simp)
  intro i hi
  rw [winBytes, winBytesFrom_length] at hi
  rw [winBytes, winBytesFrom_getD _ _ _ _ hi, Nat.zero_add, getByte_setBytes _ _ _ hs, if_pos hi]

/-- A written byte window keeps the bound of its highest byte. -/
theorem setBytes_toNat_lt (w : Window) (s : List Byte) (n : Nat) (hw : w.toNat < 2 ^ n)
    (hs : 8 * s.length ≤ n) : (setBytes w s).toNat < 2 ^ n := by
  have hle : leNat s < 2 ^ n := lt_of_lt_of_le (leNat_lt s) (Nat.pow_le_pow_right (by omega) hs)
  unfold setBytes
  rw [BitVec.toNat_or]
  apply Nat.or_lt_two_pow
  · rw [BitVec.toNat_shiftLeft, BitVec.toNat_ushiftRight, Nat.shiftRight_eq_div_pow, Nat.shiftLeft_eq]
    apply lt_of_le_of_lt (Nat.mod_le _ _)
    exact lt_of_le_of_lt (Nat.div_mul_le_self _ _) hw
  · rw [BitVec.toNat_ofNat]
    exact lt_of_le_of_lt (Nat.mod_le _ _) hle

/-- A window with a word below `MAXWORDS` written stays below `2^MAXW`. -/
theorem setWord_toNat_lt (w : Window) (k : Nat) (v : Word) (n : Nat) (hw : w.toNat < 2 ^ (32 * n))
    (hk : k < n) : (setWord w k v).toNat < 2 ^ (32 * n) := by
  unfold setWord
  rw [BitVec.toNat_or]
  apply Nat.or_lt_two_pow
  · rw [BitVec.toNat_and]
    exact lt_of_le_of_lt Nat.and_le_left hw
  · rw [BitVec.toNat_shiftLeft, Nat.shiftLeft_eq]
    apply lt_of_le_of_lt (Nat.mod_le _ _)
    have h1 : (v.setWidth 8192).toNat < 2 ^ 32 := by
      rw [BitVec.toNat_setWidth]; exact lt_of_le_of_lt (Nat.mod_le _ _) v.isLt
    have h2 : (2 : Nat) ^ 32 * 2 ^ (32 * k) ≤ 2 ^ (32 * n) := by
      rw [← Nat.pow_add]; exact Nat.pow_le_pow_right (by omega) (by omega)
    exact lt_of_lt_of_le (Nat.mul_lt_mul_of_pos_right h1 (by positivity)) h2

/-! ### The exponentiation loop (R170) -/

/-- The loop multiplies the accumulator by the power of the base over the low bits of the exponent. -/
theorem modexpLoop_eq (fuel b x n acc : Nat) (hacc : acc % n = acc) :
    modexpLoop fuel b x n acc = acc * b ^ (x % 2 ^ fuel) % n := by
  induction fuel generalizing b x acc with
  | zero => simp [modexpLoop, Nat.mod_one, hacc]
  | succ fuel ih =>
    have hx : x % 2 ^ (fuel + 1) = x % 2 + 2 * (x / 2 % 2 ^ fuel) := by
      rw [Nat.pow_succ, Nat.mul_comm, Nat.mod_mul]
    have hpow : ∀ e, (b * b % n) ^ e ≡ b ^ (2 * e) [MOD n] := by
      intro e
      rw [Nat.pow_mul, Nat.pow_two]
      exact (Nat.mod_modEq _ _).pow e
    rw [modexpLoop, hx, Nat.pow_add]
    split
    · rename_i h1
      rw [ih _ _ _ (Nat.mod_mod _ _), h1, Nat.pow_one]
      have : acc * b % n * (b * b % n) ^ (x / 2 % 2 ^ fuel) ≡ acc * b * b ^ (2 * (x / 2 % 2 ^ fuel)) [MOD n] :=
        (Nat.mod_modEq _ _).mul (hpow _)
      rw [← Nat.mul_assoc]
      exact this
    · rename_i h1
      have h0 : x % 2 = 0 := by omega
      rw [ih _ _ _ hacc, h0, Nat.pow_zero, Nat.one_mul]
      exact (Nat.ModEq.refl acc).mul (hpow _)

/-! ### The block plan (R197) -/

theorem lt_ceilDiv_iff {a b i : Nat} (hb : 0 < b) : i < ceilDiv a b ↔ i * b < a := by
  unfold ceilDiv
  rw [Nat.lt_iff_add_one_le, Nat.le_div_iff_mul_le hb, Nat.add_mul, Nat.one_mul]
  omega

theorem streamOf_op (c : StreamOp) : streamOf c.op = some c := by cases c <;> rfl

theorem streamOf_eq_some {op : BitVec 4} {c : StreamOp} (h : streamOf op = some c) : op = c.op := by
  unfold streamOf at h
  grind [StreamOp.op]

end Sys2Proof.Laws
end

