-- ==== Sys2Proof/Laws/State.lean ====
section
/-! SUPPORT. One lemma per field per named update of the state, so that no proof unfolds a record update: first what each
update leaves alone, then what it writes. -/

namespace Sys2Proof.Laws

open Sys2Proof.Machine

/-! ### `State.accept` changes seq, status, errInfo, unseen, oldInt and nothing else -/

@[simp] theorem accept_n (s : State) (op : BitVec 4) (esel : Bool) : (s.accept op esel).n = s.n := rfl
@[simp] theorem accept_e (s : State) (op : BitVec 4) (esel : Bool) : (s.accept op esel).e = s.e := rfl
@[simp] theorem accept_d (s : State) (op : BitVec 4) (esel : Bool) : (s.accept op esel).d = s.d := rfl
@[simp] theorem accept_base (s : State) (op : BitVec 4) (esel : Bool) : (s.accept op esel).base = s.base := rfl
@[simp] theorem accept_result (s : State) (op : BitVec 4) (esel : Bool) : (s.accept op esel).result = s.result := rfl
@[simp] theorem accept_iv (s : State) (op : BitVec 4) (esel : Bool) : (s.accept op esel).iv = s.iv := rfl
@[simp] theorem accept_chain (s : State) (op : BitVec 4) (esel : Bool) : (s.accept op esel).chain = s.chain := rfl
@[simp] theorem accept_cfg (s : State) (op : BitVec 4) (esel : Bool) : (s.accept op esel).cfg = s.cfg := rfl
@[simp] theorem accept_blksz (s : State) (op : BitVec 4) (esel : Bool) : (s.accept op esel).blksz = s.blksz := rfl
@[simp] theorem accept_srcAddr (s : State) (op : BitVec 4) (esel : Bool) : (s.accept op esel).srcAddr = s.srcAddr := rfl
@[simp] theorem accept_srcLen (s : State) (op : BitVec 4) (esel : Bool) : (s.accept op esel).srcLen = s.srcLen := rfl
@[simp] theorem accept_dstAddr (s : State) (op : BitVec 4) (esel : Bool) : (s.accept op esel).dstAddr = s.dstAddr := rfl
@[simp] theorem accept_dstCap (s : State) (op : BitVec 4) (esel : Bool) : (s.accept op esel).dstCap = s.dstCap := rfl
@[simp] theorem accept_dstLen (s : State) (op : BitVec 4) (esel : Bool) : (s.accept op esel).dstLen = s.dstLen := rfl
@[simp] theorem accept_nbits (s : State) (op : BitVec 4) (esel : Bool) : (s.accept op esel).nbits = s.nbits := rfl
@[simp] theorem accept_cwidth (s : State) (op : BitVec 4) (esel : Bool) : (s.accept op esel).cwidth = s.cwidth := rfl
@[simp] theorem accept_ebs (s : State) (op : BitVec 4) (esel : Bool) : (s.accept op esel).ebs = s.ebs := rfl
@[simp] theorem accept_nblkTotal (s : State) (op : BitVec 4) (esel : Bool) : (s.accept op esel).nblkTotal = s.nblkTotal := rfl
@[simp] theorem accept_nblkDone (s : State) (op : BitVec 4) (esel : Bool) : (s.accept op esel).nblkDone = s.nblkDone := rfl
@[simp] theorem accept_outReq (s : State) (op : BitVec 4) (esel : Bool) : (s.accept op esel).outReq = s.outReq := rfl
@[simp] theorem accept_intEn (s : State) (op : BitVec 4) (esel : Bool) : (s.accept op esel).intEn = s.intEn := rfl
@[simp] theorem accept_intStat (s : State) (op : BitVec 4) (esel : Bool) : (s.accept op esel).intStat = s.intStat := rfl
@[simp] theorem accept_mem (s : State) (op : BitVec 4) (esel : Bool) : (s.accept op esel).mem = s.mem := rfl
@[simp] theorem accept_plat (s : State) (op : BitVec 4) (esel : Bool) : (s.accept op esel).plat = s.plat := rfl
@[simp] theorem accept_schedule (s : State) (op : BitVec 4) (esel : Bool) : (s.accept op esel).schedule = s.schedule := rfl
@[simp] theorem accept_turn (s : State) (op : BitVec 4) (esel : Bool) : (s.accept op esel).turn = s.turn := rfl
@[simp] theorem accept_resp (s : State) (op : BitVec 4) (esel : Bool) : (s.accept op esel).resp = s.resp := rfl
@[simp] theorem accept_posted (s : State) (op : BitVec 4) (esel : Bool) : (s.accept op esel).posted = s.posted := rfl
@[simp] theorem accept_written (s : State) (op : BitVec 4) (esel : Bool) : (s.accept op esel).written = s.written := rfl
@[simp] theorem accept_stale (s : State) (op : BitVec 4) (esel : Bool) : (s.accept op esel).stale = s.stale := rfl
@[simp] theorem accept_raced (s : State) (op : BitVec 4) (esel : Bool) : (s.accept op esel).raced = s.raced := rfl
@[simp] theorem accept_unobserved (s : State) (op : BitVec 4) (esel : Bool) : (s.accept op esel).unobserved = s.unobserved := rfl
@[simp] theorem accept_draws (s : State) (op : BitVec 4) (esel : Bool) : (s.accept op esel).draws = s.draws := rfl

/-! ### `State.settleRaces` changes mem, draws, raced, written, unobserved and nothing else -/

@[simp] theorem settleRaces_n (s : State) : (s.settleRaces).n = s.n := rfl
@[simp] theorem settleRaces_e (s : State) : (s.settleRaces).e = s.e := rfl
@[simp] theorem settleRaces_d (s : State) : (s.settleRaces).d = s.d := rfl
@[simp] theorem settleRaces_base (s : State) : (s.settleRaces).base = s.base := rfl
@[simp] theorem settleRaces_result (s : State) : (s.settleRaces).result = s.result := rfl
@[simp] theorem settleRaces_iv (s : State) : (s.settleRaces).iv = s.iv := rfl
@[simp] theorem settleRaces_chain (s : State) : (s.settleRaces).chain = s.chain := rfl
@[simp] theorem settleRaces_cfg (s : State) : (s.settleRaces).cfg = s.cfg := rfl
@[simp] theorem settleRaces_blksz (s : State) : (s.settleRaces).blksz = s.blksz := rfl
@[simp] theorem settleRaces_srcAddr (s : State) : (s.settleRaces).srcAddr = s.srcAddr := rfl
@[simp] theorem settleRaces_srcLen (s : State) : (s.settleRaces).srcLen = s.srcLen := rfl
@[simp] theorem settleRaces_dstAddr (s : State) : (s.settleRaces).dstAddr = s.dstAddr := rfl
@[simp] theorem settleRaces_dstCap (s : State) : (s.settleRaces).dstCap = s.dstCap := rfl
@[simp] theorem settleRaces_dstLen (s : State) : (s.settleRaces).dstLen = s.dstLen := rfl
@[simp] theorem settleRaces_nbits (s : State) : (s.settleRaces).nbits = s.nbits := rfl
@[simp] theorem settleRaces_cwidth (s : State) : (s.settleRaces).cwidth = s.cwidth := rfl
@[simp] theorem settleRaces_ebs (s : State) : (s.settleRaces).ebs = s.ebs := rfl
@[simp] theorem settleRaces_nblkTotal (s : State) : (s.settleRaces).nblkTotal = s.nblkTotal := rfl
@[simp] theorem settleRaces_nblkDone (s : State) : (s.settleRaces).nblkDone = s.nblkDone := rfl
@[simp] theorem settleRaces_outReq (s : State) : (s.settleRaces).outReq = s.outReq := rfl
@[simp] theorem settleRaces_errInfo (s : State) : (s.settleRaces).errInfo = s.errInfo := rfl
@[simp] theorem settleRaces_status (s : State) : (s.settleRaces).status = s.status := rfl
@[simp] theorem settleRaces_intEn (s : State) : (s.settleRaces).intEn = s.intEn := rfl
@[simp] theorem settleRaces_intStat (s : State) : (s.settleRaces).intStat = s.intStat := rfl
@[simp] theorem settleRaces_seq (s : State) : (s.settleRaces).seq = s.seq := rfl
@[simp] theorem settleRaces_plat (s : State) : (s.settleRaces).plat = s.plat := rfl
@[simp] theorem settleRaces_schedule (s : State) : (s.settleRaces).schedule = s.schedule := rfl
@[simp] theorem settleRaces_turn (s : State) : (s.settleRaces).turn = s.turn := rfl
@[simp] theorem settleRaces_resp (s : State) : (s.settleRaces).resp = s.resp := rfl
@[simp] theorem settleRaces_posted (s : State) : (s.settleRaces).posted = s.posted := rfl
@[simp] theorem settleRaces_unseen (s : State) : (s.settleRaces).unseen = s.unseen := rfl
@[simp] theorem settleRaces_stale (s : State) : (s.settleRaces).stale = s.stale := rfl
@[simp] theorem settleRaces_oldInt (s : State) : (s.settleRaces).oldInt = s.oldInt := rfl

/-! ### `State.observe` changes stale, unobserved and nothing else -/

@[simp] theorem observe_n (s : State) (f : BitVec 3 → Bool) : (s.observe f).n = s.n := rfl
@[simp] theorem observe_e (s : State) (f : BitVec 3 → Bool) : (s.observe f).e = s.e := rfl
@[simp] theorem observe_d (s : State) (f : BitVec 3 → Bool) : (s.observe f).d = s.d := rfl
@[simp] theorem observe_base (s : State) (f : BitVec 3 → Bool) : (s.observe f).base = s.base := rfl
@[simp] theorem observe_result (s : State) (f : BitVec 3 → Bool) : (s.observe f).result = s.result := rfl
@[simp] theorem observe_iv (s : State) (f : BitVec 3 → Bool) : (s.observe f).iv = s.iv := rfl
@[simp] theorem observe_chain (s : State) (f : BitVec 3 → Bool) : (s.observe f).chain = s.chain := rfl
@[simp] theorem observe_cfg (s : State) (f : BitVec 3 → Bool) : (s.observe f).cfg = s.cfg := rfl
@[simp] theorem observe_blksz (s : State) (f : BitVec 3 → Bool) : (s.observe f).blksz = s.blksz := rfl
@[simp] theorem observe_srcAddr (s : State) (f : BitVec 3 → Bool) : (s.observe f).srcAddr = s.srcAddr := rfl
@[simp] theorem observe_srcLen (s : State) (f : BitVec 3 → Bool) : (s.observe f).srcLen = s.srcLen := rfl
@[simp] theorem observe_dstAddr (s : State) (f : BitVec 3 → Bool) : (s.observe f).dstAddr = s.dstAddr := rfl
@[simp] theorem observe_dstCap (s : State) (f : BitVec 3 → Bool) : (s.observe f).dstCap = s.dstCap := rfl
@[simp] theorem observe_dstLen (s : State) (f : BitVec 3 → Bool) : (s.observe f).dstLen = s.dstLen := rfl
@[simp] theorem observe_nbits (s : State) (f : BitVec 3 → Bool) : (s.observe f).nbits = s.nbits := rfl
@[simp] theorem observe_cwidth (s : State) (f : BitVec 3 → Bool) : (s.observe f).cwidth = s.cwidth := rfl
@[simp] theorem observe_ebs (s : State) (f : BitVec 3 → Bool) : (s.observe f).ebs = s.ebs := rfl
@[simp] theorem observe_nblkTotal (s : State) (f : BitVec 3 → Bool) : (s.observe f).nblkTotal = s.nblkTotal := rfl
@[simp] theorem observe_nblkDone (s : State) (f : BitVec 3 → Bool) : (s.observe f).nblkDone = s.nblkDone := rfl
@[simp] theorem observe_outReq (s : State) (f : BitVec 3 → Bool) : (s.observe f).outReq = s.outReq := rfl
@[simp] theorem observe_errInfo (s : State) (f : BitVec 3 → Bool) : (s.observe f).errInfo = s.errInfo := rfl
@[simp] theorem observe_status (s : State) (f : BitVec 3 → Bool) : (s.observe f).status = s.status := rfl
@[simp] theorem observe_intEn (s : State) (f : BitVec 3 → Bool) : (s.observe f).intEn = s.intEn := rfl
@[simp] theorem observe_intStat (s : State) (f : BitVec 3 → Bool) : (s.observe f).intStat = s.intStat := rfl
@[simp] theorem observe_seq (s : State) (f : BitVec 3 → Bool) : (s.observe f).seq = s.seq := rfl
@[simp] theorem observe_mem (s : State) (f : BitVec 3 → Bool) : (s.observe f).mem = s.mem := rfl
@[simp] theorem observe_plat (s : State) (f : BitVec 3 → Bool) : (s.observe f).plat = s.plat := rfl
@[simp] theorem observe_schedule (s : State) (f : BitVec 3 → Bool) : (s.observe f).schedule = s.schedule := rfl
@[simp] theorem observe_turn (s : State) (f : BitVec 3 → Bool) : (s.observe f).turn = s.turn := rfl
@[simp] theorem observe_resp (s : State) (f : BitVec 3 → Bool) : (s.observe f).resp = s.resp := rfl
@[simp] theorem observe_posted (s : State) (f : BitVec 3 → Bool) : (s.observe f).posted = s.posted := rfl
@[simp] theorem observe_unseen (s : State) (f : BitVec 3 → Bool) : (s.observe f).unseen = s.unseen := rfl
@[simp] theorem observe_written (s : State) (f : BitVec 3 → Bool) : (s.observe f).written = s.written := rfl
@[simp] theorem observe_raced (s : State) (f : BitVec 3 → Bool) : (s.observe f).raced = s.raced := rfl
@[simp] theorem observe_oldInt (s : State) (f : BitVec 3 → Bool) : (s.observe f).oldInt = s.oldInt := rfl
@[simp] theorem observe_draws (s : State) (f : BitVec 3 → Bool) : (s.observe f).draws = s.draws := rfl

/-! ### `State.complete` changes seq, status, intStat, mem, draws, raced, written, unobserved and nothing else -/

@[simp] theorem complete_n (s : State) : (s.complete).n = s.n := rfl
@[simp] theorem complete_e (s : State) : (s.complete).e = s.e := rfl
@[simp] theorem complete_d (s : State) : (s.complete).d = s.d := rfl
@[simp] theorem complete_base (s : State) : (s.complete).base = s.base := rfl
@[simp] theorem complete_result (s : State) : (s.complete).result = s.result := rfl
@[simp] theorem complete_iv (s : State) : (s.complete).iv = s.iv := rfl
@[simp] theorem complete_chain (s : State) : (s.complete).chain = s.chain := rfl
@[simp] theorem complete_cfg (s : State) : (s.complete).cfg = s.cfg := rfl
@[simp] theorem complete_blksz (s : State) : (s.complete).blksz = s.blksz := rfl
@[simp] theorem complete_srcAddr (s : State) : (s.complete).srcAddr = s.srcAddr := rfl
@[simp] theorem complete_srcLen (s : State) : (s.complete).srcLen = s.srcLen := rfl
@[simp] theorem complete_dstAddr (s : State) : (s.complete).dstAddr = s.dstAddr := rfl
@[simp] theorem complete_dstCap (s : State) : (s.complete).dstCap = s.dstCap := rfl
@[simp] theorem complete_dstLen (s : State) : (s.complete).dstLen = s.dstLen := rfl
@[simp] theorem complete_nbits (s : State) : (s.complete).nbits = s.nbits := rfl
@[simp] theorem complete_cwidth (s : State) : (s.complete).cwidth = s.cwidth := rfl
@[simp] theorem complete_ebs (s : State) : (s.complete).ebs = s.ebs := rfl
@[simp] theorem complete_nblkTotal (s : State) : (s.complete).nblkTotal = s.nblkTotal := rfl
@[simp] theorem complete_nblkDone (s : State) : (s.complete).nblkDone = s.nblkDone := rfl
@[simp] theorem complete_outReq (s : State) : (s.complete).outReq = s.outReq := rfl
@[simp] theorem complete_errInfo (s : State) : (s.complete).errInfo = s.errInfo := rfl
@[simp] theorem complete_intEn (s : State) : (s.complete).intEn = s.intEn := rfl
@[simp] theorem complete_plat (s : State) : (s.complete).plat = s.plat := rfl
@[simp] theorem complete_schedule (s : State) : (s.complete).schedule = s.schedule := rfl
@[simp] theorem complete_turn (s : State) : (s.complete).turn = s.turn := rfl
@[simp] theorem complete_resp (s : State) : (s.complete).resp = s.resp := rfl
@[simp] theorem complete_posted (s : State) : (s.complete).posted = s.posted := rfl
@[simp] theorem complete_unseen (s : State) : (s.complete).unseen = s.unseen := rfl
@[simp] theorem complete_stale (s : State) : (s.complete).stale = s.stale := rfl
@[simp] theorem complete_oldInt (s : State) : (s.complete).oldInt = s.oldInt := rfl

/-! ### `State.raise` changes seq, status, intStat, errInfo, mem, draws, raced, written, unobserved and nothing else -/

@[simp] theorem raise_n (s : State) (c : ErrCode) (info : Word) : (s.raise c info).n = s.n := rfl
@[simp] theorem raise_e (s : State) (c : ErrCode) (info : Word) : (s.raise c info).e = s.e := rfl
@[simp] theorem raise_d (s : State) (c : ErrCode) (info : Word) : (s.raise c info).d = s.d := rfl
@[simp] theorem raise_base (s : State) (c : ErrCode) (info : Word) : (s.raise c info).base = s.base := rfl
@[simp] theorem raise_result (s : State) (c : ErrCode) (info : Word) : (s.raise c info).result = s.result := rfl
@[simp] theorem raise_iv (s : State) (c : ErrCode) (info : Word) : (s.raise c info).iv = s.iv := rfl
@[simp] theorem raise_chain (s : State) (c : ErrCode) (info : Word) : (s.raise c info).chain = s.chain := rfl
@[simp] theorem raise_cfg (s : State) (c : ErrCode) (info : Word) : (s.raise c info).cfg = s.cfg := rfl
@[simp] theorem raise_blksz (s : State) (c : ErrCode) (info : Word) : (s.raise c info).blksz = s.blksz := rfl
@[simp] theorem raise_srcAddr (s : State) (c : ErrCode) (info : Word) : (s.raise c info).srcAddr = s.srcAddr := rfl
@[simp] theorem raise_srcLen (s : State) (c : ErrCode) (info : Word) : (s.raise c info).srcLen = s.srcLen := rfl
@[simp] theorem raise_dstAddr (s : State) (c : ErrCode) (info : Word) : (s.raise c info).dstAddr = s.dstAddr := rfl
@[simp] theorem raise_dstCap (s : State) (c : ErrCode) (info : Word) : (s.raise c info).dstCap = s.dstCap := rfl
@[simp] theorem raise_dstLen (s : State) (c : ErrCode) (info : Word) : (s.raise c info).dstLen = s.dstLen := rfl
@[simp] theorem raise_nbits (s : State) (c : ErrCode) (info : Word) : (s.raise c info).nbits = s.nbits := rfl
@[simp] theorem raise_cwidth (s : State) (c : ErrCode) (info : Word) : (s.raise c info).cwidth = s.cwidth := rfl
@[simp] theorem raise_ebs (s : State) (c : ErrCode) (info : Word) : (s.raise c info).ebs = s.ebs := rfl
@[simp] theorem raise_nblkTotal (s : State) (c : ErrCode) (info : Word) : (s.raise c info).nblkTotal = s.nblkTotal := rfl
@[simp] theorem raise_nblkDone (s : State) (c : ErrCode) (info : Word) : (s.raise c info).nblkDone = s.nblkDone := rfl
@[simp] theorem raise_outReq (s : State) (c : ErrCode) (info : Word) : (s.raise c info).outReq = s.outReq := rfl
@[simp] theorem raise_intEn (s : State) (c : ErrCode) (info : Word) : (s.raise c info).intEn = s.intEn := rfl
@[simp] theorem raise_plat (s : State) (c : ErrCode) (info : Word) : (s.raise c info).plat = s.plat := rfl
@[simp] theorem raise_schedule (s : State) (c : ErrCode) (info : Word) : (s.raise c info).schedule = s.schedule := rfl
@[simp] theorem raise_turn (s : State) (c : ErrCode) (info : Word) : (s.raise c info).turn = s.turn := rfl
@[simp] theorem raise_resp (s : State) (c : ErrCode) (info : Word) : (s.raise c info).resp = s.resp := rfl
@[simp] theorem raise_posted (s : State) (c : ErrCode) (info : Word) : (s.raise c info).posted = s.posted := rfl
@[simp] theorem raise_unseen (s : State) (c : ErrCode) (info : Word) : (s.raise c info).unseen = s.unseen := rfl
@[simp] theorem raise_stale (s : State) (c : ErrCode) (info : Word) : (s.raise c info).stale = s.stale := rfl
@[simp] theorem raise_oldInt (s : State) (c : ErrCode) (info : Word) : (s.raise c info).oldInt = s.oldInt := rfl

/-! ### `State.ignoredBusy` changes intStat and nothing else -/

@[simp] theorem ignoredBusy_n (s : State) : (s.ignoredBusy).n = s.n := rfl
@[simp] theorem ignoredBusy_e (s : State) : (s.ignoredBusy).e = s.e := rfl
@[simp] theorem ignoredBusy_d (s : State) : (s.ignoredBusy).d = s.d := rfl
@[simp] theorem ignoredBusy_base (s : State) : (s.ignoredBusy).base = s.base := rfl
@[simp] theorem ignoredBusy_result (s : State) : (s.ignoredBusy).result = s.result := rfl
@[simp] theorem ignoredBusy_iv (s : State) : (s.ignoredBusy).iv = s.iv := rfl
@[simp] theorem ignoredBusy_chain (s : State) : (s.ignoredBusy).chain = s.chain := rfl
@[simp] theorem ignoredBusy_cfg (s : State) : (s.ignoredBusy).cfg = s.cfg := rfl
@[simp] theorem ignoredBusy_blksz (s : State) : (s.ignoredBusy).blksz = s.blksz := rfl
@[simp] theorem ignoredBusy_srcAddr (s : State) : (s.ignoredBusy).srcAddr = s.srcAddr := rfl
@[simp] theorem ignoredBusy_srcLen (s : State) : (s.ignoredBusy).srcLen = s.srcLen := rfl
@[simp] theorem ignoredBusy_dstAddr (s : State) : (s.ignoredBusy).dstAddr = s.dstAddr := rfl
@[simp] theorem ignoredBusy_dstCap (s : State) : (s.ignoredBusy).dstCap = s.dstCap := rfl
@[simp] theorem ignoredBusy_dstLen (s : State) : (s.ignoredBusy).dstLen = s.dstLen := rfl
@[simp] theorem ignoredBusy_nbits (s : State) : (s.ignoredBusy).nbits = s.nbits := rfl
@[simp] theorem ignoredBusy_cwidth (s : State) : (s.ignoredBusy).cwidth = s.cwidth := rfl
@[simp] theorem ignoredBusy_ebs (s : State) : (s.ignoredBusy).ebs = s.ebs := rfl
@[simp] theorem ignoredBusy_nblkTotal (s : State) : (s.ignoredBusy).nblkTotal = s.nblkTotal := rfl
@[simp] theorem ignoredBusy_nblkDone (s : State) : (s.ignoredBusy).nblkDone = s.nblkDone := rfl
@[simp] theorem ignoredBusy_outReq (s : State) : (s.ignoredBusy).outReq = s.outReq := rfl
@[simp] theorem ignoredBusy_errInfo (s : State) : (s.ignoredBusy).errInfo = s.errInfo := rfl
@[simp] theorem ignoredBusy_status (s : State) : (s.ignoredBusy).status = s.status := rfl
@[simp] theorem ignoredBusy_intEn (s : State) : (s.ignoredBusy).intEn = s.intEn := rfl
@[simp] theorem ignoredBusy_seq (s : State) : (s.ignoredBusy).seq = s.seq := rfl
@[simp] theorem ignoredBusy_mem (s : State) : (s.ignoredBusy).mem = s.mem := rfl
@[simp] theorem ignoredBusy_plat (s : State) : (s.ignoredBusy).plat = s.plat := rfl
@[simp] theorem ignoredBusy_schedule (s : State) : (s.ignoredBusy).schedule = s.schedule := rfl
@[simp] theorem ignoredBusy_turn (s : State) : (s.ignoredBusy).turn = s.turn := rfl
@[simp] theorem ignoredBusy_resp (s : State) : (s.ignoredBusy).resp = s.resp := rfl
@[simp] theorem ignoredBusy_posted (s : State) : (s.ignoredBusy).posted = s.posted := rfl
@[simp] theorem ignoredBusy_unseen (s : State) : (s.ignoredBusy).unseen = s.unseen := rfl
@[simp] theorem ignoredBusy_written (s : State) : (s.ignoredBusy).written = s.written := rfl
@[simp] theorem ignoredBusy_stale (s : State) : (s.ignoredBusy).stale = s.stale := rfl
@[simp] theorem ignoredBusy_raced (s : State) : (s.ignoredBusy).raced = s.raced := rfl
@[simp] theorem ignoredBusy_unobserved (s : State) : (s.ignoredBusy).unobserved = s.unobserved := rfl
@[simp] theorem ignoredBusy_oldInt (s : State) : (s.ignoredBusy).oldInt = s.oldInt := rfl
@[simp] theorem ignoredBusy_draws (s : State) : (s.ignoredBusy).draws = s.draws := rfl

/-! ### `State.writeIntStat` changes intStat, oldInt, unobserved and nothing else -/

@[simp] theorem writeIntStat_n (s : State) (v : Word) : (s.writeIntStat v).n = s.n := rfl
@[simp] theorem writeIntStat_e (s : State) (v : Word) : (s.writeIntStat v).e = s.e := rfl
@[simp] theorem writeIntStat_d (s : State) (v : Word) : (s.writeIntStat v).d = s.d := rfl
@[simp] theorem writeIntStat_base (s : State) (v : Word) : (s.writeIntStat v).base = s.base := rfl
@[simp] theorem writeIntStat_result (s : State) (v : Word) : (s.writeIntStat v).result = s.result := rfl
@[simp] theorem writeIntStat_iv (s : State) (v : Word) : (s.writeIntStat v).iv = s.iv := rfl
@[simp] theorem writeIntStat_chain (s : State) (v : Word) : (s.writeIntStat v).chain = s.chain := rfl
@[simp] theorem writeIntStat_cfg (s : State) (v : Word) : (s.writeIntStat v).cfg = s.cfg := rfl
@[simp] theorem writeIntStat_blksz (s : State) (v : Word) : (s.writeIntStat v).blksz = s.blksz := rfl
@[simp] theorem writeIntStat_srcAddr (s : State) (v : Word) : (s.writeIntStat v).srcAddr = s.srcAddr := rfl
@[simp] theorem writeIntStat_srcLen (s : State) (v : Word) : (s.writeIntStat v).srcLen = s.srcLen := rfl
@[simp] theorem writeIntStat_dstAddr (s : State) (v : Word) : (s.writeIntStat v).dstAddr = s.dstAddr := rfl
@[simp] theorem writeIntStat_dstCap (s : State) (v : Word) : (s.writeIntStat v).dstCap = s.dstCap := rfl
@[simp] theorem writeIntStat_dstLen (s : State) (v : Word) : (s.writeIntStat v).dstLen = s.dstLen := rfl
@[simp] theorem writeIntStat_nbits (s : State) (v : Word) : (s.writeIntStat v).nbits = s.nbits := rfl
@[simp] theorem writeIntStat_cwidth (s : State) (v : Word) : (s.writeIntStat v).cwidth = s.cwidth := rfl
@[simp] theorem writeIntStat_ebs (s : State) (v : Word) : (s.writeIntStat v).ebs = s.ebs := rfl
@[simp] theorem writeIntStat_nblkTotal (s : State) (v : Word) : (s.writeIntStat v).nblkTotal = s.nblkTotal := rfl
@[simp] theorem writeIntStat_nblkDone (s : State) (v : Word) : (s.writeIntStat v).nblkDone = s.nblkDone := rfl
@[simp] theorem writeIntStat_outReq (s : State) (v : Word) : (s.writeIntStat v).outReq = s.outReq := rfl
@[simp] theorem writeIntStat_errInfo (s : State) (v : Word) : (s.writeIntStat v).errInfo = s.errInfo := rfl
@[simp] theorem writeIntStat_status (s : State) (v : Word) : (s.writeIntStat v).status = s.status := rfl
@[simp] theorem writeIntStat_intEn (s : State) (v : Word) : (s.writeIntStat v).intEn = s.intEn := rfl
@[simp] theorem writeIntStat_seq (s : State) (v : Word) : (s.writeIntStat v).seq = s.seq := rfl
@[simp] theorem writeIntStat_mem (s : State) (v : Word) : (s.writeIntStat v).mem = s.mem := rfl
@[simp] theorem writeIntStat_plat (s : State) (v : Word) : (s.writeIntStat v).plat = s.plat := rfl
@[simp] theorem writeIntStat_schedule (s : State) (v : Word) : (s.writeIntStat v).schedule = s.schedule := rfl
@[simp] theorem writeIntStat_turn (s : State) (v : Word) : (s.writeIntStat v).turn = s.turn := rfl
@[simp] theorem writeIntStat_resp (s : State) (v : Word) : (s.writeIntStat v).resp = s.resp := rfl
@[simp] theorem writeIntStat_posted (s : State) (v : Word) : (s.writeIntStat v).posted = s.posted := rfl
@[simp] theorem writeIntStat_unseen (s : State) (v : Word) : (s.writeIntStat v).unseen = s.unseen := rfl
@[simp] theorem writeIntStat_written (s : State) (v : Word) : (s.writeIntStat v).written = s.written := rfl
@[simp] theorem writeIntStat_stale (s : State) (v : Word) : (s.writeIntStat v).stale = s.stale := rfl
@[simp] theorem writeIntStat_raced (s : State) (v : Word) : (s.writeIntStat v).raced = s.raced := rfl
@[simp] theorem writeIntStat_draws (s : State) (v : Word) : (s.writeIntStat v).draws = s.draws := rfl

/-! ### `State.writeIntEn` changes intEn and nothing else -/

@[simp] theorem writeIntEn_n (s : State) (v : Word) : (s.writeIntEn v).n = s.n := rfl
@[simp] theorem writeIntEn_e (s : State) (v : Word) : (s.writeIntEn v).e = s.e := rfl
@[simp] theorem writeIntEn_d (s : State) (v : Word) : (s.writeIntEn v).d = s.d := rfl
@[simp] theorem writeIntEn_base (s : State) (v : Word) : (s.writeIntEn v).base = s.base := rfl
@[simp] theorem writeIntEn_result (s : State) (v : Word) : (s.writeIntEn v).result = s.result := rfl
@[simp] theorem writeIntEn_iv (s : State) (v : Word) : (s.writeIntEn v).iv = s.iv := rfl
@[simp] theorem writeIntEn_chain (s : State) (v : Word) : (s.writeIntEn v).chain = s.chain := rfl
@[simp] theorem writeIntEn_cfg (s : State) (v : Word) : (s.writeIntEn v).cfg = s.cfg := rfl
@[simp] theorem writeIntEn_blksz (s : State) (v : Word) : (s.writeIntEn v).blksz = s.blksz := rfl
@[simp] theorem writeIntEn_srcAddr (s : State) (v : Word) : (s.writeIntEn v).srcAddr = s.srcAddr := rfl
@[simp] theorem writeIntEn_srcLen (s : State) (v : Word) : (s.writeIntEn v).srcLen = s.srcLen := rfl
@[simp] theorem writeIntEn_dstAddr (s : State) (v : Word) : (s.writeIntEn v).dstAddr = s.dstAddr := rfl
@[simp] theorem writeIntEn_dstCap (s : State) (v : Word) : (s.writeIntEn v).dstCap = s.dstCap := rfl
@[simp] theorem writeIntEn_dstLen (s : State) (v : Word) : (s.writeIntEn v).dstLen = s.dstLen := rfl
@[simp] theorem writeIntEn_nbits (s : State) (v : Word) : (s.writeIntEn v).nbits = s.nbits := rfl
@[simp] theorem writeIntEn_cwidth (s : State) (v : Word) : (s.writeIntEn v).cwidth = s.cwidth := rfl
@[simp] theorem writeIntEn_ebs (s : State) (v : Word) : (s.writeIntEn v).ebs = s.ebs := rfl
@[simp] theorem writeIntEn_nblkTotal (s : State) (v : Word) : (s.writeIntEn v).nblkTotal = s.nblkTotal := rfl
@[simp] theorem writeIntEn_nblkDone (s : State) (v : Word) : (s.writeIntEn v).nblkDone = s.nblkDone := rfl
@[simp] theorem writeIntEn_outReq (s : State) (v : Word) : (s.writeIntEn v).outReq = s.outReq := rfl
@[simp] theorem writeIntEn_errInfo (s : State) (v : Word) : (s.writeIntEn v).errInfo = s.errInfo := rfl
@[simp] theorem writeIntEn_status (s : State) (v : Word) : (s.writeIntEn v).status = s.status := rfl
@[simp] theorem writeIntEn_intStat (s : State) (v : Word) : (s.writeIntEn v).intStat = s.intStat := rfl
@[simp] theorem writeIntEn_seq (s : State) (v : Word) : (s.writeIntEn v).seq = s.seq := rfl
@[simp] theorem writeIntEn_mem (s : State) (v : Word) : (s.writeIntEn v).mem = s.mem := rfl
@[simp] theorem writeIntEn_plat (s : State) (v : Word) : (s.writeIntEn v).plat = s.plat := rfl
@[simp] theorem writeIntEn_schedule (s : State) (v : Word) : (s.writeIntEn v).schedule = s.schedule := rfl
@[simp] theorem writeIntEn_turn (s : State) (v : Word) : (s.writeIntEn v).turn = s.turn := rfl
@[simp] theorem writeIntEn_resp (s : State) (v : Word) : (s.writeIntEn v).resp = s.resp := rfl
@[simp] theorem writeIntEn_posted (s : State) (v : Word) : (s.writeIntEn v).posted = s.posted := rfl
@[simp] theorem writeIntEn_unseen (s : State) (v : Word) : (s.writeIntEn v).unseen = s.unseen := rfl
@[simp] theorem writeIntEn_written (s : State) (v : Word) : (s.writeIntEn v).written = s.written := rfl
@[simp] theorem writeIntEn_stale (s : State) (v : Word) : (s.writeIntEn v).stale = s.stale := rfl
@[simp] theorem writeIntEn_raced (s : State) (v : Word) : (s.writeIntEn v).raced = s.raced := rfl
@[simp] theorem writeIntEn_unobserved (s : State) (v : Word) : (s.writeIntEn v).unobserved = s.unobserved := rfl
@[simp] theorem writeIntEn_oldInt (s : State) (v : Word) : (s.writeIntEn v).oldInt = s.oldInt := rfl
@[simp] theorem writeIntEn_draws (s : State) (v : Word) : (s.writeIntEn v).draws = s.draws := rfl

/-! ### `State.updateWidths` changes nbits, cwidth and nothing else -/

@[simp] theorem updateWidths_n (s : State) : (s.updateWidths).n = s.n := rfl
@[simp] theorem updateWidths_e (s : State) : (s.updateWidths).e = s.e := rfl
@[simp] theorem updateWidths_d (s : State) : (s.updateWidths).d = s.d := rfl
@[simp] theorem updateWidths_base (s : State) : (s.updateWidths).base = s.base := rfl
@[simp] theorem updateWidths_result (s : State) : (s.updateWidths).result = s.result := rfl
@[simp] theorem updateWidths_iv (s : State) : (s.updateWidths).iv = s.iv := rfl
@[simp] theorem updateWidths_chain (s : State) : (s.updateWidths).chain = s.chain := rfl
@[simp] theorem updateWidths_cfg (s : State) : (s.updateWidths).cfg = s.cfg := rfl
@[simp] theorem updateWidths_blksz (s : State) : (s.updateWidths).blksz = s.blksz := rfl
@[simp] theorem updateWidths_srcAddr (s : State) : (s.updateWidths).srcAddr = s.srcAddr := rfl
@[simp] theorem updateWidths_srcLen (s : State) : (s.updateWidths).srcLen = s.srcLen := rfl
@[simp] theorem updateWidths_dstAddr (s : State) : (s.updateWidths).dstAddr = s.dstAddr := rfl
@[simp] theorem updateWidths_dstCap (s : State) : (s.updateWidths).dstCap = s.dstCap := rfl
@[simp] theorem updateWidths_dstLen (s : State) : (s.updateWidths).dstLen = s.dstLen := rfl
@[simp] theorem updateWidths_ebs (s : State) : (s.updateWidths).ebs = s.ebs := rfl
@[simp] theorem updateWidths_nblkTotal (s : State) : (s.updateWidths).nblkTotal = s.nblkTotal := rfl
@[simp] theorem updateWidths_nblkDone (s : State) : (s.updateWidths).nblkDone = s.nblkDone := rfl
@[simp] theorem updateWidths_outReq (s : State) : (s.updateWidths).outReq = s.outReq := rfl
@[simp] theorem updateWidths_errInfo (s : State) : (s.updateWidths).errInfo = s.errInfo := rfl
@[simp] theorem updateWidths_status (s : State) : (s.updateWidths).status = s.status := rfl
@[simp] theorem updateWidths_intEn (s : State) : (s.updateWidths).intEn = s.intEn := rfl
@[simp] theorem updateWidths_intStat (s : State) : (s.updateWidths).intStat = s.intStat := rfl
@[simp] theorem updateWidths_seq (s : State) : (s.updateWidths).seq = s.seq := rfl
@[simp] theorem updateWidths_mem (s : State) : (s.updateWidths).mem = s.mem := rfl
@[simp] theorem updateWidths_plat (s : State) : (s.updateWidths).plat = s.plat := rfl
@[simp] theorem updateWidths_schedule (s : State) : (s.updateWidths).schedule = s.schedule := rfl
@[simp] theorem updateWidths_turn (s : State) : (s.updateWidths).turn = s.turn := rfl
@[simp] theorem updateWidths_resp (s : State) : (s.updateWidths).resp = s.resp := rfl
@[simp] theorem updateWidths_posted (s : State) : (s.updateWidths).posted = s.posted := rfl
@[simp] theorem updateWidths_unseen (s : State) : (s.updateWidths).unseen = s.unseen := rfl
@[simp] theorem updateWidths_written (s : State) : (s.updateWidths).written = s.written := rfl
@[simp] theorem updateWidths_stale (s : State) : (s.updateWidths).stale = s.stale := rfl
@[simp] theorem updateWidths_raced (s : State) : (s.updateWidths).raced = s.raced := rfl
@[simp] theorem updateWidths_unobserved (s : State) : (s.updateWidths).unobserved = s.unobserved := rfl
@[simp] theorem updateWidths_oldInt (s : State) : (s.updateWidths).oldInt = s.oldInt := rfl
@[simp] theorem updateWidths_draws (s : State) : (s.updateWidths).draws = s.draws := rfl

/-! ### `State.updateEbs` changes ebs and nothing else -/

@[simp] theorem updateEbs_n (s : State) : (s.updateEbs).n = s.n := rfl
@[simp] theorem updateEbs_e (s : State) : (s.updateEbs).e = s.e := rfl
@[simp] theorem updateEbs_d (s : State) : (s.updateEbs).d = s.d := rfl
@[simp] theorem updateEbs_base (s : State) : (s.updateEbs).base = s.base := rfl
@[simp] theorem updateEbs_result (s : State) : (s.updateEbs).result = s.result := rfl
@[simp] theorem updateEbs_iv (s : State) : (s.updateEbs).iv = s.iv := rfl
@[simp] theorem updateEbs_chain (s : State) : (s.updateEbs).chain = s.chain := rfl
@[simp] theorem updateEbs_cfg (s : State) : (s.updateEbs).cfg = s.cfg := rfl
@[simp] theorem updateEbs_blksz (s : State) : (s.updateEbs).blksz = s.blksz := rfl
@[simp] theorem updateEbs_srcAddr (s : State) : (s.updateEbs).srcAddr = s.srcAddr := rfl
@[simp] theorem updateEbs_srcLen (s : State) : (s.updateEbs).srcLen = s.srcLen := rfl
@[simp] theorem updateEbs_dstAddr (s : State) : (s.updateEbs).dstAddr = s.dstAddr := rfl
@[simp] theorem updateEbs_dstCap (s : State) : (s.updateEbs).dstCap = s.dstCap := rfl
@[simp] theorem updateEbs_dstLen (s : State) : (s.updateEbs).dstLen = s.dstLen := rfl
@[simp] theorem updateEbs_nbits (s : State) : (s.updateEbs).nbits = s.nbits := rfl
@[simp] theorem updateEbs_cwidth (s : State) : (s.updateEbs).cwidth = s.cwidth := rfl
@[simp] theorem updateEbs_nblkTotal (s : State) : (s.updateEbs).nblkTotal = s.nblkTotal := rfl
@[simp] theorem updateEbs_nblkDone (s : State) : (s.updateEbs).nblkDone = s.nblkDone := rfl
@[simp] theorem updateEbs_outReq (s : State) : (s.updateEbs).outReq = s.outReq := rfl
@[simp] theorem updateEbs_errInfo (s : State) : (s.updateEbs).errInfo = s.errInfo := rfl
@[simp] theorem updateEbs_status (s : State) : (s.updateEbs).status = s.status := rfl
@[simp] theorem updateEbs_intEn (s : State) : (s.updateEbs).intEn = s.intEn := rfl
@[simp] theorem updateEbs_intStat (s : State) : (s.updateEbs).intStat = s.intStat := rfl
@[simp] theorem updateEbs_seq (s : State) : (s.updateEbs).seq = s.seq := rfl
@[simp] theorem updateEbs_mem (s : State) : (s.updateEbs).mem = s.mem := rfl
@[simp] theorem updateEbs_plat (s : State) : (s.updateEbs).plat = s.plat := rfl
@[simp] theorem updateEbs_schedule (s : State) : (s.updateEbs).schedule = s.schedule := rfl
@[simp] theorem updateEbs_turn (s : State) : (s.updateEbs).turn = s.turn := rfl
@[simp] theorem updateEbs_resp (s : State) : (s.updateEbs).resp = s.resp := rfl
@[simp] theorem updateEbs_posted (s : State) : (s.updateEbs).posted = s.posted := rfl
@[simp] theorem updateEbs_unseen (s : State) : (s.updateEbs).unseen = s.unseen := rfl
@[simp] theorem updateEbs_written (s : State) : (s.updateEbs).written = s.written := rfl
@[simp] theorem updateEbs_stale (s : State) : (s.updateEbs).stale = s.stale := rfl
@[simp] theorem updateEbs_raced (s : State) : (s.updateEbs).raced = s.raced := rfl
@[simp] theorem updateEbs_unobserved (s : State) : (s.updateEbs).unobserved = s.unobserved := rfl
@[simp] theorem updateEbs_oldInt (s : State) : (s.updateEbs).oldInt = s.oldInt := rfl
@[simp] theorem updateEbs_draws (s : State) : (s.updateEbs).draws = s.draws := rfl

/-! ### `State.clearCounters` changes nblkDone, dstLen and nothing else -/

@[simp] theorem clearCounters_n (s : State) : (s.clearCounters).n = s.n := rfl
@[simp] theorem clearCounters_e (s : State) : (s.clearCounters).e = s.e := rfl
@[simp] theorem clearCounters_d (s : State) : (s.clearCounters).d = s.d := rfl
@[simp] theorem clearCounters_base (s : State) : (s.clearCounters).base = s.base := rfl
@[simp] theorem clearCounters_result (s : State) : (s.clearCounters).result = s.result := rfl
@[simp] theorem clearCounters_iv (s : State) : (s.clearCounters).iv = s.iv := rfl
@[simp] theorem clearCounters_chain (s : State) : (s.clearCounters).chain = s.chain := rfl
@[simp] theorem clearCounters_cfg (s : State) : (s.clearCounters).cfg = s.cfg := rfl
@[simp] theorem clearCounters_blksz (s : State) : (s.clearCounters).blksz = s.blksz := rfl
@[simp] theorem clearCounters_srcAddr (s : State) : (s.clearCounters).srcAddr = s.srcAddr := rfl
@[simp] theorem clearCounters_srcLen (s : State) : (s.clearCounters).srcLen = s.srcLen := rfl
@[simp] theorem clearCounters_dstAddr (s : State) : (s.clearCounters).dstAddr = s.dstAddr := rfl
@[simp] theorem clearCounters_dstCap (s : State) : (s.clearCounters).dstCap = s.dstCap := rfl
@[simp] theorem clearCounters_nbits (s : State) : (s.clearCounters).nbits = s.nbits := rfl
@[simp] theorem clearCounters_cwidth (s : State) : (s.clearCounters).cwidth = s.cwidth := rfl
@[simp] theorem clearCounters_ebs (s : State) : (s.clearCounters).ebs = s.ebs := rfl
@[simp] theorem clearCounters_nblkTotal (s : State) : (s.clearCounters).nblkTotal = s.nblkTotal := rfl
@[simp] theorem clearCounters_outReq (s : State) : (s.clearCounters).outReq = s.outReq := rfl
@[simp] theorem clearCounters_errInfo (s : State) : (s.clearCounters).errInfo = s.errInfo := rfl
@[simp] theorem clearCounters_status (s : State) : (s.clearCounters).status = s.status := rfl
@[simp] theorem clearCounters_intEn (s : State) : (s.clearCounters).intEn = s.intEn := rfl
@[simp] theorem clearCounters_intStat (s : State) : (s.clearCounters).intStat = s.intStat := rfl
@[simp] theorem clearCounters_seq (s : State) : (s.clearCounters).seq = s.seq := rfl
@[simp] theorem clearCounters_mem (s : State) : (s.clearCounters).mem = s.mem := rfl
@[simp] theorem clearCounters_plat (s : State) : (s.clearCounters).plat = s.plat := rfl
@[simp] theorem clearCounters_schedule (s : State) : (s.clearCounters).schedule = s.schedule := rfl
@[simp] theorem clearCounters_turn (s : State) : (s.clearCounters).turn = s.turn := rfl
@[simp] theorem clearCounters_resp (s : State) : (s.clearCounters).resp = s.resp := rfl
@[simp] theorem clearCounters_posted (s : State) : (s.clearCounters).posted = s.posted := rfl
@[simp] theorem clearCounters_unseen (s : State) : (s.clearCounters).unseen = s.unseen := rfl
@[simp] theorem clearCounters_written (s : State) : (s.clearCounters).written = s.written := rfl
@[simp] theorem clearCounters_stale (s : State) : (s.clearCounters).stale = s.stale := rfl
@[simp] theorem clearCounters_raced (s : State) : (s.clearCounters).raced = s.raced := rfl
@[simp] theorem clearCounters_unobserved (s : State) : (s.clearCounters).unobserved = s.unobserved := rfl
@[simp] theorem clearCounters_oldInt (s : State) : (s.clearCounters).oldInt = s.oldInt := rfl
@[simp] theorem clearCounters_draws (s : State) : (s.clearCounters).draws = s.draws := rfl

/-! ### `State.setPlan` changes nblkTotal, outReq, seq and nothing else -/

@[simp] theorem setPlan_n (s : State) (p : Plan) : (s.setPlan p).n = s.n := rfl
@[simp] theorem setPlan_e (s : State) (p : Plan) : (s.setPlan p).e = s.e := rfl
@[simp] theorem setPlan_d (s : State) (p : Plan) : (s.setPlan p).d = s.d := rfl
@[simp] theorem setPlan_base (s : State) (p : Plan) : (s.setPlan p).base = s.base := rfl
@[simp] theorem setPlan_result (s : State) (p : Plan) : (s.setPlan p).result = s.result := rfl
@[simp] theorem setPlan_iv (s : State) (p : Plan) : (s.setPlan p).iv = s.iv := rfl
@[simp] theorem setPlan_chain (s : State) (p : Plan) : (s.setPlan p).chain = s.chain := rfl
@[simp] theorem setPlan_cfg (s : State) (p : Plan) : (s.setPlan p).cfg = s.cfg := rfl
@[simp] theorem setPlan_blksz (s : State) (p : Plan) : (s.setPlan p).blksz = s.blksz := rfl
@[simp] theorem setPlan_srcAddr (s : State) (p : Plan) : (s.setPlan p).srcAddr = s.srcAddr := rfl
@[simp] theorem setPlan_srcLen (s : State) (p : Plan) : (s.setPlan p).srcLen = s.srcLen := rfl
@[simp] theorem setPlan_dstAddr (s : State) (p : Plan) : (s.setPlan p).dstAddr = s.dstAddr := rfl
@[simp] theorem setPlan_dstCap (s : State) (p : Plan) : (s.setPlan p).dstCap = s.dstCap := rfl
@[simp] theorem setPlan_dstLen (s : State) (p : Plan) : (s.setPlan p).dstLen = s.dstLen := rfl
@[simp] theorem setPlan_nbits (s : State) (p : Plan) : (s.setPlan p).nbits = s.nbits := rfl
@[simp] theorem setPlan_cwidth (s : State) (p : Plan) : (s.setPlan p).cwidth = s.cwidth := rfl
@[simp] theorem setPlan_ebs (s : State) (p : Plan) : (s.setPlan p).ebs = s.ebs := rfl
@[simp] theorem setPlan_nblkDone (s : State) (p : Plan) : (s.setPlan p).nblkDone = s.nblkDone := rfl
@[simp] theorem setPlan_errInfo (s : State) (p : Plan) : (s.setPlan p).errInfo = s.errInfo := rfl
@[simp] theorem setPlan_status (s : State) (p : Plan) : (s.setPlan p).status = s.status := rfl
@[simp] theorem setPlan_intEn (s : State) (p : Plan) : (s.setPlan p).intEn = s.intEn := rfl
@[simp] theorem setPlan_intStat (s : State) (p : Plan) : (s.setPlan p).intStat = s.intStat := rfl
@[simp] theorem setPlan_mem (s : State) (p : Plan) : (s.setPlan p).mem = s.mem := rfl
@[simp] theorem setPlan_plat (s : State) (p : Plan) : (s.setPlan p).plat = s.plat := rfl
@[simp] theorem setPlan_schedule (s : State) (p : Plan) : (s.setPlan p).schedule = s.schedule := rfl
@[simp] theorem setPlan_turn (s : State) (p : Plan) : (s.setPlan p).turn = s.turn := rfl
@[simp] theorem setPlan_resp (s : State) (p : Plan) : (s.setPlan p).resp = s.resp := rfl
@[simp] theorem setPlan_posted (s : State) (p : Plan) : (s.setPlan p).posted = s.posted := rfl
@[simp] theorem setPlan_unseen (s : State) (p : Plan) : (s.setPlan p).unseen = s.unseen := rfl
@[simp] theorem setPlan_written (s : State) (p : Plan) : (s.setPlan p).written = s.written := rfl
@[simp] theorem setPlan_stale (s : State) (p : Plan) : (s.setPlan p).stale = s.stale := rfl
@[simp] theorem setPlan_raced (s : State) (p : Plan) : (s.setPlan p).raced = s.raced := rfl
@[simp] theorem setPlan_unobserved (s : State) (p : Plan) : (s.setPlan p).unobserved = s.unobserved := rfl
@[simp] theorem setPlan_oldInt (s : State) (p : Plan) : (s.setPlan p).oldInt = s.oldInt := rfl
@[simp] theorem setPlan_draws (s : State) (p : Plan) : (s.setPlan p).draws = s.draws := rfl

/-! ### `State.setChain` changes chain and nothing else -/

@[simp] theorem setChain_n (s : State) (bs : List Byte) : (s.setChain bs).n = s.n := rfl
@[simp] theorem setChain_e (s : State) (bs : List Byte) : (s.setChain bs).e = s.e := rfl
@[simp] theorem setChain_d (s : State) (bs : List Byte) : (s.setChain bs).d = s.d := rfl
@[simp] theorem setChain_base (s : State) (bs : List Byte) : (s.setChain bs).base = s.base := rfl
@[simp] theorem setChain_result (s : State) (bs : List Byte) : (s.setChain bs).result = s.result := rfl
@[simp] theorem setChain_iv (s : State) (bs : List Byte) : (s.setChain bs).iv = s.iv := rfl
@[simp] theorem setChain_cfg (s : State) (bs : List Byte) : (s.setChain bs).cfg = s.cfg := rfl
@[simp] theorem setChain_blksz (s : State) (bs : List Byte) : (s.setChain bs).blksz = s.blksz := rfl
@[simp] theorem setChain_srcAddr (s : State) (bs : List Byte) : (s.setChain bs).srcAddr = s.srcAddr := rfl
@[simp] theorem setChain_srcLen (s : State) (bs : List Byte) : (s.setChain bs).srcLen = s.srcLen := rfl
@[simp] theorem setChain_dstAddr (s : State) (bs : List Byte) : (s.setChain bs).dstAddr = s.dstAddr := rfl
@[simp] theorem setChain_dstCap (s : State) (bs : List Byte) : (s.setChain bs).dstCap = s.dstCap := rfl
@[simp] theorem setChain_dstLen (s : State) (bs : List Byte) : (s.setChain bs).dstLen = s.dstLen := rfl
@[simp] theorem setChain_nbits (s : State) (bs : List Byte) : (s.setChain bs).nbits = s.nbits := rfl
@[simp] theorem setChain_cwidth (s : State) (bs : List Byte) : (s.setChain bs).cwidth = s.cwidth := rfl
@[simp] theorem setChain_ebs (s : State) (bs : List Byte) : (s.setChain bs).ebs = s.ebs := rfl
@[simp] theorem setChain_nblkTotal (s : State) (bs : List Byte) : (s.setChain bs).nblkTotal = s.nblkTotal := rfl
@[simp] theorem setChain_nblkDone (s : State) (bs : List Byte) : (s.setChain bs).nblkDone = s.nblkDone := rfl
@[simp] theorem setChain_outReq (s : State) (bs : List Byte) : (s.setChain bs).outReq = s.outReq := rfl
@[simp] theorem setChain_errInfo (s : State) (bs : List Byte) : (s.setChain bs).errInfo = s.errInfo := rfl
@[simp] theorem setChain_status (s : State) (bs : List Byte) : (s.setChain bs).status = s.status := rfl
@[simp] theorem setChain_intEn (s : State) (bs : List Byte) : (s.setChain bs).intEn = s.intEn := rfl
@[simp] theorem setChain_intStat (s : State) (bs : List Byte) : (s.setChain bs).intStat = s.intStat := rfl
@[simp] theorem setChain_seq (s : State) (bs : List Byte) : (s.setChain bs).seq = s.seq := rfl
@[simp] theorem setChain_mem (s : State) (bs : List Byte) : (s.setChain bs).mem = s.mem := rfl
@[simp] theorem setChain_plat (s : State) (bs : List Byte) : (s.setChain bs).plat = s.plat := rfl
@[simp] theorem setChain_schedule (s : State) (bs : List Byte) : (s.setChain bs).schedule = s.schedule := rfl
@[simp] theorem setChain_turn (s : State) (bs : List Byte) : (s.setChain bs).turn = s.turn := rfl
@[simp] theorem setChain_resp (s : State) (bs : List Byte) : (s.setChain bs).resp = s.resp := rfl
@[simp] theorem setChain_posted (s : State) (bs : List Byte) : (s.setChain bs).posted = s.posted := rfl
@[simp] theorem setChain_unseen (s : State) (bs : List Byte) : (s.setChain bs).unseen = s.unseen := rfl
@[simp] theorem setChain_written (s : State) (bs : List Byte) : (s.setChain bs).written = s.written := rfl
@[simp] theorem setChain_stale (s : State) (bs : List Byte) : (s.setChain bs).stale = s.stale := rfl
@[simp] theorem setChain_raced (s : State) (bs : List Byte) : (s.setChain bs).raced = s.raced := rfl
@[simp] theorem setChain_unobserved (s : State) (bs : List Byte) : (s.setChain bs).unobserved = s.unobserved := rfl
@[simp] theorem setChain_oldInt (s : State) (bs : List Byte) : (s.setChain bs).oldInt = s.oldInt := rfl
@[simp] theorem setChain_draws (s : State) (bs : List Byte) : (s.setChain bs).draws = s.draws := rfl

/-! ### `State.clearChain` changes chain and nothing else -/

@[simp] theorem clearChain_n (s : State) : (s.clearChain).n = s.n := rfl
@[simp] theorem clearChain_e (s : State) : (s.clearChain).e = s.e := rfl
@[simp] theorem clearChain_d (s : State) : (s.clearChain).d = s.d := rfl
@[simp] theorem clearChain_base (s : State) : (s.clearChain).base = s.base := rfl
@[simp] theorem clearChain_result (s : State) : (s.clearChain).result = s.result := rfl
@[simp] theorem clearChain_iv (s : State) : (s.clearChain).iv = s.iv := rfl
@[simp] theorem clearChain_cfg (s : State) : (s.clearChain).cfg = s.cfg := rfl
@[simp] theorem clearChain_blksz (s : State) : (s.clearChain).blksz = s.blksz := rfl
@[simp] theorem clearChain_srcAddr (s : State) : (s.clearChain).srcAddr = s.srcAddr := rfl
@[simp] theorem clearChain_srcLen (s : State) : (s.clearChain).srcLen = s.srcLen := rfl
@[simp] theorem clearChain_dstAddr (s : State) : (s.clearChain).dstAddr = s.dstAddr := rfl
@[simp] theorem clearChain_dstCap (s : State) : (s.clearChain).dstCap = s.dstCap := rfl
@[simp] theorem clearChain_dstLen (s : State) : (s.clearChain).dstLen = s.dstLen := rfl
@[simp] theorem clearChain_nbits (s : State) : (s.clearChain).nbits = s.nbits := rfl
@[simp] theorem clearChain_cwidth (s : State) : (s.clearChain).cwidth = s.cwidth := rfl
@[simp] theorem clearChain_ebs (s : State) : (s.clearChain).ebs = s.ebs := rfl
@[simp] theorem clearChain_nblkTotal (s : State) : (s.clearChain).nblkTotal = s.nblkTotal := rfl
@[simp] theorem clearChain_nblkDone (s : State) : (s.clearChain).nblkDone = s.nblkDone := rfl
@[simp] theorem clearChain_outReq (s : State) : (s.clearChain).outReq = s.outReq := rfl
@[simp] theorem clearChain_errInfo (s : State) : (s.clearChain).errInfo = s.errInfo := rfl
@[simp] theorem clearChain_status (s : State) : (s.clearChain).status = s.status := rfl
@[simp] theorem clearChain_intEn (s : State) : (s.clearChain).intEn = s.intEn := rfl
@[simp] theorem clearChain_intStat (s : State) : (s.clearChain).intStat = s.intStat := rfl
@[simp] theorem clearChain_seq (s : State) : (s.clearChain).seq = s.seq := rfl
@[simp] theorem clearChain_mem (s : State) : (s.clearChain).mem = s.mem := rfl
@[simp] theorem clearChain_plat (s : State) : (s.clearChain).plat = s.plat := rfl
@[simp] theorem clearChain_schedule (s : State) : (s.clearChain).schedule = s.schedule := rfl
@[simp] theorem clearChain_turn (s : State) : (s.clearChain).turn = s.turn := rfl
@[simp] theorem clearChain_resp (s : State) : (s.clearChain).resp = s.resp := rfl
@[simp] theorem clearChain_posted (s : State) : (s.clearChain).posted = s.posted := rfl
@[simp] theorem clearChain_unseen (s : State) : (s.clearChain).unseen = s.unseen := rfl
@[simp] theorem clearChain_written (s : State) : (s.clearChain).written = s.written := rfl
@[simp] theorem clearChain_stale (s : State) : (s.clearChain).stale = s.stale := rfl
@[simp] theorem clearChain_raced (s : State) : (s.clearChain).raced = s.raced := rfl
@[simp] theorem clearChain_unobserved (s : State) : (s.clearChain).unobserved = s.unobserved := rfl
@[simp] theorem clearChain_oldInt (s : State) : (s.clearChain).oldInt = s.oldInt := rfl
@[simp] theorem clearChain_draws (s : State) : (s.clearChain).draws = s.draws := rfl

/-! ### `State.blockDone` changes dstLen, nblkDone, seq and nothing else -/

@[simp] theorem blockDone_n (s : State) (w : Word) : (s.blockDone w).n = s.n := rfl
@[simp] theorem blockDone_e (s : State) (w : Word) : (s.blockDone w).e = s.e := rfl
@[simp] theorem blockDone_d (s : State) (w : Word) : (s.blockDone w).d = s.d := rfl
@[simp] theorem blockDone_base (s : State) (w : Word) : (s.blockDone w).base = s.base := rfl
@[simp] theorem blockDone_result (s : State) (w : Word) : (s.blockDone w).result = s.result := rfl
@[simp] theorem blockDone_iv (s : State) (w : Word) : (s.blockDone w).iv = s.iv := rfl
@[simp] theorem blockDone_chain (s : State) (w : Word) : (s.blockDone w).chain = s.chain := rfl
@[simp] theorem blockDone_cfg (s : State) (w : Word) : (s.blockDone w).cfg = s.cfg := rfl
@[simp] theorem blockDone_blksz (s : State) (w : Word) : (s.blockDone w).blksz = s.blksz := rfl
@[simp] theorem blockDone_srcAddr (s : State) (w : Word) : (s.blockDone w).srcAddr = s.srcAddr := rfl
@[simp] theorem blockDone_srcLen (s : State) (w : Word) : (s.blockDone w).srcLen = s.srcLen := rfl
@[simp] theorem blockDone_dstAddr (s : State) (w : Word) : (s.blockDone w).dstAddr = s.dstAddr := rfl
@[simp] theorem blockDone_dstCap (s : State) (w : Word) : (s.blockDone w).dstCap = s.dstCap := rfl
@[simp] theorem blockDone_nbits (s : State) (w : Word) : (s.blockDone w).nbits = s.nbits := rfl
@[simp] theorem blockDone_cwidth (s : State) (w : Word) : (s.blockDone w).cwidth = s.cwidth := rfl
@[simp] theorem blockDone_ebs (s : State) (w : Word) : (s.blockDone w).ebs = s.ebs := rfl
@[simp] theorem blockDone_nblkTotal (s : State) (w : Word) : (s.blockDone w).nblkTotal = s.nblkTotal := rfl
@[simp] theorem blockDone_outReq (s : State) (w : Word) : (s.blockDone w).outReq = s.outReq := rfl
@[simp] theorem blockDone_errInfo (s : State) (w : Word) : (s.blockDone w).errInfo = s.errInfo := rfl
@[simp] theorem blockDone_status (s : State) (w : Word) : (s.blockDone w).status = s.status := rfl
@[simp] theorem blockDone_intEn (s : State) (w : Word) : (s.blockDone w).intEn = s.intEn := rfl
@[simp] theorem blockDone_intStat (s : State) (w : Word) : (s.blockDone w).intStat = s.intStat := rfl
@[simp] theorem blockDone_mem (s : State) (w : Word) : (s.blockDone w).mem = s.mem := rfl
@[simp] theorem blockDone_plat (s : State) (w : Word) : (s.blockDone w).plat = s.plat := rfl
@[simp] theorem blockDone_schedule (s : State) (w : Word) : (s.blockDone w).schedule = s.schedule := rfl
@[simp] theorem blockDone_turn (s : State) (w : Word) : (s.blockDone w).turn = s.turn := rfl
@[simp] theorem blockDone_resp (s : State) (w : Word) : (s.blockDone w).resp = s.resp := rfl
@[simp] theorem blockDone_posted (s : State) (w : Word) : (s.blockDone w).posted = s.posted := rfl
@[simp] theorem blockDone_unseen (s : State) (w : Word) : (s.blockDone w).unseen = s.unseen := rfl
@[simp] theorem blockDone_written (s : State) (w : Word) : (s.blockDone w).written = s.written := rfl
@[simp] theorem blockDone_stale (s : State) (w : Word) : (s.blockDone w).stale = s.stale := rfl
@[simp] theorem blockDone_raced (s : State) (w : Word) : (s.blockDone w).raced = s.raced := rfl
@[simp] theorem blockDone_unobserved (s : State) (w : Word) : (s.blockDone w).unobserved = s.unobserved := rfl
@[simp] theorem blockDone_oldInt (s : State) (w : Word) : (s.blockDone w).oldInt = s.oldInt := rfl
@[simp] theorem blockDone_draws (s : State) (w : Word) : (s.blockDone w).draws = s.draws := rfl

/-! ### `State.dmaPut` changes mem, written, posted, stale, unobserved and nothing else -/

@[simp] theorem dmaPut_n (s : State) (a : Nat) (bs : List Byte) : (s.dmaPut a bs).n = s.n := rfl
@[simp] theorem dmaPut_e (s : State) (a : Nat) (bs : List Byte) : (s.dmaPut a bs).e = s.e := rfl
@[simp] theorem dmaPut_d (s : State) (a : Nat) (bs : List Byte) : (s.dmaPut a bs).d = s.d := rfl
@[simp] theorem dmaPut_base (s : State) (a : Nat) (bs : List Byte) : (s.dmaPut a bs).base = s.base := rfl
@[simp] theorem dmaPut_result (s : State) (a : Nat) (bs : List Byte) : (s.dmaPut a bs).result = s.result := rfl
@[simp] theorem dmaPut_iv (s : State) (a : Nat) (bs : List Byte) : (s.dmaPut a bs).iv = s.iv := rfl
@[simp] theorem dmaPut_chain (s : State) (a : Nat) (bs : List Byte) : (s.dmaPut a bs).chain = s.chain := rfl
@[simp] theorem dmaPut_cfg (s : State) (a : Nat) (bs : List Byte) : (s.dmaPut a bs).cfg = s.cfg := rfl
@[simp] theorem dmaPut_blksz (s : State) (a : Nat) (bs : List Byte) : (s.dmaPut a bs).blksz = s.blksz := rfl
@[simp] theorem dmaPut_srcAddr (s : State) (a : Nat) (bs : List Byte) : (s.dmaPut a bs).srcAddr = s.srcAddr := rfl
@[simp] theorem dmaPut_srcLen (s : State) (a : Nat) (bs : List Byte) : (s.dmaPut a bs).srcLen = s.srcLen := rfl
@[simp] theorem dmaPut_dstAddr (s : State) (a : Nat) (bs : List Byte) : (s.dmaPut a bs).dstAddr = s.dstAddr := rfl
@[simp] theorem dmaPut_dstCap (s : State) (a : Nat) (bs : List Byte) : (s.dmaPut a bs).dstCap = s.dstCap := rfl
@[simp] theorem dmaPut_dstLen (s : State) (a : Nat) (bs : List Byte) : (s.dmaPut a bs).dstLen = s.dstLen := rfl
@[simp] theorem dmaPut_nbits (s : State) (a : Nat) (bs : List Byte) : (s.dmaPut a bs).nbits = s.nbits := rfl
@[simp] theorem dmaPut_cwidth (s : State) (a : Nat) (bs : List Byte) : (s.dmaPut a bs).cwidth = s.cwidth := rfl
@[simp] theorem dmaPut_ebs (s : State) (a : Nat) (bs : List Byte) : (s.dmaPut a bs).ebs = s.ebs := rfl
@[simp] theorem dmaPut_nblkTotal (s : State) (a : Nat) (bs : List Byte) : (s.dmaPut a bs).nblkTotal = s.nblkTotal := rfl
@[simp] theorem dmaPut_nblkDone (s : State) (a : Nat) (bs : List Byte) : (s.dmaPut a bs).nblkDone = s.nblkDone := rfl
@[simp] theorem dmaPut_outReq (s : State) (a : Nat) (bs : List Byte) : (s.dmaPut a bs).outReq = s.outReq := rfl
@[simp] theorem dmaPut_errInfo (s : State) (a : Nat) (bs : List Byte) : (s.dmaPut a bs).errInfo = s.errInfo := rfl
@[simp] theorem dmaPut_status (s : State) (a : Nat) (bs : List Byte) : (s.dmaPut a bs).status = s.status := rfl
@[simp] theorem dmaPut_intEn (s : State) (a : Nat) (bs : List Byte) : (s.dmaPut a bs).intEn = s.intEn := rfl
@[simp] theorem dmaPut_intStat (s : State) (a : Nat) (bs : List Byte) : (s.dmaPut a bs).intStat = s.intStat := rfl
@[simp] theorem dmaPut_seq (s : State) (a : Nat) (bs : List Byte) : (s.dmaPut a bs).seq = s.seq := rfl
@[simp] theorem dmaPut_plat (s : State) (a : Nat) (bs : List Byte) : (s.dmaPut a bs).plat = s.plat := rfl
@[simp] theorem dmaPut_schedule (s : State) (a : Nat) (bs : List Byte) : (s.dmaPut a bs).schedule = s.schedule := rfl
@[simp] theorem dmaPut_turn (s : State) (a : Nat) (bs : List Byte) : (s.dmaPut a bs).turn = s.turn := rfl
@[simp] theorem dmaPut_resp (s : State) (a : Nat) (bs : List Byte) : (s.dmaPut a bs).resp = s.resp := rfl
@[simp] theorem dmaPut_unseen (s : State) (a : Nat) (bs : List Byte) : (s.dmaPut a bs).unseen = s.unseen := rfl
@[simp] theorem dmaPut_raced (s : State) (a : Nat) (bs : List Byte) : (s.dmaPut a bs).raced = s.raced := rfl
@[simp] theorem dmaPut_oldInt (s : State) (a : Nat) (bs : List Byte) : (s.dmaPut a bs).oldInt = s.oldInt := rfl
@[simp] theorem dmaPut_draws (s : State) (a : Nat) (bs : List Byte) : (s.dmaPut a bs).draws = s.draws := rfl

/-! ### `State.drawRange` changes mem, written, posted, stale, unobserved, draws and nothing else -/

@[simp] theorem drawRange_n (s : State) (a k : Nat) : (s.drawRange a k).n = s.n := rfl
@[simp] theorem drawRange_e (s : State) (a k : Nat) : (s.drawRange a k).e = s.e := rfl
@[simp] theorem drawRange_d (s : State) (a k : Nat) : (s.drawRange a k).d = s.d := rfl
@[simp] theorem drawRange_base (s : State) (a k : Nat) : (s.drawRange a k).base = s.base := rfl
@[simp] theorem drawRange_result (s : State) (a k : Nat) : (s.drawRange a k).result = s.result := rfl
@[simp] theorem drawRange_iv (s : State) (a k : Nat) : (s.drawRange a k).iv = s.iv := rfl
@[simp] theorem drawRange_chain (s : State) (a k : Nat) : (s.drawRange a k).chain = s.chain := rfl
@[simp] theorem drawRange_cfg (s : State) (a k : Nat) : (s.drawRange a k).cfg = s.cfg := rfl
@[simp] theorem drawRange_blksz (s : State) (a k : Nat) : (s.drawRange a k).blksz = s.blksz := rfl
@[simp] theorem drawRange_srcAddr (s : State) (a k : Nat) : (s.drawRange a k).srcAddr = s.srcAddr := rfl
@[simp] theorem drawRange_srcLen (s : State) (a k : Nat) : (s.drawRange a k).srcLen = s.srcLen := rfl
@[simp] theorem drawRange_dstAddr (s : State) (a k : Nat) : (s.drawRange a k).dstAddr = s.dstAddr := rfl
@[simp] theorem drawRange_dstCap (s : State) (a k : Nat) : (s.drawRange a k).dstCap = s.dstCap := rfl
@[simp] theorem drawRange_dstLen (s : State) (a k : Nat) : (s.drawRange a k).dstLen = s.dstLen := rfl
@[simp] theorem drawRange_nbits (s : State) (a k : Nat) : (s.drawRange a k).nbits = s.nbits := rfl
@[simp] theorem drawRange_cwidth (s : State) (a k : Nat) : (s.drawRange a k).cwidth = s.cwidth := rfl
@[simp] theorem drawRange_ebs (s : State) (a k : Nat) : (s.drawRange a k).ebs = s.ebs := rfl
@[simp] theorem drawRange_nblkTotal (s : State) (a k : Nat) : (s.drawRange a k).nblkTotal = s.nblkTotal := rfl
@[simp] theorem drawRange_nblkDone (s : State) (a k : Nat) : (s.drawRange a k).nblkDone = s.nblkDone := rfl
@[simp] theorem drawRange_outReq (s : State) (a k : Nat) : (s.drawRange a k).outReq = s.outReq := rfl
@[simp] theorem drawRange_errInfo (s : State) (a k : Nat) : (s.drawRange a k).errInfo = s.errInfo := rfl
@[simp] theorem drawRange_status (s : State) (a k : Nat) : (s.drawRange a k).status = s.status := rfl
@[simp] theorem drawRange_intEn (s : State) (a k : Nat) : (s.drawRange a k).intEn = s.intEn := rfl
@[simp] theorem drawRange_intStat (s : State) (a k : Nat) : (s.drawRange a k).intStat = s.intStat := rfl
@[simp] theorem drawRange_seq (s : State) (a k : Nat) : (s.drawRange a k).seq = s.seq := rfl
@[simp] theorem drawRange_plat (s : State) (a k : Nat) : (s.drawRange a k).plat = s.plat := rfl
@[simp] theorem drawRange_schedule (s : State) (a k : Nat) : (s.drawRange a k).schedule = s.schedule := rfl
@[simp] theorem drawRange_turn (s : State) (a k : Nat) : (s.drawRange a k).turn = s.turn := rfl
@[simp] theorem drawRange_resp (s : State) (a k : Nat) : (s.drawRange a k).resp = s.resp := rfl
@[simp] theorem drawRange_unseen (s : State) (a k : Nat) : (s.drawRange a k).unseen = s.unseen := rfl
@[simp] theorem drawRange_raced (s : State) (a k : Nat) : (s.drawRange a k).raced = s.raced := rfl
@[simp] theorem drawRange_oldInt (s : State) (a k : Nat) : (s.drawRange a k).oldInt = s.oldInt := rfl

/-! ### `State.drawPending` changes mem, written, posted, stale, unobserved, draws and nothing else -/

@[simp] theorem drawPending_n (s : State) : (s.drawPending).n = s.n := rfl
@[simp] theorem drawPending_e (s : State) : (s.drawPending).e = s.e := rfl
@[simp] theorem drawPending_d (s : State) : (s.drawPending).d = s.d := rfl
@[simp] theorem drawPending_base (s : State) : (s.drawPending).base = s.base := rfl
@[simp] theorem drawPending_result (s : State) : (s.drawPending).result = s.result := rfl
@[simp] theorem drawPending_iv (s : State) : (s.drawPending).iv = s.iv := rfl
@[simp] theorem drawPending_chain (s : State) : (s.drawPending).chain = s.chain := rfl
@[simp] theorem drawPending_cfg (s : State) : (s.drawPending).cfg = s.cfg := rfl
@[simp] theorem drawPending_blksz (s : State) : (s.drawPending).blksz = s.blksz := rfl
@[simp] theorem drawPending_srcAddr (s : State) : (s.drawPending).srcAddr = s.srcAddr := rfl
@[simp] theorem drawPending_srcLen (s : State) : (s.drawPending).srcLen = s.srcLen := rfl
@[simp] theorem drawPending_dstAddr (s : State) : (s.drawPending).dstAddr = s.dstAddr := rfl
@[simp] theorem drawPending_dstCap (s : State) : (s.drawPending).dstCap = s.dstCap := rfl
@[simp] theorem drawPending_dstLen (s : State) : (s.drawPending).dstLen = s.dstLen := rfl
@[simp] theorem drawPending_nbits (s : State) : (s.drawPending).nbits = s.nbits := rfl
@[simp] theorem drawPending_cwidth (s : State) : (s.drawPending).cwidth = s.cwidth := rfl
@[simp] theorem drawPending_ebs (s : State) : (s.drawPending).ebs = s.ebs := rfl
@[simp] theorem drawPending_nblkTotal (s : State) : (s.drawPending).nblkTotal = s.nblkTotal := rfl
@[simp] theorem drawPending_nblkDone (s : State) : (s.drawPending).nblkDone = s.nblkDone := rfl
@[simp] theorem drawPending_outReq (s : State) : (s.drawPending).outReq = s.outReq := rfl
@[simp] theorem drawPending_errInfo (s : State) : (s.drawPending).errInfo = s.errInfo := rfl
@[simp] theorem drawPending_status (s : State) : (s.drawPending).status = s.status := rfl
@[simp] theorem drawPending_intEn (s : State) : (s.drawPending).intEn = s.intEn := rfl
@[simp] theorem drawPending_intStat (s : State) : (s.drawPending).intStat = s.intStat := rfl
@[simp] theorem drawPending_seq (s : State) : (s.drawPending).seq = s.seq := rfl
@[simp] theorem drawPending_plat (s : State) : (s.drawPending).plat = s.plat := rfl
@[simp] theorem drawPending_schedule (s : State) : (s.drawPending).schedule = s.schedule := rfl
@[simp] theorem drawPending_turn (s : State) : (s.drawPending).turn = s.turn := rfl
@[simp] theorem drawPending_resp (s : State) : (s.drawPending).resp = s.resp := rfl
@[simp] theorem drawPending_unseen (s : State) : (s.drawPending).unseen = s.unseen := rfl
@[simp] theorem drawPending_raced (s : State) : (s.drawPending).raced = s.raced := rfl
@[simp] theorem drawPending_oldInt (s : State) : (s.drawPending).oldInt = s.oldInt := rfl

/-! ### `State.drawDst` changes mem, written, posted, stale, unobserved, draws and nothing else -/

@[simp] theorem drawDst_n (s : State) (a k : Nat) : (s.drawDst a k).n = s.n := by simp [State.drawDst]
@[simp] theorem drawDst_e (s : State) (a k : Nat) : (s.drawDst a k).e = s.e := by simp [State.drawDst]
@[simp] theorem drawDst_d (s : State) (a k : Nat) : (s.drawDst a k).d = s.d := by simp [State.drawDst]
@[simp] theorem drawDst_base (s : State) (a k : Nat) : (s.drawDst a k).base = s.base := by simp [State.drawDst]
@[simp] theorem drawDst_result (s : State) (a k : Nat) : (s.drawDst a k).result = s.result := by simp [State.drawDst]
@[simp] theorem drawDst_iv (s : State) (a k : Nat) : (s.drawDst a k).iv = s.iv := by simp [State.drawDst]
@[simp] theorem drawDst_chain (s : State) (a k : Nat) : (s.drawDst a k).chain = s.chain := by simp [State.drawDst]
@[simp] theorem drawDst_cfg (s : State) (a k : Nat) : (s.drawDst a k).cfg = s.cfg := by simp [State.drawDst]
@[simp] theorem drawDst_blksz (s : State) (a k : Nat) : (s.drawDst a k).blksz = s.blksz := by simp [State.drawDst]
@[simp] theorem drawDst_srcAddr (s : State) (a k : Nat) : (s.drawDst a k).srcAddr = s.srcAddr := by simp [State.drawDst]
@[simp] theorem drawDst_srcLen (s : State) (a k : Nat) : (s.drawDst a k).srcLen = s.srcLen := by simp [State.drawDst]
@[simp] theorem drawDst_dstAddr (s : State) (a k : Nat) : (s.drawDst a k).dstAddr = s.dstAddr := by simp [State.drawDst]
@[simp] theorem drawDst_dstCap (s : State) (a k : Nat) : (s.drawDst a k).dstCap = s.dstCap := by simp [State.drawDst]
@[simp] theorem drawDst_dstLen (s : State) (a k : Nat) : (s.drawDst a k).dstLen = s.dstLen := by simp [State.drawDst]
@[simp] theorem drawDst_nbits (s : State) (a k : Nat) : (s.drawDst a k).nbits = s.nbits := by simp [State.drawDst]
@[simp] theorem drawDst_cwidth (s : State) (a k : Nat) : (s.drawDst a k).cwidth = s.cwidth := by simp [State.drawDst]
@[simp] theorem drawDst_ebs (s : State) (a k : Nat) : (s.drawDst a k).ebs = s.ebs := by simp [State.drawDst]
@[simp] theorem drawDst_nblkTotal (s : State) (a k : Nat) : (s.drawDst a k).nblkTotal = s.nblkTotal := by simp [State.drawDst]
@[simp] theorem drawDst_nblkDone (s : State) (a k : Nat) : (s.drawDst a k).nblkDone = s.nblkDone := by simp [State.drawDst]
@[simp] theorem drawDst_outReq (s : State) (a k : Nat) : (s.drawDst a k).outReq = s.outReq := by simp [State.drawDst]
@[simp] theorem drawDst_errInfo (s : State) (a k : Nat) : (s.drawDst a k).errInfo = s.errInfo := by simp [State.drawDst]
@[simp] theorem drawDst_status (s : State) (a k : Nat) : (s.drawDst a k).status = s.status := by simp [State.drawDst]
@[simp] theorem drawDst_intEn (s : State) (a k : Nat) : (s.drawDst a k).intEn = s.intEn := by simp [State.drawDst]
@[simp] theorem drawDst_intStat (s : State) (a k : Nat) : (s.drawDst a k).intStat = s.intStat := by simp [State.drawDst]
@[simp] theorem drawDst_seq (s : State) (a k : Nat) : (s.drawDst a k).seq = s.seq := by simp [State.drawDst]
@[simp] theorem drawDst_plat (s : State) (a k : Nat) : (s.drawDst a k).plat = s.plat := by simp [State.drawDst]
@[simp] theorem drawDst_schedule (s : State) (a k : Nat) : (s.drawDst a k).schedule = s.schedule := by simp [State.drawDst]
@[simp] theorem drawDst_turn (s : State) (a k : Nat) : (s.drawDst a k).turn = s.turn := by simp [State.drawDst]
@[simp] theorem drawDst_resp (s : State) (a k : Nat) : (s.drawDst a k).resp = s.resp := by simp [State.drawDst]
@[simp] theorem drawDst_unseen (s : State) (a k : Nat) : (s.drawDst a k).unseen = s.unseen := by simp [State.drawDst]
@[simp] theorem drawDst_raced (s : State) (a k : Nat) : (s.drawDst a k).raced = s.raced := by simp [State.drawDst]
@[simp] theorem drawDst_oldInt (s : State) (a k : Nat) : (s.drawDst a k).oldInt = s.oldInt := by simp [State.drawDst]

/-! ### `State.barrier` changes posted, stale and nothing else -/

@[simp] theorem barrier_n (s : State) : (s.barrier).n = s.n := rfl
@[simp] theorem barrier_e (s : State) : (s.barrier).e = s.e := rfl
@[simp] theorem barrier_d (s : State) : (s.barrier).d = s.d := rfl
@[simp] theorem barrier_base (s : State) : (s.barrier).base = s.base := rfl
@[simp] theorem barrier_result (s : State) : (s.barrier).result = s.result := rfl
@[simp] theorem barrier_iv (s : State) : (s.barrier).iv = s.iv := rfl
@[simp] theorem barrier_chain (s : State) : (s.barrier).chain = s.chain := rfl
@[simp] theorem barrier_cfg (s : State) : (s.barrier).cfg = s.cfg := rfl
@[simp] theorem barrier_blksz (s : State) : (s.barrier).blksz = s.blksz := rfl
@[simp] theorem barrier_srcAddr (s : State) : (s.barrier).srcAddr = s.srcAddr := rfl
@[simp] theorem barrier_srcLen (s : State) : (s.barrier).srcLen = s.srcLen := rfl
@[simp] theorem barrier_dstAddr (s : State) : (s.barrier).dstAddr = s.dstAddr := rfl
@[simp] theorem barrier_dstCap (s : State) : (s.barrier).dstCap = s.dstCap := rfl
@[simp] theorem barrier_dstLen (s : State) : (s.barrier).dstLen = s.dstLen := rfl
@[simp] theorem barrier_nbits (s : State) : (s.barrier).nbits = s.nbits := rfl
@[simp] theorem barrier_cwidth (s : State) : (s.barrier).cwidth = s.cwidth := rfl
@[simp] theorem barrier_ebs (s : State) : (s.barrier).ebs = s.ebs := rfl
@[simp] theorem barrier_nblkTotal (s : State) : (s.barrier).nblkTotal = s.nblkTotal := rfl
@[simp] theorem barrier_nblkDone (s : State) : (s.barrier).nblkDone = s.nblkDone := rfl
@[simp] theorem barrier_outReq (s : State) : (s.barrier).outReq = s.outReq := rfl
@[simp] theorem barrier_errInfo (s : State) : (s.barrier).errInfo = s.errInfo := rfl
@[simp] theorem barrier_status (s : State) : (s.barrier).status = s.status := rfl
@[simp] theorem barrier_intEn (s : State) : (s.barrier).intEn = s.intEn := rfl
@[simp] theorem barrier_intStat (s : State) : (s.barrier).intStat = s.intStat := rfl
@[simp] theorem barrier_seq (s : State) : (s.barrier).seq = s.seq := rfl
@[simp] theorem barrier_mem (s : State) : (s.barrier).mem = s.mem := rfl
@[simp] theorem barrier_plat (s : State) : (s.barrier).plat = s.plat := rfl
@[simp] theorem barrier_schedule (s : State) : (s.barrier).schedule = s.schedule := rfl
@[simp] theorem barrier_turn (s : State) : (s.barrier).turn = s.turn := rfl
@[simp] theorem barrier_resp (s : State) : (s.barrier).resp = s.resp := rfl
@[simp] theorem barrier_unseen (s : State) : (s.barrier).unseen = s.unseen := rfl
@[simp] theorem barrier_written (s : State) : (s.barrier).written = s.written := rfl
@[simp] theorem barrier_raced (s : State) : (s.barrier).raced = s.raced := rfl
@[simp] theorem barrier_unobserved (s : State) : (s.barrier).unobserved = s.unobserved := rfl
@[simp] theorem barrier_oldInt (s : State) : (s.barrier).oldInt = s.oldInt := rfl
@[simp] theorem barrier_draws (s : State) : (s.barrier).draws = s.draws := rfl

/-! ### `State.dropLines` changes posted, written, unobserved, stale and nothing else -/

@[simp] theorem dropLines_n (s : State) (a k : Nat) : (s.dropLines a k).n = s.n := rfl
@[simp] theorem dropLines_e (s : State) (a k : Nat) : (s.dropLines a k).e = s.e := rfl
@[simp] theorem dropLines_d (s : State) (a k : Nat) : (s.dropLines a k).d = s.d := rfl
@[simp] theorem dropLines_base (s : State) (a k : Nat) : (s.dropLines a k).base = s.base := rfl
@[simp] theorem dropLines_result (s : State) (a k : Nat) : (s.dropLines a k).result = s.result := rfl
@[simp] theorem dropLines_iv (s : State) (a k : Nat) : (s.dropLines a k).iv = s.iv := rfl
@[simp] theorem dropLines_chain (s : State) (a k : Nat) : (s.dropLines a k).chain = s.chain := rfl
@[simp] theorem dropLines_cfg (s : State) (a k : Nat) : (s.dropLines a k).cfg = s.cfg := rfl
@[simp] theorem dropLines_blksz (s : State) (a k : Nat) : (s.dropLines a k).blksz = s.blksz := rfl
@[simp] theorem dropLines_srcAddr (s : State) (a k : Nat) : (s.dropLines a k).srcAddr = s.srcAddr := rfl
@[simp] theorem dropLines_srcLen (s : State) (a k : Nat) : (s.dropLines a k).srcLen = s.srcLen := rfl
@[simp] theorem dropLines_dstAddr (s : State) (a k : Nat) : (s.dropLines a k).dstAddr = s.dstAddr := rfl
@[simp] theorem dropLines_dstCap (s : State) (a k : Nat) : (s.dropLines a k).dstCap = s.dstCap := rfl
@[simp] theorem dropLines_dstLen (s : State) (a k : Nat) : (s.dropLines a k).dstLen = s.dstLen := rfl
@[simp] theorem dropLines_nbits (s : State) (a k : Nat) : (s.dropLines a k).nbits = s.nbits := rfl
@[simp] theorem dropLines_cwidth (s : State) (a k : Nat) : (s.dropLines a k).cwidth = s.cwidth := rfl
@[simp] theorem dropLines_ebs (s : State) (a k : Nat) : (s.dropLines a k).ebs = s.ebs := rfl
@[simp] theorem dropLines_nblkTotal (s : State) (a k : Nat) : (s.dropLines a k).nblkTotal = s.nblkTotal := rfl
@[simp] theorem dropLines_nblkDone (s : State) (a k : Nat) : (s.dropLines a k).nblkDone = s.nblkDone := rfl
@[simp] theorem dropLines_outReq (s : State) (a k : Nat) : (s.dropLines a k).outReq = s.outReq := rfl
@[simp] theorem dropLines_errInfo (s : State) (a k : Nat) : (s.dropLines a k).errInfo = s.errInfo := rfl
@[simp] theorem dropLines_status (s : State) (a k : Nat) : (s.dropLines a k).status = s.status := rfl
@[simp] theorem dropLines_intEn (s : State) (a k : Nat) : (s.dropLines a k).intEn = s.intEn := rfl
@[simp] theorem dropLines_intStat (s : State) (a k : Nat) : (s.dropLines a k).intStat = s.intStat := rfl
@[simp] theorem dropLines_seq (s : State) (a k : Nat) : (s.dropLines a k).seq = s.seq := rfl
@[simp] theorem dropLines_mem (s : State) (a k : Nat) : (s.dropLines a k).mem = s.mem := rfl
@[simp] theorem dropLines_plat (s : State) (a k : Nat) : (s.dropLines a k).plat = s.plat := rfl
@[simp] theorem dropLines_schedule (s : State) (a k : Nat) : (s.dropLines a k).schedule = s.schedule := rfl
@[simp] theorem dropLines_turn (s : State) (a k : Nat) : (s.dropLines a k).turn = s.turn := rfl
@[simp] theorem dropLines_resp (s : State) (a k : Nat) : (s.dropLines a k).resp = s.resp := rfl
@[simp] theorem dropLines_unseen (s : State) (a k : Nat) : (s.dropLines a k).unseen = s.unseen := rfl
@[simp] theorem dropLines_raced (s : State) (a k : Nat) : (s.dropLines a k).raced = s.raced := rfl
@[simp] theorem dropLines_oldInt (s : State) (a k : Nat) : (s.dropLines a k).oldInt = s.oldInt := rfl
@[simp] theorem dropLines_draws (s : State) (a k : Nat) : (s.dropLines a k).draws = s.draws := rfl

/-! ### `State.clean` changes posted, written, unobserved, stale and nothing else -/

@[simp] theorem clean_n (s : State) (a k : Nat) : (s.clean a k).n = s.n := rfl
@[simp] theorem clean_e (s : State) (a k : Nat) : (s.clean a k).e = s.e := rfl
@[simp] theorem clean_d (s : State) (a k : Nat) : (s.clean a k).d = s.d := rfl
@[simp] theorem clean_base (s : State) (a k : Nat) : (s.clean a k).base = s.base := rfl
@[simp] theorem clean_result (s : State) (a k : Nat) : (s.clean a k).result = s.result := rfl
@[simp] theorem clean_iv (s : State) (a k : Nat) : (s.clean a k).iv = s.iv := rfl
@[simp] theorem clean_chain (s : State) (a k : Nat) : (s.clean a k).chain = s.chain := rfl
@[simp] theorem clean_cfg (s : State) (a k : Nat) : (s.clean a k).cfg = s.cfg := rfl
@[simp] theorem clean_blksz (s : State) (a k : Nat) : (s.clean a k).blksz = s.blksz := rfl
@[simp] theorem clean_srcAddr (s : State) (a k : Nat) : (s.clean a k).srcAddr = s.srcAddr := rfl
@[simp] theorem clean_srcLen (s : State) (a k : Nat) : (s.clean a k).srcLen = s.srcLen := rfl
@[simp] theorem clean_dstAddr (s : State) (a k : Nat) : (s.clean a k).dstAddr = s.dstAddr := rfl
@[simp] theorem clean_dstCap (s : State) (a k : Nat) : (s.clean a k).dstCap = s.dstCap := rfl
@[simp] theorem clean_dstLen (s : State) (a k : Nat) : (s.clean a k).dstLen = s.dstLen := rfl
@[simp] theorem clean_nbits (s : State) (a k : Nat) : (s.clean a k).nbits = s.nbits := rfl
@[simp] theorem clean_cwidth (s : State) (a k : Nat) : (s.clean a k).cwidth = s.cwidth := rfl
@[simp] theorem clean_ebs (s : State) (a k : Nat) : (s.clean a k).ebs = s.ebs := rfl
@[simp] theorem clean_nblkTotal (s : State) (a k : Nat) : (s.clean a k).nblkTotal = s.nblkTotal := rfl
@[simp] theorem clean_nblkDone (s : State) (a k : Nat) : (s.clean a k).nblkDone = s.nblkDone := rfl
@[simp] theorem clean_outReq (s : State) (a k : Nat) : (s.clean a k).outReq = s.outReq := rfl
@[simp] theorem clean_errInfo (s : State) (a k : Nat) : (s.clean a k).errInfo = s.errInfo := rfl
@[simp] theorem clean_status (s : State) (a k : Nat) : (s.clean a k).status = s.status := rfl
@[simp] theorem clean_intEn (s : State) (a k : Nat) : (s.clean a k).intEn = s.intEn := rfl
@[simp] theorem clean_intStat (s : State) (a k : Nat) : (s.clean a k).intStat = s.intStat := rfl
@[simp] theorem clean_seq (s : State) (a k : Nat) : (s.clean a k).seq = s.seq := rfl
@[simp] theorem clean_mem (s : State) (a k : Nat) : (s.clean a k).mem = s.mem := rfl
@[simp] theorem clean_plat (s : State) (a k : Nat) : (s.clean a k).plat = s.plat := rfl
@[simp] theorem clean_schedule (s : State) (a k : Nat) : (s.clean a k).schedule = s.schedule := rfl
@[simp] theorem clean_turn (s : State) (a k : Nat) : (s.clean a k).turn = s.turn := rfl
@[simp] theorem clean_resp (s : State) (a k : Nat) : (s.clean a k).resp = s.resp := rfl
@[simp] theorem clean_unseen (s : State) (a k : Nat) : (s.clean a k).unseen = s.unseen := rfl
@[simp] theorem clean_raced (s : State) (a k : Nat) : (s.clean a k).raced = s.raced := rfl
@[simp] theorem clean_oldInt (s : State) (a k : Nat) : (s.clean a k).oldInt = s.oldInt := rfl
@[simp] theorem clean_draws (s : State) (a k : Nat) : (s.clean a k).draws = s.draws := rfl

/-! ### `State.invalidate` changes posted, written, unobserved, stale and nothing else -/

@[simp] theorem invalidate_n (s : State) (a k : Nat) : (s.invalidate a k).n = s.n := rfl
@[simp] theorem invalidate_e (s : State) (a k : Nat) : (s.invalidate a k).e = s.e := rfl
@[simp] theorem invalidate_d (s : State) (a k : Nat) : (s.invalidate a k).d = s.d := rfl
@[simp] theorem invalidate_base (s : State) (a k : Nat) : (s.invalidate a k).base = s.base := rfl
@[simp] theorem invalidate_result (s : State) (a k : Nat) : (s.invalidate a k).result = s.result := rfl
@[simp] theorem invalidate_iv (s : State) (a k : Nat) : (s.invalidate a k).iv = s.iv := rfl
@[simp] theorem invalidate_chain (s : State) (a k : Nat) : (s.invalidate a k).chain = s.chain := rfl
@[simp] theorem invalidate_cfg (s : State) (a k : Nat) : (s.invalidate a k).cfg = s.cfg := rfl
@[simp] theorem invalidate_blksz (s : State) (a k : Nat) : (s.invalidate a k).blksz = s.blksz := rfl
@[simp] theorem invalidate_srcAddr (s : State) (a k : Nat) : (s.invalidate a k).srcAddr = s.srcAddr := rfl
@[simp] theorem invalidate_srcLen (s : State) (a k : Nat) : (s.invalidate a k).srcLen = s.srcLen := rfl
@[simp] theorem invalidate_dstAddr (s : State) (a k : Nat) : (s.invalidate a k).dstAddr = s.dstAddr := rfl
@[simp] theorem invalidate_dstCap (s : State) (a k : Nat) : (s.invalidate a k).dstCap = s.dstCap := rfl
@[simp] theorem invalidate_dstLen (s : State) (a k : Nat) : (s.invalidate a k).dstLen = s.dstLen := rfl
@[simp] theorem invalidate_nbits (s : State) (a k : Nat) : (s.invalidate a k).nbits = s.nbits := rfl
@[simp] theorem invalidate_cwidth (s : State) (a k : Nat) : (s.invalidate a k).cwidth = s.cwidth := rfl
@[simp] theorem invalidate_ebs (s : State) (a k : Nat) : (s.invalidate a k).ebs = s.ebs := rfl
@[simp] theorem invalidate_nblkTotal (s : State) (a k : Nat) : (s.invalidate a k).nblkTotal = s.nblkTotal := rfl
@[simp] theorem invalidate_nblkDone (s : State) (a k : Nat) : (s.invalidate a k).nblkDone = s.nblkDone := rfl
@[simp] theorem invalidate_outReq (s : State) (a k : Nat) : (s.invalidate a k).outReq = s.outReq := rfl
@[simp] theorem invalidate_errInfo (s : State) (a k : Nat) : (s.invalidate a k).errInfo = s.errInfo := rfl
@[simp] theorem invalidate_status (s : State) (a k : Nat) : (s.invalidate a k).status = s.status := rfl
@[simp] theorem invalidate_intEn (s : State) (a k : Nat) : (s.invalidate a k).intEn = s.intEn := rfl
@[simp] theorem invalidate_intStat (s : State) (a k : Nat) : (s.invalidate a k).intStat = s.intStat := rfl
@[simp] theorem invalidate_seq (s : State) (a k : Nat) : (s.invalidate a k).seq = s.seq := rfl
@[simp] theorem invalidate_mem (s : State) (a k : Nat) : (s.invalidate a k).mem = s.mem := rfl
@[simp] theorem invalidate_plat (s : State) (a k : Nat) : (s.invalidate a k).plat = s.plat := rfl
@[simp] theorem invalidate_schedule (s : State) (a k : Nat) : (s.invalidate a k).schedule = s.schedule := rfl
@[simp] theorem invalidate_turn (s : State) (a k : Nat) : (s.invalidate a k).turn = s.turn := rfl
@[simp] theorem invalidate_resp (s : State) (a k : Nat) : (s.invalidate a k).resp = s.resp := rfl
@[simp] theorem invalidate_unseen (s : State) (a k : Nat) : (s.invalidate a k).unseen = s.unseen := rfl
@[simp] theorem invalidate_raced (s : State) (a k : Nat) : (s.invalidate a k).raced = s.raced := rfl
@[simp] theorem invalidate_oldInt (s : State) (a k : Nat) : (s.invalidate a k).oldInt = s.oldInt := rfl
@[simp] theorem invalidate_draws (s : State) (a k : Nat) : (s.invalidate a k).draws = s.draws := rfl

/-! ### `State.orderReads` changes stale and nothing else -/

@[simp] theorem orderReads_n (s : State) (a k : Nat) : (s.orderReads a k).n = s.n := rfl
@[simp] theorem orderReads_e (s : State) (a k : Nat) : (s.orderReads a k).e = s.e := rfl
@[simp] theorem orderReads_d (s : State) (a k : Nat) : (s.orderReads a k).d = s.d := rfl
@[simp] theorem orderReads_base (s : State) (a k : Nat) : (s.orderReads a k).base = s.base := rfl
@[simp] theorem orderReads_result (s : State) (a k : Nat) : (s.orderReads a k).result = s.result := rfl
@[simp] theorem orderReads_iv (s : State) (a k : Nat) : (s.orderReads a k).iv = s.iv := rfl
@[simp] theorem orderReads_chain (s : State) (a k : Nat) : (s.orderReads a k).chain = s.chain := rfl
@[simp] theorem orderReads_cfg (s : State) (a k : Nat) : (s.orderReads a k).cfg = s.cfg := rfl
@[simp] theorem orderReads_blksz (s : State) (a k : Nat) : (s.orderReads a k).blksz = s.blksz := rfl
@[simp] theorem orderReads_srcAddr (s : State) (a k : Nat) : (s.orderReads a k).srcAddr = s.srcAddr := rfl
@[simp] theorem orderReads_srcLen (s : State) (a k : Nat) : (s.orderReads a k).srcLen = s.srcLen := rfl
@[simp] theorem orderReads_dstAddr (s : State) (a k : Nat) : (s.orderReads a k).dstAddr = s.dstAddr := rfl
@[simp] theorem orderReads_dstCap (s : State) (a k : Nat) : (s.orderReads a k).dstCap = s.dstCap := rfl
@[simp] theorem orderReads_dstLen (s : State) (a k : Nat) : (s.orderReads a k).dstLen = s.dstLen := rfl
@[simp] theorem orderReads_nbits (s : State) (a k : Nat) : (s.orderReads a k).nbits = s.nbits := rfl
@[simp] theorem orderReads_cwidth (s : State) (a k : Nat) : (s.orderReads a k).cwidth = s.cwidth := rfl
@[simp] theorem orderReads_ebs (s : State) (a k : Nat) : (s.orderReads a k).ebs = s.ebs := rfl
@[simp] theorem orderReads_nblkTotal (s : State) (a k : Nat) : (s.orderReads a k).nblkTotal = s.nblkTotal := rfl
@[simp] theorem orderReads_nblkDone (s : State) (a k : Nat) : (s.orderReads a k).nblkDone = s.nblkDone := rfl
@[simp] theorem orderReads_outReq (s : State) (a k : Nat) : (s.orderReads a k).outReq = s.outReq := rfl
@[simp] theorem orderReads_errInfo (s : State) (a k : Nat) : (s.orderReads a k).errInfo = s.errInfo := rfl
@[simp] theorem orderReads_status (s : State) (a k : Nat) : (s.orderReads a k).status = s.status := rfl
@[simp] theorem orderReads_intEn (s : State) (a k : Nat) : (s.orderReads a k).intEn = s.intEn := rfl
@[simp] theorem orderReads_intStat (s : State) (a k : Nat) : (s.orderReads a k).intStat = s.intStat := rfl
@[simp] theorem orderReads_seq (s : State) (a k : Nat) : (s.orderReads a k).seq = s.seq := rfl
@[simp] theorem orderReads_mem (s : State) (a k : Nat) : (s.orderReads a k).mem = s.mem := rfl
@[simp] theorem orderReads_plat (s : State) (a k : Nat) : (s.orderReads a k).plat = s.plat := rfl
@[simp] theorem orderReads_schedule (s : State) (a k : Nat) : (s.orderReads a k).schedule = s.schedule := rfl
@[simp] theorem orderReads_turn (s : State) (a k : Nat) : (s.orderReads a k).turn = s.turn := rfl
@[simp] theorem orderReads_resp (s : State) (a k : Nat) : (s.orderReads a k).resp = s.resp := rfl
@[simp] theorem orderReads_posted (s : State) (a k : Nat) : (s.orderReads a k).posted = s.posted := rfl
@[simp] theorem orderReads_unseen (s : State) (a k : Nat) : (s.orderReads a k).unseen = s.unseen := rfl
@[simp] theorem orderReads_written (s : State) (a k : Nat) : (s.orderReads a k).written = s.written := rfl
@[simp] theorem orderReads_raced (s : State) (a k : Nat) : (s.orderReads a k).raced = s.raced := rfl
@[simp] theorem orderReads_unobserved (s : State) (a k : Nat) : (s.orderReads a k).unobserved = s.unobserved := rfl
@[simp] theorem orderReads_oldInt (s : State) (a k : Nat) : (s.orderReads a k).oldInt = s.oldInt := rfl
@[simp] theorem orderReads_draws (s : State) (a k : Nat) : (s.orderReads a k).draws = s.draws := rfl

/-! ### `State.answer` changes resp and nothing else -/

@[simp] theorem answer_n (s : State) (a : Response) : (s.answer a).n = s.n := rfl
@[simp] theorem answer_e (s : State) (a : Response) : (s.answer a).e = s.e := rfl
@[simp] theorem answer_d (s : State) (a : Response) : (s.answer a).d = s.d := rfl
@[simp] theorem answer_base (s : State) (a : Response) : (s.answer a).base = s.base := rfl
@[simp] theorem answer_result (s : State) (a : Response) : (s.answer a).result = s.result := rfl
@[simp] theorem answer_iv (s : State) (a : Response) : (s.answer a).iv = s.iv := rfl
@[simp] theorem answer_chain (s : State) (a : Response) : (s.answer a).chain = s.chain := rfl
@[simp] theorem answer_cfg (s : State) (a : Response) : (s.answer a).cfg = s.cfg := rfl
@[simp] theorem answer_blksz (s : State) (a : Response) : (s.answer a).blksz = s.blksz := rfl
@[simp] theorem answer_srcAddr (s : State) (a : Response) : (s.answer a).srcAddr = s.srcAddr := rfl
@[simp] theorem answer_srcLen (s : State) (a : Response) : (s.answer a).srcLen = s.srcLen := rfl
@[simp] theorem answer_dstAddr (s : State) (a : Response) : (s.answer a).dstAddr = s.dstAddr := rfl
@[simp] theorem answer_dstCap (s : State) (a : Response) : (s.answer a).dstCap = s.dstCap := rfl
@[simp] theorem answer_dstLen (s : State) (a : Response) : (s.answer a).dstLen = s.dstLen := rfl
@[simp] theorem answer_nbits (s : State) (a : Response) : (s.answer a).nbits = s.nbits := rfl
@[simp] theorem answer_cwidth (s : State) (a : Response) : (s.answer a).cwidth = s.cwidth := rfl
@[simp] theorem answer_ebs (s : State) (a : Response) : (s.answer a).ebs = s.ebs := rfl
@[simp] theorem answer_nblkTotal (s : State) (a : Response) : (s.answer a).nblkTotal = s.nblkTotal := rfl
@[simp] theorem answer_nblkDone (s : State) (a : Response) : (s.answer a).nblkDone = s.nblkDone := rfl
@[simp] theorem answer_outReq (s : State) (a : Response) : (s.answer a).outReq = s.outReq := rfl
@[simp] theorem answer_errInfo (s : State) (a : Response) : (s.answer a).errInfo = s.errInfo := rfl
@[simp] theorem answer_status (s : State) (a : Response) : (s.answer a).status = s.status := rfl
@[simp] theorem answer_intEn (s : State) (a : Response) : (s.answer a).intEn = s.intEn := rfl
@[simp] theorem answer_intStat (s : State) (a : Response) : (s.answer a).intStat = s.intStat := rfl
@[simp] theorem answer_seq (s : State) (a : Response) : (s.answer a).seq = s.seq := rfl
@[simp] theorem answer_mem (s : State) (a : Response) : (s.answer a).mem = s.mem := rfl
@[simp] theorem answer_plat (s : State) (a : Response) : (s.answer a).plat = s.plat := rfl
@[simp] theorem answer_schedule (s : State) (a : Response) : (s.answer a).schedule = s.schedule := rfl
@[simp] theorem answer_turn (s : State) (a : Response) : (s.answer a).turn = s.turn := rfl
@[simp] theorem answer_posted (s : State) (a : Response) : (s.answer a).posted = s.posted := rfl
@[simp] theorem answer_unseen (s : State) (a : Response) : (s.answer a).unseen = s.unseen := rfl
@[simp] theorem answer_written (s : State) (a : Response) : (s.answer a).written = s.written := rfl
@[simp] theorem answer_stale (s : State) (a : Response) : (s.answer a).stale = s.stale := rfl
@[simp] theorem answer_raced (s : State) (a : Response) : (s.answer a).raced = s.raced := rfl
@[simp] theorem answer_unobserved (s : State) (a : Response) : (s.answer a).unobserved = s.unobserved := rfl
@[simp] theorem answer_oldInt (s : State) (a : Response) : (s.answer a).oldInt = s.oldInt := rfl
@[simp] theorem answer_draws (s : State) (a : Response) : (s.answer a).draws = s.draws := rfl

/-! ### `State.taking` changes turn, schedule and nothing else -/

@[simp] theorem taking_n (s : State) (who : Agent) (rest : List Move) : (s.taking who rest).n = s.n := rfl
@[simp] theorem taking_e (s : State) (who : Agent) (rest : List Move) : (s.taking who rest).e = s.e := rfl
@[simp] theorem taking_d (s : State) (who : Agent) (rest : List Move) : (s.taking who rest).d = s.d := rfl
@[simp] theorem taking_base (s : State) (who : Agent) (rest : List Move) : (s.taking who rest).base = s.base := rfl
@[simp] theorem taking_result (s : State) (who : Agent) (rest : List Move) : (s.taking who rest).result = s.result := rfl
@[simp] theorem taking_iv (s : State) (who : Agent) (rest : List Move) : (s.taking who rest).iv = s.iv := rfl
@[simp] theorem taking_chain (s : State) (who : Agent) (rest : List Move) : (s.taking who rest).chain = s.chain := rfl
@[simp] theorem taking_cfg (s : State) (who : Agent) (rest : List Move) : (s.taking who rest).cfg = s.cfg := rfl
@[simp] theorem taking_blksz (s : State) (who : Agent) (rest : List Move) : (s.taking who rest).blksz = s.blksz := rfl
@[simp] theorem taking_srcAddr (s : State) (who : Agent) (rest : List Move) : (s.taking who rest).srcAddr = s.srcAddr := rfl
@[simp] theorem taking_srcLen (s : State) (who : Agent) (rest : List Move) : (s.taking who rest).srcLen = s.srcLen := rfl
@[simp] theorem taking_dstAddr (s : State) (who : Agent) (rest : List Move) : (s.taking who rest).dstAddr = s.dstAddr := rfl
@[simp] theorem taking_dstCap (s : State) (who : Agent) (rest : List Move) : (s.taking who rest).dstCap = s.dstCap := rfl
@[simp] theorem taking_dstLen (s : State) (who : Agent) (rest : List Move) : (s.taking who rest).dstLen = s.dstLen := rfl
@[simp] theorem taking_nbits (s : State) (who : Agent) (rest : List Move) : (s.taking who rest).nbits = s.nbits := rfl
@[simp] theorem taking_cwidth (s : State) (who : Agent) (rest : List Move) : (s.taking who rest).cwidth = s.cwidth := rfl
@[simp] theorem taking_ebs (s : State) (who : Agent) (rest : List Move) : (s.taking who rest).ebs = s.ebs := rfl
@[simp] theorem taking_nblkTotal (s : State) (who : Agent) (rest : List Move) : (s.taking who rest).nblkTotal = s.nblkTotal := rfl
@[simp] theorem taking_nblkDone (s : State) (who : Agent) (rest : List Move) : (s.taking who rest).nblkDone = s.nblkDone := rfl
@[simp] theorem taking_outReq (s : State) (who : Agent) (rest : List Move) : (s.taking who rest).outReq = s.outReq := rfl
@[simp] theorem taking_errInfo (s : State) (who : Agent) (rest : List Move) : (s.taking who rest).errInfo = s.errInfo := rfl
@[simp] theorem taking_status (s : State) (who : Agent) (rest : List Move) : (s.taking who rest).status = s.status := rfl
@[simp] theorem taking_intEn (s : State) (who : Agent) (rest : List Move) : (s.taking who rest).intEn = s.intEn := rfl
@[simp] theorem taking_intStat (s : State) (who : Agent) (rest : List Move) : (s.taking who rest).intStat = s.intStat := rfl
@[simp] theorem taking_seq (s : State) (who : Agent) (rest : List Move) : (s.taking who rest).seq = s.seq := rfl
@[simp] theorem taking_mem (s : State) (who : Agent) (rest : List Move) : (s.taking who rest).mem = s.mem := rfl
@[simp] theorem taking_plat (s : State) (who : Agent) (rest : List Move) : (s.taking who rest).plat = s.plat := rfl
@[simp] theorem taking_resp (s : State) (who : Agent) (rest : List Move) : (s.taking who rest).resp = s.resp := rfl
@[simp] theorem taking_posted (s : State) (who : Agent) (rest : List Move) : (s.taking who rest).posted = s.posted := rfl
@[simp] theorem taking_unseen (s : State) (who : Agent) (rest : List Move) : (s.taking who rest).unseen = s.unseen := rfl
@[simp] theorem taking_written (s : State) (who : Agent) (rest : List Move) : (s.taking who rest).written = s.written := rfl
@[simp] theorem taking_stale (s : State) (who : Agent) (rest : List Move) : (s.taking who rest).stale = s.stale := rfl
@[simp] theorem taking_raced (s : State) (who : Agent) (rest : List Move) : (s.taking who rest).raced = s.raced := rfl
@[simp] theorem taking_unobserved (s : State) (who : Agent) (rest : List Move) : (s.taking who rest).unobserved = s.unobserved := rfl
@[simp] theorem taking_oldInt (s : State) (who : Agent) (rest : List Move) : (s.taking who rest).oldInt = s.oldInt := rfl
@[simp] theorem taking_draws (s : State) (who : Agent) (rest : List Move) : (s.taking who rest).draws = s.draws := rfl

/-! ### What the updates write -/

@[simp] theorem accept_seq (s : State) (op : BitVec 4) (esel : Bool) :
    (s.accept op esel).seq = { phase := .start, op := op, esel := esel, blk := 0, hdr := 0 } := rfl
@[simp] theorem accept_status (s : State) (op : BitVec 4) (esel : Bool) :
    (s.accept op esel).status = { done := false, err := false, lastOp := op, errCode := .none } := rfl
@[simp] theorem accept_errInfo (s : State) (op : BitVec 4) (esel : Bool) :
    (s.accept op esel).errInfo = Config.noBlock := rfl
@[simp] theorem accept_unseen (s : State) (op : BitVec 4) (esel : Bool) :
    (s.accept op esel).unseen = s.unseenAtCmd := rfl
@[simp] theorem accept_oldInt (s : State) (op : BitVec 4) (esel : Bool) : (s.accept op esel).oldInt = s.intStat := rfl
@[simp] theorem settleRaces_raced (s : State) : s.settleRaces.raced = [] := rfl
@[simp] theorem settleRaces_written (s : State) : s.settleRaces.written = [] := rfl
@[simp] theorem settleRaces_unobserved (s : State) : s.settleRaces.unobserved = s.ended ++ s.unobserved := rfl
@[simp] theorem observe_unobserved (s : State) (f : BitVec 3 → Bool) :
    (s.observe f).unobserved = s.unobserved.filter (fun e => !f e.oldInt) := rfl
@[simp] theorem observe_stale (s : State) (f : BitVec 3 → Bool) :
    (s.observe f).stale = writesOf (s.unobserved.filter (fun e => f e.oldInt)) ++ s.stale := rfl
@[simp] theorem complete_seq (s : State) : s.complete.seq = { s.seq with phase := .idle } := rfl
@[simp] theorem complete_status (s : State) : s.complete.status = { s.status with done := true } := rfl
@[simp] theorem complete_intStat (s : State) : s.complete.intStat = s.intStat ||| doneIs := rfl
@[simp] theorem complete_mem (s : State) : s.complete.mem = s.settleRaces.mem := rfl
@[simp] theorem complete_draws (s : State) : s.complete.draws = s.settleRaces.draws := rfl
@[simp] theorem complete_raced (s : State) : s.complete.raced = [] := rfl
@[simp] theorem complete_written (s : State) : s.complete.written = [] := rfl
@[simp] theorem complete_unobserved (s : State) : s.complete.unobserved = s.ended ++ s.unobserved := rfl
@[simp] theorem raise_seq (s : State) (c : ErrCode) (i : Word) : (s.raise c i).seq = { s.seq with phase := .idle } := rfl
@[simp] theorem raise_status (s : State) (c : ErrCode) (i : Word) :
    (s.raise c i).status = { s.status with done := false, err := true, errCode := c } := rfl
@[simp] theorem raise_intStat (s : State) (c : ErrCode) (i : Word) : (s.raise c i).intStat = s.intStat ||| errIs := rfl
@[simp] theorem raise_errInfo (s : State) (c : ErrCode) (i : Word) : (s.raise c i).errInfo = i := rfl
@[simp] theorem raise_mem (s : State) (c : ErrCode) (i : Word) : (s.raise c i).mem = s.settleRaces.mem := rfl
@[simp] theorem raise_draws (s : State) (c : ErrCode) (i : Word) : (s.raise c i).draws = s.settleRaces.draws := rfl
@[simp] theorem raise_raced (s : State) (c : ErrCode) (i : Word) : (s.raise c i).raced = [] := rfl
@[simp] theorem raise_written (s : State) (c : ErrCode) (i : Word) : (s.raise c i).written = [] := rfl
@[simp] theorem raise_unobserved (s : State) (c : ErrCode) (i : Word) :
    (s.raise c i).unobserved = s.ended ++ s.unobserved := rfl
@[simp] theorem ignoredBusy_intStat (s : State) : s.ignoredBusy.intStat = s.intStat ||| wignIs := rfl
@[simp] theorem writeIntStat_intStat (s : State) (v : Word) :
    (s.writeIntStat v).intStat = s.intStat &&& ~~~(v.extractLsb' 0 3) := rfl
@[simp] theorem writeIntEn_intEn (s : State) (v : Word) : (s.writeIntEn v).intEn = v.extractLsb' 0 3 := rfl
@[simp] theorem updateWidths_nbits (s : State) : s.updateWidths.nbits = BitVec.ofNat 32 (bitLen s.valN) := rfl
@[simp] theorem updateWidths_cwidth (s : State) :
    s.updateWidths.cwidth = BitVec.ofNat 32 (ceilDiv (bitLen s.valN) Config.widthDivisor) := rfl
@[simp] theorem updateEbs_ebs (s : State) : s.updateEbs.ebs = BitVec.ofNat 32 (effectiveBs s) := rfl
@[simp] theorem clearCounters_nblkDone (s : State) : s.clearCounters.nblkDone = 0 := rfl
@[simp] theorem clearCounters_dstLen (s : State) : s.clearCounters.dstLen = 0 := rfl
@[simp] theorem setPlan_nblkTotal (s : State) (p : Plan) : (s.setPlan p).nblkTotal = BitVec.ofNat 32 p.nb := rfl
@[simp] theorem setPlan_outReq (s : State) (p : Plan) :
    (s.setPlan p).outReq = BitVec.ofNat 32 (min p.out Config.outReqMax) := rfl
@[simp] theorem setPlan_seq (s : State) (p : Plan) : (s.setPlan p).seq = { s.seq with hdr := p.hdr } := rfl
@[simp] theorem setChain_chain (s : State) (bs : List Byte) : (s.setChain bs).chain = setBytes s.chain bs := rfl
@[simp] theorem clearChain_chain (s : State) : s.clearChain.chain = 0 := rfl
@[simp] theorem blockDone_dstLen (s : State) (w : Word) : (s.blockDone w).dstLen = s.dstLen + w := rfl
@[simp] theorem blockDone_nblkDone (s : State) (w : Word) : (s.blockDone w).nblkDone = s.nblkDone + 1 := rfl
@[simp] theorem blockDone_seq (s : State) (w : Word) :
    (s.blockDone w).seq = { s.seq with blk := s.seq.blk + 1 } := rfl
@[simp] theorem dmaPut_mem (s : State) (a : Nat) (bs : List Byte) : (s.dmaPut a bs).mem = s.mem.setBytes a bs := rfl
@[simp] theorem dmaPut_posted (s : State) (a : Nat) (bs : List Byte) :
    (s.dmaPut a bs).posted = lagsOutside s.posted a bs.length := rfl
@[simp] theorem dmaPut_written (s : State) (a : Nat) (bs : List Byte) :
    (s.dmaPut a bs).written = lagsOf s.mem s.dirtyAt a bs.length ++ s.written := rfl
@[simp] theorem barrier_posted (s : State) : s.barrier.posted = afterBarrier s.plat s.posted := rfl
@[simp] theorem barrier_stale (s : State) : s.barrier.stale = afterBarrier s.plat s.stale := rfl
@[simp] theorem clean_posted (s : State) (a k : Nat) :
    (s.clean a k).posted = maintain a k (settleLines a k s.posted) := rfl
@[simp] theorem invalidate_stale (s : State) (a k : Nat) : (s.invalidate a k).stale = maintain a k s.stale := rfl
@[simp] theorem orderReads_stale (s : State) (a k : Nat) : (s.orderReads a k).stale = ordered s.stale a k := rfl
@[simp] theorem answer_resp (s : State) (a : Response) : (s.answer a).resp = a := rfl
@[simp] theorem taking_turn (s : State) (who : Agent) (rest : List Move) : (s.taking who rest).turn = who := rfl
@[simp] theorem taking_schedule (s : State) (who : Agent) (rest : List Move) : (s.taking who rest).schedule = rest := rfl

/-! ### Whether the block is busy is a matter of the phase alone (R60) -/

@[simp] theorem accept_busy (s : State) (op : BitVec 4) (esel : Bool) : (s.accept op esel).busy = true := rfl
@[simp] theorem complete_busy (s : State) : s.complete.busy = false := rfl
@[simp] theorem raise_busy (s : State) (c : ErrCode) (i : Word) : (s.raise c i).busy = false := rfl
@[simp] theorem resetAction_busy (s : State) : s.resetAction.busy = false := rfl
@[simp] theorem taking_busy (s : State) (who : Agent) (rest : List Move) : (s.taking who rest).busy = s.busy := rfl
@[simp] theorem answer_busy (s : State) (a : Response) : (s.answer a).busy = s.busy := rfl
@[simp] theorem ignoredBusy_busy (s : State) : s.ignoredBusy.busy = s.busy := rfl

theorem busy_iff (s : State) : s.busy = true ↔ s.seq.phase ≠ .idle := by simp [State.busy]
theorem busy_eq_false_iff (s : State) : s.busy = false ↔ s.seq.phase = .idle := by simp [State.busy]

/-! ### The reset action (R300): every register of the block is at its reset value -/

/-- R300: what the reset action leaves of everything but memory and the host's view of it. -/
theorem resetAction_eq (s : State) :
    s.resetAction = { State.reset with
      mem := s.settleReset.mem, plat := s.plat, schedule := s.schedule, turn := s.turn, resp := s.resp
      posted := s.settleReset.posted, stale := (s.settleReset.observe (fun _ => true)).stale
      draws := s.settleReset.draws } := rfl

end Sys2Proof.Laws
end

