-- ==== Sys2Proof/Laws/Ops.lean ====
section
/-! SUPPORT. What each shared operation can do, said once: DMA accesses, drawing a range, settling races, ending a command,
the destination span, and what holds between the block steps of a stream command. -/

namespace Sys2Proof.Laws

open Sys2Proof.Machine

/-! ### DMA (R85, R86) -/

/-- The cells of a range: its addresses, each with the byte memory holds there. -/
theorem cellsOf_mem {m : Memory} {a n : Nat} {c : Host.Cell} :
    c ∈ cellsOf m a n ↔ a ≤ c.1 ∧ c.1 < a + n ∧ c.2 = m.get c.1 := by
  induction n generalizing a with
  | zero => simp [cellsOf]; omega
  | succ n ih =>
    simp only [cellsOf, List.mem_cons, ih]
    constructor
    · rintro (rfl | ⟨h1, h2, h3⟩)
      · exact ⟨Nat.le_refl a, by simp, rfl⟩
      · exact ⟨by omega, by omega, h3⟩
    · rintro ⟨h1, h2, h3⟩
      by_cases h : c.1 = a
      · exact .inl (Prod.ext h (h ▸ h3))
      · exact .inr ⟨by omega, by omega, h3⟩

/-- The lagging entries of a range: each old value is the byte memory holds. -/
theorem lagsOf_mem {m : Memory} {dirty : Nat → Bool} {a n : Nat} {l : Lag} (h : l ∈ lagsOf m dirty a n) :
    a ≤ l.addr ∧ l.addr < a + n ∧ l.old = m.get l.addr := by
  induction n generalizing a with
  | zero => cases h
  | succ n ih =>
    rcases List.mem_cons.mp h with rfl | h
    · exact ⟨Nat.le_refl a, by simp, rfl⟩
    · obtain ⟨h1, h2, h3⟩ := ih h
      exact ⟨by omega, by omega, h3⟩

/-- Every byte of the range has an entry. -/
theorem lagsOf_has {m : Memory} {dirty : Nat → Bool} {a n x : Nat} (h1 : a ≤ x) (h2 : x < a + n) :
    ∃ l ∈ lagsOf m dirty a n, l.addr = x ∧ l.old = m.get x := by
  induction n generalizing a with
  | zero => omega
  | succ n ih =>
    by_cases h : x = a
    · subst h; exact ⟨_, List.mem_cons_self, rfl, rfl⟩
    · obtain ⟨l, hl, h⟩ := ih (a := a + 1) (by omega) (by omega)
      exact ⟨l, List.mem_cons_of_mem _ hl, h⟩

/-- Everything a DMA read can do. -/
theorem dmaRead_cases (s : State) (a n : Nat) :
    (Config.addressSpace < a + n ∧ dmaRead s a n = .outside) ∨
    (a + n ≤ Config.addressSpace ∧ busErrIn s.plat false a n = true ∧ dmaRead s a n = .busError s) ∨
    (a + n ≤ Config.addressSpace ∧ busErrIn s.plat false a n = false ∧
      dmaRead s a n = .done (s.dmaBytes s.draws a n) { s with draws := s.draws + n }) := by
  unfold dmaRead
  by_cases h : Config.addressSpace < a + n
  · simp [h]
  · by_cases hb : busErrIn s.plat false a n = true
    · simp [h, hb, Nat.le_of_not_lt h]
    · simp only [Bool.not_eq_true] at hb
      simp [h, hb, Nat.le_of_not_lt h]

/-- Everything a DMA write can do. -/
theorem dmaWrite_cases (s : State) (a : Nat) (bs : List Byte) :
    (Config.addressSpace < a + bs.length ∧ dmaWrite s a bs = .outside) ∨
    (a + bs.length ≤ Config.addressSpace ∧ busErrIn s.plat true a bs.length = true ∧
      dmaWrite s a bs = .busError (s.drawRange a bs.length)) ∨
    (a + bs.length ≤ Config.addressSpace ∧ busErrIn s.plat true a bs.length = false ∧
      dmaWrite s a bs = .done [] (s.dmaPut a bs)) := by
  unfold dmaWrite
  by_cases h : Config.addressSpace < a + bs.length
  · simp [h]
  · by_cases hb : busErrIn s.plat true a bs.length = true
    · simp [h, hb, Nat.le_of_not_lt h]
    · simp only [Bool.not_eq_true] at hb
      simp [h, hb, Nat.le_of_not_lt h]

theorem dmaRead_done {s : State} {a n : Nat} (h : a + n ≤ Config.addressSpace)
    (hb : busErrIn s.plat false a n = false) :
    dmaRead s a n = .done (s.dmaBytes s.draws a n) { s with draws := s.draws + n } := by
  simp [dmaRead, hb, Nat.not_lt.mpr h]

theorem dmaRead_busError {s : State} {a n : Nat} (h : a + n ≤ Config.addressSpace)
    (hb : busErrIn s.plat false a n = true) : dmaRead s a n = .busError s := by
  simp [dmaRead, hb, Nat.not_lt.mpr h]

theorem dmaWrite_done {s : State} {a : Nat} {bs : List Byte} (h : a + bs.length ≤ Config.addressSpace)
    (hb : busErrIn s.plat true a bs.length = false) : dmaWrite s a bs = .done [] (s.dmaPut a bs) := by
  simp [dmaWrite, hb, Nat.not_lt.mpr h]

theorem dmaWrite_busError {s : State} {a : Nat} {bs : List Byte} (h : a + bs.length ≤ Config.addressSpace)
    (hb : busErrIn s.plat true a bs.length = true) : dmaWrite s a bs = .busError (s.drawRange a bs.length) := by
  simp [dmaWrite, hb, Nat.not_lt.mpr h]

/-- With no other value to choose, the draw is the byte in memory. -/
@[simp] theorem pick_nil (k : Nat) (v : Byte) : pick k v [] = v := rfl

/-- What a DMA read finds depends on memory and on the host's unseen and racing writes alone (R311, R312). -/
theorem dmaBytes_congr {s t : State} (hm : t.mem = s.mem) (hu : t.unseen = s.unseen) (hr : t.raced = s.raced) (k a n : Nat) :
    t.dmaBytes k a n = s.dmaBytes k a n := by
  induction n generalizing k a with
  | zero => rfl
  | succ n ih => simp [State.dmaBytes, State.dmaByte, hm, hu, hr, ih]

@[simp] theorem ivBytes_length (s : State) : s.ivBytes.length = s.ebs.toNat := by simp [State.ivBytes]
@[simp] theorem chainBytes_length (s : State) : s.chainBytes.length = s.ebs.toNat := by simp [State.chainBytes]

/-! ### Drawing a range -/

theorem drawRange_mem (s : State) (a n : Nat) :
    (s.drawRange a n).mem = s.mem.setBytes a (freeBytes s.draws (min n (Config.addressSpace - a))) := rfl

theorem drawRange_wf {s : State} (hw : s.mem.wf = true) (a n : Nat) : (s.drawRange a n).mem.wf = true := by
  rw [drawRange_mem]
  by_cases h : a ≤ Config.addressSpace
  · exact wf_setBytes hw (by rw [freeBytes_length]; omega)
  · simp [show min n (Config.addressSpace - a) = 0 by omega, freeBytes, Memory.setBytes, hw]

/-- Bytes outside the drawn range read as before. -/
theorem drawRange_get {s : State} (hw : s.mem.wf = true) {a n y : Nat} (hy : y < a ∨ a + n ≤ y) :
    (s.drawRange a n).mem.get y = s.mem.get y := by
  rw [drawRange_mem]
  by_cases h : a ≤ Config.addressSpace
  · exact get_setBytes_outside hw (by rw [freeBytes_length]; omega) (by rw [freeBytes_length]; omega)
  · simp [show min n (Config.addressSpace - a) = 0 by omega, freeBytes, Memory.setBytes]

/-! ### Races (R311) -/

theorem racedDst_lt {s : State} {a : Nat} (h : a ∈ s.racedDst) : a < Config.addressSpace := by
  simp only [State.racedDst, List.mem_filter, Bool.and_eq_true, decide_eq_true_eq] at h
  exact h.2.2

theorem racedDst_range {s : State} {a : Nat} (h : a ∈ s.racedDst) :
    s.dstAddr.toNat ≤ a ∧ a < s.dstAddr.toNat + s.dstSpan := by
  simp only [State.racedDst, List.mem_filter, Bool.and_eq_true, decide_eq_true_eq, inRange] at h
  exact h.2.1

theorem settleRaces_wf {s : State} (hw : s.mem.wf = true) : s.settleRaces.mem.wf = true :=
  wf_drawEach hw (fun _ h => racedDst_lt h)

/-- Settling races touches destination bytes alone. -/
theorem settleRaces_get {s : State} (hw : s.mem.wf = true) {y : Nat}
    (hy : y < s.dstAddr.toNat ∨ s.dstAddr.toNat + s.dstSpan ≤ y) : s.settleRaces.mem.get y = s.mem.get y :=
  get_drawEach hw (fun _ h => racedDst_lt h) (fun h => by have := racedDst_range h; omega)

/-- Settling races touches the destination bytes the host wrote alone. -/
theorem settleRaces_keeps {s : State} (hw : s.mem.wf = true) {y : Nat} (hy : y ∉ s.racedDst) :
    s.settleRaces.mem.get y = s.mem.get y := get_drawEach hw (fun _ h => racedDst_lt h) hy

/-- With nothing raced there is nothing to settle. -/
theorem settleRaces_of_raced {s : State} (h : s.racedDst = []) :
    s.settleRaces.mem = s.mem ∧ s.settleRaces.draws = s.draws := by
  simp [State.settleRaces, h, drawEach]

theorem racedDst_nil {s : State} (h : s.raced = []) : s.racedDst = [] := by simp [State.racedDst, h]

theorem racedDst_of_span {s : State} (h : s.dstSpan = 0) : s.racedDst = [] := by
  simp only [State.racedDst, h, List.filter_eq_nil_iff]
  intro a _
  simp [inRange]

/-- A command with no destination settles nothing. -/
theorem settleRaces_mem_of_span {s : State} (h : s.dstSpan = 0) : s.settleRaces.mem = s.mem :=
  (settleRaces_of_raced (racedDst_of_span h)).1

/-- A command during which the host wrote nothing settles nothing. -/
theorem settleRaces_mem_of_raced {s : State} (h : s.raced = []) : s.settleRaces.mem = s.mem :=
  (settleRaces_of_raced (racedDst_nil h)).1

theorem dstSpan_idle {s : State} (h : s.busy = false) : s.dstSpan = 0 := by simp [State.dstSpan, h]

/-- A command that is no stream command has no destination. -/
theorem dstSpan_noStream {s : State} (h : streamOf s.seq.op = none) : s.dstSpan = 0 := by
  simp [State.dstSpan, h]

@[simp] theorem dmaPut_dstSpan (s : State) (a : Nat) (bs : List Byte) : (s.dmaPut a bs).dstSpan = s.dstSpan := rfl
@[simp] theorem drawRange_dstSpan (s : State) (a k : Nat) : (s.drawRange a k).dstSpan = s.dstSpan := rfl
@[simp] theorem drawPending_dstSpan (s : State) : s.drawPending.dstSpan = s.dstSpan := rfl
@[simp] theorem updateWidths_dstSpan (s : State) : s.updateWidths.dstSpan = s.dstSpan := rfl
@[simp] theorem updateEbs_dstSpan (s : State) : s.updateEbs.dstSpan = s.dstSpan := rfl
@[simp] theorem clearCounters_dstSpan (s : State) : s.clearCounters.dstSpan = s.dstSpan := rfl
@[simp] theorem setPlan_dstSpan (s : State) (p : Plan) : (s.setPlan p).dstSpan = s.dstSpan := rfl
@[simp] theorem setChain_dstSpan (s : State) (bs : List Byte) : (s.setChain bs).dstSpan = s.dstSpan := rfl
@[simp] theorem clearChain_dstSpan (s : State) : s.clearChain.dstSpan = s.dstSpan := rfl
@[simp] theorem barrier_dstSpan (s : State) : s.barrier.dstSpan = s.dstSpan := rfl
@[simp] theorem orderReads_dstSpan (s : State) (a k : Nat) : (s.orderReads a k).dstSpan = s.dstSpan := rfl
@[simp] theorem clean_dstSpan (s : State) (a k : Nat) : (s.clean a k).dstSpan = s.dstSpan := rfl
@[simp] theorem invalidate_dstSpan (s : State) (a k : Nat) : (s.invalidate a k).dstSpan = s.dstSpan := rfl
@[simp] theorem answer_dstSpan (s : State) (a : Response) : (s.answer a).dstSpan = s.dstSpan := rfl
@[simp] theorem blockDone_dstSpan (s : State) (w : Word) : (s.blockDone w).dstSpan = s.dstSpan := rfl

/-! ### The widths of a modulus (R171) -/

theorem bitLen_valN_le (s : State) : bitLen s.valN ≤ 8192 := (bitLen_winValue_le _ _).trans (maxW_le _)

@[simp] theorem updateWidths_nbits_toNat (s : State) : s.updateWidths.nbits.toNat = bitLen s.valN := by
  have := bitLen_valN_le s
  rw [updateWidths_nbits, BitVec.toNat_ofNat, Nat.mod_eq_of_lt (by omega)]

@[simp] theorem updateWidths_cwidth_toNat (s : State) :
    s.updateWidths.cwidth.toNat = ceilDiv (bitLen s.valN) Config.widthDivisor := by
  have := bitLen_valN_le s
  rw [updateWidths_cwidth, BitVec.toNat_ofNat, Nat.mod_eq_of_lt]
  simp only [ceilDiv, Config.widthDivisor]; omega

theorem effectiveBs_lt (s : State) : effectiveBs s < 4294967296 := by
  unfold effectiveBs
  split
  · have := s.blksz.isLt; omega
  · have := s.nbits.isLt
    simp only [Config.blockDivisor]; omega

@[simp] theorem updateEbs_ebs_toNat (s : State) : s.updateEbs.ebs.toNat = effectiveBs s := by
  have := effectiveBs_lt s
  rw [updateEbs_ebs, BitVec.toNat_ofNat, Nat.mod_eq_of_lt (by omega)]

theorem maxBs_le (p : Config.Platform) : p.maxBs ≤ 1024 := by
  have := p.maxWordsPred.isLt
  unfold Config.Platform.maxBs Config.Platform.maxWords; omega

/-- The cipher width of a window value is at most MAXBS. -/
theorem width_le_maxBs (s : State) : ceilDiv (bitLen s.valN) Config.widthDivisor ≤ s.plat.maxBs := by
  have h := bitLen_winValue_le s.plat s.n
  simp only [State.valN, Config.Platform.maxW, Config.Platform.maxBs, ceilDiv, Config.widthDivisor] at *
  omega

/-! ### The plan (R197, R198) -/

theorem badBs_eq_false {bs cw : Nat} : badBs bs cw = false ↔ 0 < bs ∧ bs ≤ cw := by
  simp only [badBs, Bool.or_eq_false_iff, decide_eq_false_iff_not]
  omega

theorem badRange_eq_false {src len dst out cap : Nat} :
    badRange src len dst out cap = false ↔
      src + len ≤ Config.addressSpace ∧ out ≤ Config.outReqMax ∧ dst + out ≤ Config.addressSpace ∧ out ≤ cap ∧
      (0 < len → 0 < out → dst + out ≤ src ∨ src + len ≤ dst) := by
  simp only [badRange, Bool.or_eq_false_iff, Bool.and_eq_false_iff, decide_eq_false_iff_not]
  omega

/-- R197 for an encrypting command. -/
theorem plan_enc {c : StreamOp} (hc : c.dec = false) {ivhdr : Bool} {len bs cw : Nat} {p : Plan}
    (h : plan c ivhdr len bs cw = some p) :
    p.hdr = (if c.cbc && ivhdr then bs else 0) ∧ p.nb = ceilDiv len bs ∧ p.out = p.hdr + p.nb * cw := by
  simp only [plan, hc] at h
  simp at h
  subst h
  simp

/-- R197 for a decrypting command: the source is the header and whole cipher blocks. -/
theorem plan_dec {c : StreamOp} (hc : c.dec = true) {ivhdr : Bool} {len bs cw : Nat} {p : Plan}
    (h : plan c ivhdr len bs cw = some p) :
    p.hdr = (if c.cbc && ivhdr then bs else 0) ∧ p.hdr + p.nb * cw = len ∧ p.out = p.nb * bs := by
  simp only [plan, hc, if_true] at h
  generalize (if c.cbc && ivhdr then bs else 0) = hdr at h ⊢
  split at h
  · cases h
  · rename_i hn
    push Not at hn
    cases h
    have := Nat.div_add_mod (len - hdr) cw
    rw [hn.2, Nat.add_zero, Nat.mul_comm] at this
    exact ⟨rfl, by simp only; omega, rfl⟩

/-- A stream has at most as many blocks as source bytes (R197). -/
theorem plan_nb_le {c : StreamOp} {ivhdr : Bool} {len bs cw : Nat} {p : Plan} (h0 : 0 < bs) (h1 : bs ≤ cw)
    (h : plan c ivhdr len bs cw = some p) : p.nb ≤ len := by
  cases hc : c.dec with
  | true =>
    obtain ⟨_, h2, _⟩ := plan_dec hc h
    have : p.nb ≤ p.nb * cw := Nat.le_mul_of_pos_right _ (by omega)
    omega
  | false =>
    obtain ⟨_, h2, _⟩ := plan_enc hc h
    by_contra hlt
    have hlt : len < ceilDiv len bs := by omega
    rw [lt_ceilDiv_iff h0] at hlt
    have : len ≤ len * bs := Nat.le_mul_of_pos_right _ h0
    omega

/-- While block steps run, the destination span is OUT_REQ. -/
theorem dstSpan_blocks {c : StreamOp} {s : State} (hb : BlocksOk c s) (hp : s.seq.phase = .blocks) (ho : s.seq.op = c.op) :
    s.dstSpan = s.outReq.toNat := by
  have hbusy : s.busy = true := by simp [busy_iff, hp]
  have hw : s.updateWidths.cwidth.toNat = s.cwidth.toNat := by rw [updateWidths_cwidth_toNat, hb.cwidth]
  have he : effectiveBs s.updateWidths = s.ebs.toNat := by
    rw [hb.bs]
    unfold effectiveBs
    rw [show s.updateWidths.bssel = s.bssel from rfl, updateWidths_nbits_toNat, hb.nbits]
    rfl
  have hsp : startPlan c s = some { nb := s.nblkTotal.toNat, hdr := s.seq.hdr, out := s.outReq.toNat } := by
    have hm := hb.modulus
    simp only [startPlan, updateEbs_ebs_toNat, updateEbs_cwidth, he, hw, hb.size, hb.plan, hb.range,
      Nat.not_le.mpr hm, if_false, Bool.false_eq_true]
  simp [State.dstSpan, hbusy, ho, streamOf_op, hsp]

/-- The source range of the next block lies in `[SRC_ADDR, SRC_ADDR + SRC_LEN)` (R89). -/
theorem srcBlock_range {c : StreamOp} {s : State} (hb : BlocksOk c s) (hlt : s.seq.blk.toNat < s.nblkTotal.toNat) :
    s.srcAddr.toNat ≤ s.srcBlock c ∧ s.srcBlock c + s.srcTake c ≤ s.srcAddr.toNat + s.srcLen.toNat := by
  cases hc : c.dec with
  | true =>
    obtain ⟨_, h2, _⟩ := plan_dec hc hb.plan
    simp only at h2
    have : (s.seq.blk.toNat + 1) * s.cwidth.toNat ≤ s.nblkTotal.toNat * s.cwidth.toNat := Nat.mul_le_mul_right _ hlt
    rw [Nat.add_mul, Nat.one_mul] at this
    simp only [State.srcBlock, State.srcTake, hc, if_true]
    omega
  | false =>
    obtain ⟨_, h2, _⟩ := plan_enc hc hb.plan
    simp only at h2
    have hpos := (badBs_eq_false.mp hb.size).1
    rw [h2, lt_ceilDiv_iff hpos] at hlt
    simp only [State.srcBlock, State.srcTake, hc, Bool.false_eq_true, if_false]
    omega

/-- The destination of the next block lies in `[DST_ADDR, DST_ADDR + OUT_REQ)`, after the bytes DST_LEN counts (R89). -/
theorem dstBlock_range {c : StreamOp} {s : State} (hb : BlocksOk c s) (hlt : s.seq.blk.toNat < s.nblkTotal.toNat) :
    s.dstBlock c = s.dstAddr.toNat + s.dstLen.toNat ∧
    s.dstLen.toNat + s.outWidth c ≤ s.outReq.toNat := by
  have hd := hb.dstLen
  cases hc : c.dec with
  | true =>
    obtain ⟨_, _, h3⟩ := plan_dec hc hb.plan
    simp only at h3
    have : (s.seq.blk.toNat + 1) * s.ebs.toNat ≤ s.nblkTotal.toNat * s.ebs.toNat := Nat.mul_le_mul_right _ hlt
    rw [Nat.add_mul, Nat.one_mul] at this
    simp only [State.dstBlock, State.outWidth, hc, if_true] at *
    omega
  | false =>
    obtain ⟨_, _, h3⟩ := plan_enc hc hb.plan
    simp only at h3
    have : (s.seq.blk.toNat + 1) * s.cwidth.toNat ≤ s.nblkTotal.toNat * s.cwidth.toNat := Nat.mul_le_mul_right _ hlt
    rw [Nat.add_mul, Nat.one_mul] at this
    simp only [State.dstBlock, State.outWidth, hc, Bool.false_eq_true, if_false] at *
    omega

/-- When every block is done, DST_LEN is OUT_REQ (R209). -/
theorem dstLen_final {c : StreamOp} {s : State} (hb : BlocksOk c s) (heq : s.seq.blk.toNat = s.nblkTotal.toNat) :
    s.dstLen.toNat = s.outReq.toNat := by
  have hd := hb.dstLen
  cases hc : c.dec with
  | true =>
    obtain ⟨_, _, h3⟩ := plan_dec hc hb.plan
    simp only [State.outWidth, hc, if_true] at *
    rw [hd, h3, heq]; omega
  | false =>
    obtain ⟨_, _, h3⟩ := plan_enc hc hb.plan
    simp only [State.outWidth, hc, Bool.false_eq_true, if_false] at *
    rw [hd, h3, heq]

/-! ### What a reset leaves in memory (R302) -/

theorem startPlan_range {c : StreamOp} {s : State} {p : Plan} (h : startPlan c s = some p) :
    badRange s.srcAddr.toNat s.srcLen.toNat s.dstAddr.toNat p.out s.dstCap.toNat = false := by
  unfold startPlan at h
  simp only at h
  split at h
  · cases h
  split at h
  · cases h
  split at h
  · cases h
  split at h
  · cases h
  · rename_i hb
    cases h
    simpa using hb

/-- The destination span is the output of the running stream command's plan, or 0. -/
theorem dstSpan_cases (s : State) : s.dstSpan = 0 ∨ ∃ c p, startPlan c s = some p ∧ s.dstSpan = p.out := by
  unfold State.dstSpan
  split
  · split
    · rename_i c _
      cases hp : startPlan c s with
      | none => simp
      | some p => exact .inr ⟨c, p, hp, rfl⟩
    · exact .inl rfl
  · exact .inl rfl

/-- The destination of a running command meets no byte of its source (R198). -/
theorem racedDst_source {s : State} {a : Nat} (h : a ∈ s.racedDst) :
    a < s.srcAddr.toNat ∨ s.srcAddr.toNat + s.srcLen.toNat ≤ a := by
  have hr := racedDst_range h
  rcases dstSpan_cases s with h0 | ⟨c, p, hp, h0⟩ <;> rw [h0] at hr
  · omega
  · have := (badRange_eq_false.mp (startPlan_range hp)).2.2.2.2
    omega

theorem drawDst_wf {s : State} (hw : s.mem.wf = true) (a n : Nat) : (s.drawDst a n).mem.wf = true :=
  drawRange_wf (drawRange_wf hw _ _) _ _

/-- Bytes outside the range read as before, and so do source bytes. -/
theorem drawDst_get {s : State} (hw : s.mem.wf = true) {a n y : Nat}
    (hy : y < a ∨ a + n ≤ y ∨ (s.srcAddr.toNat ≤ y ∧ y < s.srcAddr.toNat + s.srcLen.toNat)) :
    (s.drawDst a n).mem.get y = s.mem.get y := by
  unfold State.drawDst
  rw [drawRange_get (drawRange_wf hw a (min n (s.srcAddr.toNat - a))) (by omega), drawRange_get hw (by omega)]

@[simp] theorem drawDst_dstSpan (s : State) (a k : Nat) : (s.drawDst a k).dstSpan = s.dstSpan := by simp [State.drawDst]

@[simp] theorem drawDst_racedDst (s : State) (a k : Nat) : (s.drawDst a k).racedDst = s.racedDst := by
  simp [State.racedDst]

/-- Everything a reset leaves in memory: all of it where no stream command runs, else every byte that is no destination byte and
was not written by the host, or is a source byte. -/
theorem settleReset_get {s : State} (hw : s.mem.wf = true) {y : Nat}
    (hy : (s.busy && (streamOf s.seq.op).isSome) = false ∨ 
      (y < s.dstAddr.toNat ∨ s.dstAddr.toNat + s.outReq.toNat ≤ y) ∧ y ∉ s.racedDst ∨
      (s.srcAddr.toNat ≤ y ∧ y < s.srcAddr.toNat + s.srcLen.toNat)) :
    s.settleReset.mem.get y = s.mem.get y := by
  unfold State.settleReset
  split
  · rename_i hb
    have hr : y ∉ (s.drawDst s.dstAddr.toNat s.outReq.toNat).racedDst := by
      rw [drawDst_racedDst]
      rcases hy with hy | ⟨_, hr⟩ | hy
      · rw [hb] at hy; cases hy
      · exact hr
      · exact fun h => by have := racedDst_source h; omega
    refine (settleRaces_keeps (drawDst_wf hw _ _) hr).trans (drawDst_get hw ?_)
    rcases hy with hy | ⟨hy, _⟩ | hy
    · rw [hb] at hy; cases hy
    · omega
    · exact .inr (.inr hy)
  · rfl

end Sys2Proof.Laws
end

