-- ==== Sys2Proof/Laws/PerInstr.lean ====
section
/-! SUPPORT. A statement made for every instruction, one lemma per constructor: the fields of its encoded word. -/

namespace Sys2Proof.Laws

/-- The word of a command has bits [31:5] clear, `OP` not reserved, and ESEL set for MODEXP alone (R111, R113, R114); the
word of a control action has an action bit set (R115). -/
def Fields.Statement (i : Instr) : Prop :=
  match i.format with
  | .cmd32 =>
    cmdReserved (encode i) = 0 ∧ (eselField (encode i) = true → opField (encode i) = 1) ∧
      opField (encode i) ∈ [0, 1, 4, 5, 6, 7]
  | .ctrl32 => (encode i).getLsbD 0 = true ∨ (encode i).getLsbD 1 = true

theorem Fields.nop : Fields.Statement .nop := ⟨by decide, by decide, by decide⟩
theorem Fields.modexpE : Fields.Statement .modexpE := ⟨by decide, by decide, by decide⟩
theorem Fields.modexpD : Fields.Statement .modexpD := ⟨by decide, by decide, by decide⟩
theorem Fields.ecbEnc : Fields.Statement .ecbEnc := ⟨by decide, by decide, by decide⟩
theorem Fields.ecbDec : Fields.Statement .ecbDec := ⟨by decide, by decide, by decide⟩
theorem Fields.cbcEnc : Fields.Statement .cbcEnc := ⟨by decide, by decide, by decide⟩
theorem Fields.cbcDec : Fields.Statement .cbcDec := ⟨by decide, by decide, by decide⟩

theorem Fields.ctrlAbort (reserved : Nat) : Fields.Statement (.ctrlAbort reserved) := by
  left
  change (BitVec.ofNat 30 reserved ++ (1 : BitVec 2)).getLsbD 0 = true
  rw [BitVec.getLsbD_append]; rfl

theorem Fields.ctrlSrst (abort : Bool) (reserved : Nat) : Fields.Statement (.ctrlSrst abort reserved) := by
  right
  change (BitVec.ofNat 30 reserved ++ (1 : BitVec 1) ++ BitVec.ofBool abort).getLsbD 1 = true
  rw [BitVec.getLsbD_append, BitVec.getLsbD_append]; rfl

end Sys2Proof.Laws
end

