-- ==== Sys2Proof/Laws/Port.lean ====
section
/-! SUPPORT. The register port: where each register stands on the bus (R116), which lanes carry a word (R83), which bytes a
host write leaves (R311), and what the writes to a register can do (R141). -/

namespace Sys2Proof.Laws

open Sys2Proof.Machine

/-- A register of the map: its window word index is one of 256 (R40, R116). -/
def OnMap (r : Reg) : Prop := ∀ w k, r = .word w k → k < 256

theorem controlReg_offset {i : Nat} {r : Reg} (h : controlReg i = some r) : r.offset = 4 * i := by
  unfold controlReg at h
  split at h <;> cases h <;> rfl

theorem windowAt_offset {i : Nat} {w : Win} (h : windowAt i = some w) : w.offset = 0x400 * i := by
  unfold windowAt at h
  split at h <;> cases h <;> rfl

theorem windowAt_own (w : Win) : windowAt (w.offset / 0x400) = some w := by cases w <;> rfl

theorem winOffset_spec (w : Win) : w.offset % 0x400 = 0 ∧ 0x400 ≤ w.offset ∧ w.offset < 0x2000 := by
  cases w <;> simp [Win.offset]

theorem regAt_offset {r : Reg} (hr : OnMap r) : regAt r.offset = some r := by
  cases r with
  | word w k =>
    have hk := hr w k rfl
    obtain ⟨h1, h2, _⟩ := winOffset_spec w
    have e1 : (w.offset + 4 * k) / 1024 = w.offset / 1024 := by omega
    have e2 : (w.offset + 4 * k) % 1024 / 4 = k := by omega
    simp [regAt, Reg.offset, show (w.offset + 4 * k) % 4 = 0 by omega, show ¬w.offset + 4 * k < 1024 by omega, e1, e2,
      windowAt_own]
  | _ => rfl

theorem offset_lt {r : Reg} (hr : OnMap r) : r.offset < 0x2000 := by
  cases r with
  | word w k =>
    have hk := hr w k rfl
    cases w <;> simp [Reg.offset, Win.offset] <;> omega
  | _ => simp [Reg.offset]

theorem baseAddr_toNat (p : Config.Platform) : (baseAddr p).toNat = 8192 * p.basePage.toNat := by
  unfold baseAddr
  rw [BitVec.toNat_append, Nat.shiftLeft_eq]
  show p.basePage.toNat * 2 ^ 13 ||| 0 = _
  rw [Nat.or_zero]
  omega

/-- A register's bus address decodes to its offset (R12, R81). -/
theorem portOffset_busAddr (p : Config.Platform) {r : Reg} (hr : OnMap r) :
    portOffset p (busAddr p r) = some r.offset := by
  have h := offset_lt hr
  have hb := p.basePage.isLt
  have hn : (busAddr p r).toNat = 8192 * p.basePage.toNat + r.offset := by
    rw [busAddr, BitVec.toNat_add, baseAddr_toNat, BitVec.toNat_ofNat]
    omega
  have h1 : (busAddr p r).extractLsb' 13 19 = p.basePage := by
    apply BitVec.eq_of_toNat_eq
    rw [BitVec.extractLsb'_toNat, hn, Nat.shiftRight_eq_div_pow]
    omega
  have h2 : ((busAddr p r).extractLsb' 0 13).toNat = r.offset := by
    rw [BitVec.extractLsb'_toNat, hn, Nat.shiftRight_eq_div_pow]
    omega
  rw [portOffset, if_pos h1, h2]

/-- The four lanes of a word give it back (R83). -/
theorem wordOfLanes_lanes (w : Word) : wordOfLanes (lane w 0) (lane w 1) (lane w 2) (lane w 3) = w := by
  apply BitVec.eq_of_getLsbD_eq
  intro i hi
  simp only [wordOfLanes, lane, BitVec.getLsbD_append, BitVec.getLsbD_extractLsb']
  grind

theorem fullWord_fullLanes (w : Word) : fullWord (fullLanes w) = some w := by
  simp [fullLanes, lanesOf, fullWord, wordOfLanes_lanes]

/-- An address in the aperture is its offset past the base (R12, R81). -/
theorem portOffset_addr {p : Config.Platform} {addr : Word} {off : Nat} (h : portOffset p addr = some off) :
    addr = baseAddr p + BitVec.ofNat 32 off := by
  unfold portOffset at h
  split at h
  · rename_i hp
    have h := Option.some.inj h
    apply BitVec.eq_of_toNat_eq
    have hlt := addr.isLt
    rw [BitVec.toNat_add, baseAddr_toNat, ← hp, BitVec.extractLsb'_toNat, Nat.shiftRight_eq_div_pow, BitVec.toNat_ofNat]
    rw [BitVec.extractLsb'_toNat, Nat.shiftRight_eq_div_pow] at h
    omega
  · cases h

/-- Full-strobe lanes are the lanes of the word they carry (R83). -/
theorem lanes_of_fullWord {l : List (Option Byte)} {v : Word} (h : fullWord l = some v) : l = fullLanes v := by
  unfold fullWord at h
  split at h
  · rename_i b0 b1 b2 b3
    cases h
    have key : ∀ i < 4, lane (wordOfLanes b0 b1 b2 b3) i = [b0, b1, b2, b3].getD i 0 := by
      intro i hi
      apply BitVec.eq_of_getLsbD_eq
      intro j hj
      simp only [wordOfLanes, lane, BitVec.getLsbD_append, BitVec.getLsbD_extractLsb']
      rcases (by omega : i = 0 ∨ i = 1 ∨ i = 2 ∨ i = 3) with rfl | rfl | rfl | rfl <;> simp <;> grind
    simp [fullLanes, lanesOf, key]
  · cases h

@[simp] theorem landed_length (s : State) (k a : Nat) (bs : List Byte) : (s.landed k a bs).length = bs.length := by
  induction bs generalizing k a with
  | nil => rfl
  | cons b bs ih => simp [State.landed, ih]

/-- A host that writes no destination byte of a command whose end it has not observed writes the bytes it gives (R311). -/
theorem landed_of_released {s : State} (k a : Nat) (bs : List Byte)
    (h : ∀ x, a ≤ x → x < a + bs.length → s.notReleased x = false) : s.landed k a bs = bs := by
  induction bs generalizing k a with
  | nil => rfl
  | cons b bs ih =>
    simp only [State.landed, h a (by omega) (by simp)]
    rw [ih _ _ fun x h1 h2 => h x (by omega) (by simp; omega)]
    rfl

/-- Everything a register read can do: the value is the answer, and `observe` touches the model's own view of the host alone. -/
theorem portRead_eq (s : State) {r : Reg} (hr : OnMap r) :
    portRead s (busAddr s.plat r) 4 = .next ((s.observe (s.showsEnd r)).answer (.data (s.readReg r))) := by
  simp [portRead, portOffset_busAddr s.plat hr, regAt_offset hr]

/-- Everything a full-strobe write of a mapped register can do: it is that register's write (R81, R83, R141). -/
theorem portWrite_eq (s : State) {r : Reg} (hr : OnMap r) (w : Word) :
    portWrite s (busAddr s.plat r) (fullLanes w) = writeReg (s.answer .ok) r w := by
  simp [portWrite, portOffset_busAddr s.plat hr, regAt_offset hr, fullWord_fullLanes]

/-- A CTRL word with both action bits 0 does nothing (R115). -/
theorem writeCtrl_noAction (s : State) {w : Word} (h1 : w.getLsbD 1 = false) (h0 : w.getLsbD 0 = false) :
    writeCtrl s w = .next s := by
  have h : decodeCtrl w = .noAction := by
    unfold decodeCtrl
    rw [h1, h0]
    rfl
  rw [writeCtrl, h]

/-- Once the host has seen STATUS show an end, no ended command is unobserved (R93(b), R155(a)). -/
theorem unobserved_of_statusRead {s : State} (hb : s.busy = false) (hd : s.status.done = true ∨ s.status.err = true) :
    (s.observe (s.showsEnd .status)).unobserved = [] := by
  have : (s.status.done || s.status.err) = true := by simpa using hd
  simp [State.showsEnd, hb, this]

end Sys2Proof.Laws
end

