-- ==== Sys2Proof/Laws/Step.lean ====
section
/-! SUPPORT. Everything a step can do, said once per level: a command on either agent's turn (R142 to R146), the start and
block steps of a stream command (R190, R205 to R208), a register write (R141), a move of a run (R10). -/

namespace Sys2Proof.Laws

open Sys2Proof.Machine

/-! ### Decoding (R112 to R115) -/

/-- The instruction of an `OP` and `ESEL` is a command word with these fields and no reserved bit set. -/
theorem decodeOp_spec {op : BitVec 4} {esel : Bool} {i : Instr} (h : decodeOp op esel = .instr i) :
    i.format = .cmd32 ∧ opField (encode i) = op ∧ eselField (encode i) = esel ∧ cmdReserved (encode i) = 0 := by
  have key : ∀ op esel, ∀ j ∈ [Instr.nop, .modexpE, .modexpD, .ecbEnc, .ecbDec, .cbcEnc, .cbcDec],
      decodeOp op esel = .instr j → opField (encode j) = op ∧ eselField (encode j) = esel := by decide
  have hmem : i ∈ [Instr.nop, .modexpE, .modexpD, .ecbEnc, .ecbDec, .cbcEnc, .cbcDec] := by
    unfold decodeOp at h
    split at h <;> cases h <;> simp
  obtain ⟨h1, h2⟩ := key op esel i hmem h
  refine ⟨?_, h1, h2, ?_⟩ <;> revert hmem <;> cases i <;> simp <;> rfl

theorem decodeOp_noAction (op : BitVec 4) (esel : Bool) : decodeOp op esel ≠ .noAction := by
  revert op esel; decide

theorem decodeCmd_spec {w : Word} {i : Instr} (h : decodeCmd w = .instr i) :
    i.format = .cmd32 ∧ opField (encode i) = opField w ∧ eselField (encode i) = eselField w ∧ cmdReserved w = 0 := by
  unfold decodeCmd at h
  split at h
  · cases h
  · rename_i hr
    obtain ⟨h1, h2, h3, _⟩ := decodeOp_spec h
    exact ⟨h1, h2, h3, by simpa using hr⟩

theorem decodeCmd_noAction (w : Word) : decodeCmd w ≠ .noAction := by
  unfold decodeCmd
  split
  · simp
  · exact decodeOp_noAction _ _

/-- A stream command's instruction is the one its `OP` decodes to. -/
theorem decodeOp_stream (c : StreamOp) : decodeOp c.op false = .instr c.instr := by cases c <;> rfl

/-! ### A command on the host's turn (R142, R143) -/

theorem cmdWrite_idle {s : State} (h : s.busy = false) (op : BitVec 4) (esel : Bool) :
    s.cmdWrite op esel = s.accept op esel := by simp [State.cmdWrite, h]

theorem cmdWrite_busy {s : State} (h : s.busy = true) (op : BitVec 4) (esel : Bool) :
    s.cmdWrite op esel = s.ignoredBusy := by simp [State.cmdWrite, h]

/-- On the host's turn every command is a CMD write of its word's fields. -/
theorem exec_host {i : Instr} {s : State} (hi : i.format = .cmd32) (ht : s.turn = .host) :
    exec i s = .next (s.cmdWrite (opField (encode i)) (eselField (encode i))) := by
  cases i <;> cases hi <;>
  · simp only [exec, execNop, execModexpE, execModexpD, execEcbEnc, execEcbDec, execCbcEnc, execCbcDec, command, ht]
    rfl

/-! ### A command on the engine's turn (R146) -/

theorem command_engine {s : State} (ht : s.turn = .engine) (op : BitVec 4) (esel : Bool) (e : State → StepResult) :
    command op esel e s = if s.seq.op = op ∧ s.seq.esel = esel then e s else .next s := by simp [command, ht]

/-- The block step of a stream command. -/
def blockStep (c : StreamOp) : State → StepResult := if c.dec then decBlock c else encBlock c

/-- A stream command's meaning, in one form for the four. -/
theorem exec_stream (c : StreamOp) (s : State) :
    exec c.instr s = command c.op false (streamEngine c (blockStep c)) s := by cases c <;> rfl

/-- The start step of a running stream command. -/
theorem exec_stream_start {c : StreamOp} {s : State} (h : s.runs c.op false .start) :
    exec c.instr s = streamStart c s := by
  obtain ⟨ht, ho, he, hp⟩ := h
  simp [exec_stream, command_engine ht, ho, he, streamEngine, hp]

/-- The block step of a running stream command with a block left. -/
theorem exec_stream_block {c : StreamOp} {s : State} (h : s.runs c.op false .blocks) (hlt : s.seq.blk < s.nblkTotal) :
    exec c.instr s = blockStep c s := by
  obtain ⟨ht, ho, he, hp⟩ := h
  simp [exec_stream, command_engine ht, ho, he, streamEngine, hp, blocksPhase, hlt]

/-- The last step of a running stream command (R209). -/
theorem exec_stream_last {c : StreamOp} {s : State} (h : s.runs c.op false .blocks) (heq : s.seq.blk = s.nblkTotal) :
    exec c.instr s = .next s.complete := by
  obtain ⟨ht, ho, he, hp⟩ := h
  simp [exec_stream, command_engine ht, ho, he, streamEngine, hp, blocksPhase, heq]

/-! ### Updates that depend on the command -/

/-- The state after a block's source is read. -/
def afterRead (s : State) (c : StreamOp) : State := { s with draws := s.draws + s.srcTake c }

/-! #### What `chainUpdate`, `drawAhead` and `afterRead` leave alone -/

@[simp] theorem chainUpdate_n (s : State) (c : StreamOp) (cb : List Byte) : (s.chainUpdate c cb).n = s.n := by unfold State.chainUpdate; split <;> rfl
@[simp] theorem chainUpdate_e (s : State) (c : StreamOp) (cb : List Byte) : (s.chainUpdate c cb).e = s.e := by unfold State.chainUpdate; split <;> rfl
@[simp] theorem chainUpdate_d (s : State) (c : StreamOp) (cb : List Byte) : (s.chainUpdate c cb).d = s.d := by unfold State.chainUpdate; split <;> rfl
@[simp] theorem chainUpdate_base (s : State) (c : StreamOp) (cb : List Byte) : (s.chainUpdate c cb).base = s.base := by unfold State.chainUpdate; split <;> rfl
@[simp] theorem chainUpdate_result (s : State) (c : StreamOp) (cb : List Byte) : (s.chainUpdate c cb).result = s.result := by unfold State.chainUpdate; split <;> rfl
@[simp] theorem chainUpdate_iv (s : State) (c : StreamOp) (cb : List Byte) : (s.chainUpdate c cb).iv = s.iv := by unfold State.chainUpdate; split <;> rfl
@[simp] theorem chainUpdate_cfg (s : State) (c : StreamOp) (cb : List Byte) : (s.chainUpdate c cb).cfg = s.cfg := by unfold State.chainUpdate; split <;> rfl
@[simp] theorem chainUpdate_blksz (s : State) (c : StreamOp) (cb : List Byte) : (s.chainUpdate c cb).blksz = s.blksz := by unfold State.chainUpdate; split <;> rfl
@[simp] theorem chainUpdate_srcAddr (s : State) (c : StreamOp) (cb : List Byte) : (s.chainUpdate c cb).srcAddr = s.srcAddr := by unfold State.chainUpdate; split <;> rfl
@[simp] theorem chainUpdate_srcLen (s : State) (c : StreamOp) (cb : List Byte) : (s.chainUpdate c cb).srcLen = s.srcLen := by unfold State.chainUpdate; split <;> rfl
@[simp] theorem chainUpdate_dstAddr (s : State) (c : StreamOp) (cb : List Byte) : (s.chainUpdate c cb).dstAddr = s.dstAddr := by unfold State.chainUpdate; split <;> rfl
@[simp] theorem chainUpdate_dstCap (s : State) (c : StreamOp) (cb : List Byte) : (s.chainUpdate c cb).dstCap = s.dstCap := by unfold State.chainUpdate; split <;> rfl
@[simp] theorem chainUpdate_dstLen (s : State) (c : StreamOp) (cb : List Byte) : (s.chainUpdate c cb).dstLen = s.dstLen := by unfold State.chainUpdate; split <;> rfl
@[simp] theorem chainUpdate_nbits (s : State) (c : StreamOp) (cb : List Byte) : (s.chainUpdate c cb).nbits = s.nbits := by unfold State.chainUpdate; split <;> rfl
@[simp] theorem chainUpdate_cwidth (s : State) (c : StreamOp) (cb : List Byte) : (s.chainUpdate c cb).cwidth = s.cwidth := by unfold State.chainUpdate; split <;> rfl
@[simp] theorem chainUpdate_ebs (s : State) (c : StreamOp) (cb : List Byte) : (s.chainUpdate c cb).ebs = s.ebs := by unfold State.chainUpdate; split <;> rfl
@[simp] theorem chainUpdate_nblkTotal (s : State) (c : StreamOp) (cb : List Byte) : (s.chainUpdate c cb).nblkTotal = s.nblkTotal := by unfold State.chainUpdate; split <;> rfl
@[simp] theorem chainUpdate_nblkDone (s : State) (c : StreamOp) (cb : List Byte) : (s.chainUpdate c cb).nblkDone = s.nblkDone := by unfold State.chainUpdate; split <;> rfl
@[simp] theorem chainUpdate_outReq (s : State) (c : StreamOp) (cb : List Byte) : (s.chainUpdate c cb).outReq = s.outReq := by unfold State.chainUpdate; split <;> rfl
@[simp] theorem chainUpdate_errInfo (s : State) (c : StreamOp) (cb : List Byte) : (s.chainUpdate c cb).errInfo = s.errInfo := by unfold State.chainUpdate; split <;> rfl
@[simp] theorem chainUpdate_status (s : State) (c : StreamOp) (cb : List Byte) : (s.chainUpdate c cb).status = s.status := by unfold State.chainUpdate; split <;> rfl
@[simp] theorem chainUpdate_intEn (s : State) (c : StreamOp) (cb : List Byte) : (s.chainUpdate c cb).intEn = s.intEn := by unfold State.chainUpdate; split <;> rfl
@[simp] theorem chainUpdate_intStat (s : State) (c : StreamOp) (cb : List Byte) : (s.chainUpdate c cb).intStat = s.intStat := by unfold State.chainUpdate; split <;> rfl
@[simp] theorem chainUpdate_seq (s : State) (c : StreamOp) (cb : List Byte) : (s.chainUpdate c cb).seq = s.seq := by unfold State.chainUpdate; split <;> rfl
@[simp] theorem chainUpdate_mem (s : State) (c : StreamOp) (cb : List Byte) : (s.chainUpdate c cb).mem = s.mem := by unfold State.chainUpdate; split <;> rfl
@[simp] theorem chainUpdate_plat (s : State) (c : StreamOp) (cb : List Byte) : (s.chainUpdate c cb).plat = s.plat := by unfold State.chainUpdate; split <;> rfl
@[simp] theorem chainUpdate_schedule (s : State) (c : StreamOp) (cb : List Byte) : (s.chainUpdate c cb).schedule = s.schedule := by unfold State.chainUpdate; split <;> rfl
@[simp] theorem chainUpdate_turn (s : State) (c : StreamOp) (cb : List Byte) : (s.chainUpdate c cb).turn = s.turn := by unfold State.chainUpdate; split <;> rfl
@[simp] theorem chainUpdate_resp (s : State) (c : StreamOp) (cb : List Byte) : (s.chainUpdate c cb).resp = s.resp := by unfold State.chainUpdate; split <;> rfl
@[simp] theorem chainUpdate_unseen (s : State) (c : StreamOp) (cb : List Byte) : (s.chainUpdate c cb).unseen = s.unseen := by unfold State.chainUpdate; split <;> rfl
@[simp] theorem chainUpdate_stale (s : State) (c : StreamOp) (cb : List Byte) : (s.chainUpdate c cb).stale = s.stale := by unfold State.chainUpdate; split <;> rfl
@[simp] theorem chainUpdate_raced (s : State) (c : StreamOp) (cb : List Byte) : (s.chainUpdate c cb).raced = s.raced := by unfold State.chainUpdate; split <;> rfl
@[simp] theorem chainUpdate_posted (s : State) (c : StreamOp) (cb : List Byte) : (s.chainUpdate c cb).posted = s.posted := by unfold State.chainUpdate; split <;> rfl
@[simp] theorem chainUpdate_written (s : State) (c : StreamOp) (cb : List Byte) : (s.chainUpdate c cb).written = s.written := by unfold State.chainUpdate; split <;> rfl
@[simp] theorem chainUpdate_unobserved (s : State) (c : StreamOp) (cb : List Byte) : (s.chainUpdate c cb).unobserved = s.unobserved := by unfold State.chainUpdate; split <;> rfl
@[simp] theorem chainUpdate_oldInt (s : State) (c : StreamOp) (cb : List Byte) : (s.chainUpdate c cb).oldInt = s.oldInt := by unfold State.chainUpdate; split <;> rfl
@[simp] theorem chainUpdate_draws (s : State) (c : StreamOp) (cb : List Byte) : (s.chainUpdate c cb).draws = s.draws := by unfold State.chainUpdate; split <;> rfl
@[simp] theorem drawAhead_n (s : State) (c : StreamOp) : (s.drawAhead c).n = s.n := by unfold State.drawAhead; split <;> rfl
@[simp] theorem drawAhead_e (s : State) (c : StreamOp) : (s.drawAhead c).e = s.e := by unfold State.drawAhead; split <;> rfl
@[simp] theorem drawAhead_d (s : State) (c : StreamOp) : (s.drawAhead c).d = s.d := by unfold State.drawAhead; split <;> rfl
@[simp] theorem drawAhead_base (s : State) (c : StreamOp) : (s.drawAhead c).base = s.base := by unfold State.drawAhead; split <;> rfl
@[simp] theorem drawAhead_result (s : State) (c : StreamOp) : (s.drawAhead c).result = s.result := by unfold State.drawAhead; split <;> rfl
@[simp] theorem drawAhead_iv (s : State) (c : StreamOp) : (s.drawAhead c).iv = s.iv := by unfold State.drawAhead; split <;> rfl
@[simp] theorem drawAhead_chain (s : State) (c : StreamOp) : (s.drawAhead c).chain = s.chain := by unfold State.drawAhead; split <;> rfl
@[simp] theorem drawAhead_cfg (s : State) (c : StreamOp) : (s.drawAhead c).cfg = s.cfg := by unfold State.drawAhead; split <;> rfl
@[simp] theorem drawAhead_blksz (s : State) (c : StreamOp) : (s.drawAhead c).blksz = s.blksz := by unfold State.drawAhead; split <;> rfl
@[simp] theorem drawAhead_srcAddr (s : State) (c : StreamOp) : (s.drawAhead c).srcAddr = s.srcAddr := by unfold State.drawAhead; split <;> rfl
@[simp] theorem drawAhead_srcLen (s : State) (c : StreamOp) : (s.drawAhead c).srcLen = s.srcLen := by unfold State.drawAhead; split <;> rfl
@[simp] theorem drawAhead_dstAddr (s : State) (c : StreamOp) : (s.drawAhead c).dstAddr = s.dstAddr := by unfold State.drawAhead; split <;> rfl
@[simp] theorem drawAhead_dstCap (s : State) (c : StreamOp) : (s.drawAhead c).dstCap = s.dstCap := by unfold State.drawAhead; split <;> rfl
@[simp] theorem drawAhead_dstLen (s : State) (c : StreamOp) : (s.drawAhead c).dstLen = s.dstLen := by unfold State.drawAhead; split <;> rfl
@[simp] theorem drawAhead_nbits (s : State) (c : StreamOp) : (s.drawAhead c).nbits = s.nbits := by unfold State.drawAhead; split <;> rfl
@[simp] theorem drawAhead_cwidth (s : State) (c : StreamOp) : (s.drawAhead c).cwidth = s.cwidth := by unfold State.drawAhead; split <;> rfl
@[simp] theorem drawAhead_ebs (s : State) (c : StreamOp) : (s.drawAhead c).ebs = s.ebs := by unfold State.drawAhead; split <;> rfl
@[simp] theorem drawAhead_nblkTotal (s : State) (c : StreamOp) : (s.drawAhead c).nblkTotal = s.nblkTotal := by unfold State.drawAhead; split <;> rfl
@[simp] theorem drawAhead_nblkDone (s : State) (c : StreamOp) : (s.drawAhead c).nblkDone = s.nblkDone := by unfold State.drawAhead; split <;> rfl
@[simp] theorem drawAhead_outReq (s : State) (c : StreamOp) : (s.drawAhead c).outReq = s.outReq := by unfold State.drawAhead; split <;> rfl
@[simp] theorem drawAhead_errInfo (s : State) (c : StreamOp) : (s.drawAhead c).errInfo = s.errInfo := by unfold State.drawAhead; split <;> rfl
@[simp] theorem drawAhead_status (s : State) (c : StreamOp) : (s.drawAhead c).status = s.status := by unfold State.drawAhead; split <;> rfl
@[simp] theorem drawAhead_intEn (s : State) (c : StreamOp) : (s.drawAhead c).intEn = s.intEn := by unfold State.drawAhead; split <;> rfl
@[simp] theorem drawAhead_intStat (s : State) (c : StreamOp) : (s.drawAhead c).intStat = s.intStat := by unfold State.drawAhead; split <;> rfl
@[simp] theorem drawAhead_seq (s : State) (c : StreamOp) : (s.drawAhead c).seq = s.seq := by unfold State.drawAhead; split <;> rfl
@[simp] theorem drawAhead_plat (s : State) (c : StreamOp) : (s.drawAhead c).plat = s.plat := by unfold State.drawAhead; split <;> rfl
@[simp] theorem drawAhead_schedule (s : State) (c : StreamOp) : (s.drawAhead c).schedule = s.schedule := by unfold State.drawAhead; split <;> rfl
@[simp] theorem drawAhead_turn (s : State) (c : StreamOp) : (s.drawAhead c).turn = s.turn := by unfold State.drawAhead; split <;> rfl
@[simp] theorem drawAhead_resp (s : State) (c : StreamOp) : (s.drawAhead c).resp = s.resp := by unfold State.drawAhead; split <;> rfl
@[simp] theorem drawAhead_raced (s : State) (c : StreamOp) : (s.drawAhead c).raced = s.raced := by unfold State.drawAhead; split <;> rfl
@[simp] theorem drawAhead_unseen (s : State) (c : StreamOp) : (s.drawAhead c).unseen = s.unseen := by unfold State.drawAhead; split <;> rfl
@[simp] theorem drawAhead_oldInt (s : State) (c : StreamOp) : (s.drawAhead c).oldInt = s.oldInt := by unfold State.drawAhead; split <;> rfl
@[simp] theorem afterRead_n (s : State) (c : StreamOp) : (afterRead s c).n = s.n := rfl
@[simp] theorem afterRead_e (s : State) (c : StreamOp) : (afterRead s c).e = s.e := rfl
@[simp] theorem afterRead_d (s : State) (c : StreamOp) : (afterRead s c).d = s.d := rfl
@[simp] theorem afterRead_base (s : State) (c : StreamOp) : (afterRead s c).base = s.base := rfl
@[simp] theorem afterRead_result (s : State) (c : StreamOp) : (afterRead s c).result = s.result := rfl
@[simp] theorem afterRead_iv (s : State) (c : StreamOp) : (afterRead s c).iv = s.iv := rfl
@[simp] theorem afterRead_chain (s : State) (c : StreamOp) : (afterRead s c).chain = s.chain := rfl
@[simp] theorem afterRead_cfg (s : State) (c : StreamOp) : (afterRead s c).cfg = s.cfg := rfl
@[simp] theorem afterRead_blksz (s : State) (c : StreamOp) : (afterRead s c).blksz = s.blksz := rfl
@[simp] theorem afterRead_srcAddr (s : State) (c : StreamOp) : (afterRead s c).srcAddr = s.srcAddr := rfl
@[simp] theorem afterRead_srcLen (s : State) (c : StreamOp) : (afterRead s c).srcLen = s.srcLen := rfl
@[simp] theorem afterRead_dstAddr (s : State) (c : StreamOp) : (afterRead s c).dstAddr = s.dstAddr := rfl
@[simp] theorem afterRead_dstCap (s : State) (c : StreamOp) : (afterRead s c).dstCap = s.dstCap := rfl
@[simp] theorem afterRead_dstLen (s : State) (c : StreamOp) : (afterRead s c).dstLen = s.dstLen := rfl
@[simp] theorem afterRead_nbits (s : State) (c : StreamOp) : (afterRead s c).nbits = s.nbits := rfl
@[simp] theorem afterRead_cwidth (s : State) (c : StreamOp) : (afterRead s c).cwidth = s.cwidth := rfl
@[simp] theorem afterRead_ebs (s : State) (c : StreamOp) : (afterRead s c).ebs = s.ebs := rfl
@[simp] theorem afterRead_nblkTotal (s : State) (c : StreamOp) : (afterRead s c).nblkTotal = s.nblkTotal := rfl
@[simp] theorem afterRead_nblkDone (s : State) (c : StreamOp) : (afterRead s c).nblkDone = s.nblkDone := rfl
@[simp] theorem afterRead_outReq (s : State) (c : StreamOp) : (afterRead s c).outReq = s.outReq := rfl
@[simp] theorem afterRead_errInfo (s : State) (c : StreamOp) : (afterRead s c).errInfo = s.errInfo := rfl
@[simp] theorem afterRead_status (s : State) (c : StreamOp) : (afterRead s c).status = s.status := rfl
@[simp] theorem afterRead_intEn (s : State) (c : StreamOp) : (afterRead s c).intEn = s.intEn := rfl
@[simp] theorem afterRead_intStat (s : State) (c : StreamOp) : (afterRead s c).intStat = s.intStat := rfl
@[simp] theorem afterRead_seq (s : State) (c : StreamOp) : (afterRead s c).seq = s.seq := rfl
@[simp] theorem afterRead_mem (s : State) (c : StreamOp) : (afterRead s c).mem = s.mem := rfl
@[simp] theorem afterRead_plat (s : State) (c : StreamOp) : (afterRead s c).plat = s.plat := rfl
@[simp] theorem afterRead_schedule (s : State) (c : StreamOp) : (afterRead s c).schedule = s.schedule := rfl
@[simp] theorem afterRead_turn (s : State) (c : StreamOp) : (afterRead s c).turn = s.turn := rfl
@[simp] theorem afterRead_resp (s : State) (c : StreamOp) : (afterRead s c).resp = s.resp := rfl
@[simp] theorem afterRead_unseen (s : State) (c : StreamOp) : (afterRead s c).unseen = s.unseen := rfl
@[simp] theorem afterRead_stale (s : State) (c : StreamOp) : (afterRead s c).stale = s.stale := rfl
@[simp] theorem afterRead_raced (s : State) (c : StreamOp) : (afterRead s c).raced = s.raced := rfl
@[simp] theorem afterRead_posted (s : State) (c : StreamOp) : (afterRead s c).posted = s.posted := rfl
@[simp] theorem afterRead_written (s : State) (c : StreamOp) : (afterRead s c).written = s.written := rfl
@[simp] theorem afterRead_unobserved (s : State) (c : StreamOp) : (afterRead s c).unobserved = s.unobserved := rfl
@[simp] theorem afterRead_oldInt (s : State) (c : StreamOp) : (afterRead s c).oldInt = s.oldInt := rfl
@[simp] theorem chainUpdate_dstSpan (s : State) (c : StreamOp) (cb : List Byte) : (s.chainUpdate c cb).dstSpan = s.dstSpan := by
  unfold State.chainUpdate; split <;> rfl
@[simp] theorem drawAhead_dstSpan (s : State) (c : StreamOp) : (s.drawAhead c).dstSpan = s.dstSpan := by
  unfold State.drawAhead; split <;> rfl
@[simp] theorem afterRead_dstSpan (s : State) (c : StreamOp) : (afterRead s c).dstSpan = s.dstSpan := rfl

@[simp] theorem drawAhead_racedDst (s : State) (c : StreamOp) : (s.drawAhead c).racedDst = s.racedDst := by
  simp [State.racedDst]

/-! #### What `drawAhead` does to memory (R213) -/

/-- Drawing ahead keeps memory canonical. -/
theorem drawAhead_wf {c : StreamOp} {s : State} (hw : s.mem.wf = true) : (s.drawAhead c).mem.wf = true := by
  unfold State.drawAhead
  split
  · exact drawRange_wf hw _ _
  · exact hw

/-- Only destination bytes not counted in DST_LEN are drawn, and only for ECB with ECB_PARALLEL (R213). -/
theorem drawAhead_get {c : StreamOp} {s : State} (hw : s.mem.wf = true) {y : Nat}
    (hy : y < s.dstAddr.toNat + s.dstLen.toNat ∨ s.dstAddr.toNat + s.outReq.toNat ≤ y ∨
      s.plat.ecbParallel = false ∨ c.cbc = true) :
    (s.drawAhead c).mem.get y = s.mem.get y := by
  unfold State.drawAhead
  split
  · rename_i h
    simp only [Bool.and_eq_true, Bool.not_eq_true'] at h
    apply drawRange_get hw
    rcases hy with hy | hy | hy | hy
    · exact .inl hy
    · omega
    · simp [h] at hy
    · simp [h] at hy
  · rfl

/-- The destination bytes counted in DST_LEN are not drawn (R213). -/
theorem drawAhead_getBytes {c : StreamOp} {s : State} (hw : s.mem.wf = true) {a n : Nat}
    (h : a + n ≤ s.dstAddr.toNat + s.dstLen.toNat) : (s.drawAhead c).mem.getBytes a n = s.mem.getBytes a n :=
  getBytes_congr fun j hj => drawAhead_get hw (by omega)

/-! ### The start step of a stream command (R190) -/

/-- Everything `chainInit` can do. -/
theorem chainInit_cases (c : StreamOp) (s : State) :
    (c.cbc = false ∧ chainInit c s = enterBlocks c s) ∨
    (c.cbc = true ∧ s.ivhdr = false ∧ chainInit c s = enterBlocks c (s.clearChain.setChain s.ivBytes)) ∨
    (c = .cbcEnc ∧ s.ivhdr = true ∧ ∃ s1, s1 = s.clearChain.setChain s.ivBytes ∧
      chainInit c s = match dmaWrite s1 s.dstAddr.toNat s.ivBytes with
        | .outside => .fault .dmaOutside
        | .busError s2 => .next (s2.raise .busError Config.noBlock)
        | .done _ s2 => enterBlocks c { s2 with dstLen := s2.ebs }) ∨
    (c = .cbcDec ∧ s.ivhdr = true ∧
      chainInit c s = match dmaRead s.clearChain s.srcAddr.toNat s.ebs.toNat with
        | .outside => .fault .dmaOutside
        | .busError s2 => .next (s2.raise .busError Config.noBlock)
        | .done header s2 => enterBlocks c (s2.setChain header)) := by
  cases c with
  | ecbEnc => exact .inl ⟨rfl, rfl⟩
  | ecbDec => exact .inl ⟨rfl, rfl⟩
  | cbcEnc =>
    cases h : s.ivhdr with
    | false =>
      refine .inr (.inl ⟨rfl, rfl, ?_⟩)
      simp [chainInit, show (s.clearChain.setChain s.ivBytes).ivhdr = s.ivhdr from rfl, h]
    | true =>
      refine .inr (.inr (.inl ⟨rfl, rfl, _, rfl, ?_⟩))
      simp only [chainInit, show (s.clearChain.setChain s.ivBytes).ivhdr = s.ivhdr from rfl, h, if_true]
      rfl
  | cbcDec =>
    cases h : s.ivhdr with
    | false =>
      refine .inr (.inl ⟨rfl, rfl, ?_⟩)
      simp only [chainInit, show s.clearChain.ivhdr = s.ivhdr from rfl, h, Bool.false_eq_true, if_false]
      rfl
    | true =>
      refine .inr (.inr (.inr ⟨rfl, rfl, ?_⟩))
      simp only [chainInit, show s.clearChain.ivhdr = s.ivhdr from rfl, h, if_true]
      rfl

/-- The state a start step that no check failed ends in, from the state before its last action (R190). -/
def entered (c : StreamOp) (s : State) : State :=
  ({ s with seq := { s.seq with phase := .blocks, blk := 0 } } : State).drawAhead c

theorem enterBlocks_eq (c : StreamOp) (s : State) : enterBlocks c s = .next (entered c s) := rfl

@[simp] theorem entered_seq (c : StreamOp) (s : State) :
    (entered c s).seq = { s.seq with phase := .blocks, blk := 0 } := drawAhead_seq _ c
@[simp] theorem entered_n (c : StreamOp) (s : State) : (entered c s).n = s.n := drawAhead_n _ c
@[simp] theorem entered_e (c : StreamOp) (s : State) : (entered c s).e = s.e := drawAhead_e _ c
@[simp] theorem entered_d (c : StreamOp) (s : State) : (entered c s).d = s.d := drawAhead_d _ c
@[simp] theorem entered_base (c : StreamOp) (s : State) : (entered c s).base = s.base := drawAhead_base _ c
@[simp] theorem entered_result (c : StreamOp) (s : State) : (entered c s).result = s.result := drawAhead_result _ c
@[simp] theorem entered_iv (c : StreamOp) (s : State) : (entered c s).iv = s.iv := drawAhead_iv _ c
@[simp] theorem entered_chain (c : StreamOp) (s : State) : (entered c s).chain = s.chain := drawAhead_chain _ c
@[simp] theorem entered_cfg (c : StreamOp) (s : State) : (entered c s).cfg = s.cfg := drawAhead_cfg _ c
@[simp] theorem entered_blksz (c : StreamOp) (s : State) : (entered c s).blksz = s.blksz := drawAhead_blksz _ c
@[simp] theorem entered_srcAddr (c : StreamOp) (s : State) : (entered c s).srcAddr = s.srcAddr := drawAhead_srcAddr _ c
@[simp] theorem entered_srcLen (c : StreamOp) (s : State) : (entered c s).srcLen = s.srcLen := drawAhead_srcLen _ c
@[simp] theorem entered_dstAddr (c : StreamOp) (s : State) : (entered c s).dstAddr = s.dstAddr := drawAhead_dstAddr _ c
@[simp] theorem entered_dstCap (c : StreamOp) (s : State) : (entered c s).dstCap = s.dstCap := drawAhead_dstCap _ c
@[simp] theorem entered_dstLen (c : StreamOp) (s : State) : (entered c s).dstLen = s.dstLen := drawAhead_dstLen _ c
@[simp] theorem entered_nbits (c : StreamOp) (s : State) : (entered c s).nbits = s.nbits := drawAhead_nbits _ c
@[simp] theorem entered_cwidth (c : StreamOp) (s : State) : (entered c s).cwidth = s.cwidth := drawAhead_cwidth _ c
@[simp] theorem entered_ebs (c : StreamOp) (s : State) : (entered c s).ebs = s.ebs := drawAhead_ebs _ c
@[simp] theorem entered_nblkTotal (c : StreamOp) (s : State) : (entered c s).nblkTotal = s.nblkTotal := drawAhead_nblkTotal _ c
@[simp] theorem entered_nblkDone (c : StreamOp) (s : State) : (entered c s).nblkDone = s.nblkDone := drawAhead_nblkDone _ c
@[simp] theorem entered_outReq (c : StreamOp) (s : State) : (entered c s).outReq = s.outReq := drawAhead_outReq _ c
@[simp] theorem entered_errInfo (c : StreamOp) (s : State) : (entered c s).errInfo = s.errInfo := drawAhead_errInfo _ c
@[simp] theorem entered_status (c : StreamOp) (s : State) : (entered c s).status = s.status := drawAhead_status _ c
@[simp] theorem entered_intEn (c : StreamOp) (s : State) : (entered c s).intEn = s.intEn := drawAhead_intEn _ c
@[simp] theorem entered_intStat (c : StreamOp) (s : State) : (entered c s).intStat = s.intStat := drawAhead_intStat _ c
@[simp] theorem entered_plat (c : StreamOp) (s : State) : (entered c s).plat = s.plat := drawAhead_plat _ c
@[simp] theorem entered_schedule (c : StreamOp) (s : State) : (entered c s).schedule = s.schedule := drawAhead_schedule _ c
@[simp] theorem entered_turn (c : StreamOp) (s : State) : (entered c s).turn = s.turn := drawAhead_turn _ c
@[simp] theorem entered_resp (c : StreamOp) (s : State) : (entered c s).resp = s.resp := drawAhead_resp _ c
@[simp] theorem entered_raced (c : StreamOp) (s : State) : (entered c s).raced = s.raced := drawAhead_raced _ c
@[simp] theorem entered_unseen (c : StreamOp) (s : State) : (entered c s).unseen = s.unseen := drawAhead_unseen _ c
@[simp] theorem entered_oldInt (c : StreamOp) (s : State) : (entered c s).oldInt = s.oldInt := drawAhead_oldInt _ c

/-- What chain initialisation leaves where the IV header's access, if there is one, is performed (R204). -/
def afterHeader (c : StreamOp) (s : State) : State :=
  match c, s.ivhdr with
  | .ecbEnc, _ => s
  | .ecbDec, _ => s
  | .cbcEnc, true => { (s.clearChain.setChain s.ivBytes).dmaPut s.dstAddr.toNat s.ivBytes with dstLen := s.ebs }
  | .cbcEnc, false => s.clearChain.setChain s.ivBytes
  | .cbcDec, true =>
    { s.clearChain with draws := s.draws + s.ebs.toNat }.setChain (s.dmaBytes s.draws s.srcAddr.toNat s.ebs.toNat)
  | .cbcDec, false => s.clearChain.setChain s.ivBytes

@[simp] theorem afterHeader_n (c : StreamOp) (s : State) : (afterHeader c s).n = s.n := by
  cases c <;> cases h : s.ivhdr <;> simp [afterHeader, h]
@[simp] theorem afterHeader_e (c : StreamOp) (s : State) : (afterHeader c s).e = s.e := by
  cases c <;> cases h : s.ivhdr <;> simp [afterHeader, h]
@[simp] theorem afterHeader_d (c : StreamOp) (s : State) : (afterHeader c s).d = s.d := by
  cases c <;> cases h : s.ivhdr <;> simp [afterHeader, h]
@[simp] theorem afterHeader_base (c : StreamOp) (s : State) : (afterHeader c s).base = s.base := by
  cases c <;> cases h : s.ivhdr <;> simp [afterHeader, h]
@[simp] theorem afterHeader_result (c : StreamOp) (s : State) : (afterHeader c s).result = s.result := by
  cases c <;> cases h : s.ivhdr <;> simp [afterHeader, h]
@[simp] theorem afterHeader_iv (c : StreamOp) (s : State) : (afterHeader c s).iv = s.iv := by
  cases c <;> cases h : s.ivhdr <;> simp [afterHeader, h]
@[simp] theorem afterHeader_cfg (c : StreamOp) (s : State) : (afterHeader c s).cfg = s.cfg := by
  cases c <;> cases h : s.ivhdr <;> simp [afterHeader, h]
@[simp] theorem afterHeader_blksz (c : StreamOp) (s : State) : (afterHeader c s).blksz = s.blksz := by
  cases c <;> cases h : s.ivhdr <;> simp [afterHeader, h]
@[simp] theorem afterHeader_srcAddr (c : StreamOp) (s : State) : (afterHeader c s).srcAddr = s.srcAddr := by
  cases c <;> cases h : s.ivhdr <;> simp [afterHeader, h]
@[simp] theorem afterHeader_srcLen (c : StreamOp) (s : State) : (afterHeader c s).srcLen = s.srcLen := by
  cases c <;> cases h : s.ivhdr <;> simp [afterHeader, h]
@[simp] theorem afterHeader_dstAddr (c : StreamOp) (s : State) : (afterHeader c s).dstAddr = s.dstAddr := by
  cases c <;> cases h : s.ivhdr <;> simp [afterHeader, h]
@[simp] theorem afterHeader_dstCap (c : StreamOp) (s : State) : (afterHeader c s).dstCap = s.dstCap := by
  cases c <;> cases h : s.ivhdr <;> simp [afterHeader, h]
@[simp] theorem afterHeader_nbits (c : StreamOp) (s : State) : (afterHeader c s).nbits = s.nbits := by
  cases c <;> cases h : s.ivhdr <;> simp [afterHeader, h]
@[simp] theorem afterHeader_cwidth (c : StreamOp) (s : State) : (afterHeader c s).cwidth = s.cwidth := by
  cases c <;> cases h : s.ivhdr <;> simp [afterHeader, h]
@[simp] theorem afterHeader_ebs (c : StreamOp) (s : State) : (afterHeader c s).ebs = s.ebs := by
  cases c <;> cases h : s.ivhdr <;> simp [afterHeader, h]
@[simp] theorem afterHeader_nblkTotal (c : StreamOp) (s : State) : (afterHeader c s).nblkTotal = s.nblkTotal := by
  cases c <;> cases h : s.ivhdr <;> simp [afterHeader, h]
@[simp] theorem afterHeader_nblkDone (c : StreamOp) (s : State) : (afterHeader c s).nblkDone = s.nblkDone := by
  cases c <;> cases h : s.ivhdr <;> simp [afterHeader, h]
@[simp] theorem afterHeader_outReq (c : StreamOp) (s : State) : (afterHeader c s).outReq = s.outReq := by
  cases c <;> cases h : s.ivhdr <;> simp [afterHeader, h]
@[simp] theorem afterHeader_errInfo (c : StreamOp) (s : State) : (afterHeader c s).errInfo = s.errInfo := by
  cases c <;> cases h : s.ivhdr <;> simp [afterHeader, h]
@[simp] theorem afterHeader_status (c : StreamOp) (s : State) : (afterHeader c s).status = s.status := by
  cases c <;> cases h : s.ivhdr <;> simp [afterHeader, h]
@[simp] theorem afterHeader_intEn (c : StreamOp) (s : State) : (afterHeader c s).intEn = s.intEn := by
  cases c <;> cases h : s.ivhdr <;> simp [afterHeader, h]
@[simp] theorem afterHeader_intStat (c : StreamOp) (s : State) : (afterHeader c s).intStat = s.intStat := by
  cases c <;> cases h : s.ivhdr <;> simp [afterHeader, h]
@[simp] theorem afterHeader_seq (c : StreamOp) (s : State) : (afterHeader c s).seq = s.seq := by
  cases c <;> cases h : s.ivhdr <;> simp [afterHeader, h]
@[simp] theorem afterHeader_plat (c : StreamOp) (s : State) : (afterHeader c s).plat = s.plat := by
  cases c <;> cases h : s.ivhdr <;> simp [afterHeader, h]
@[simp] theorem afterHeader_schedule (c : StreamOp) (s : State) : (afterHeader c s).schedule = s.schedule := by
  cases c <;> cases h : s.ivhdr <;> simp [afterHeader, h]
@[simp] theorem afterHeader_turn (c : StreamOp) (s : State) : (afterHeader c s).turn = s.turn := by
  cases c <;> cases h : s.ivhdr <;> simp [afterHeader, h]
@[simp] theorem afterHeader_resp (c : StreamOp) (s : State) : (afterHeader c s).resp = s.resp := by
  cases c <;> cases h : s.ivhdr <;> simp [afterHeader, h]
@[simp] theorem afterHeader_raced (c : StreamOp) (s : State) : (afterHeader c s).raced = s.raced := by
  cases c <;> cases h : s.ivhdr <;> simp [afterHeader, h]
@[simp] theorem afterHeader_unseen (c : StreamOp) (s : State) : (afterHeader c s).unseen = s.unseen := by
  cases c <;> cases h : s.ivhdr <;> simp [afterHeader, h]
@[simp] theorem afterHeader_oldInt (c : StreamOp) (s : State) : (afterHeader c s).oldInt = s.oldInt := by
  cases c <;> cases h : s.ivhdr <;> simp [afterHeader, h]

/-- The IV header's access, if the command has one, stays in the address space. -/
def HeaderFits (c : StreamOp) (s : State) : Prop :=
  (c = .cbcEnc → s.ivhdr = true → s.dstAddr.toNat + s.ebs.toNat ≤ Config.addressSpace) ∧
  (c = .cbcDec → s.ivhdr = true → s.srcAddr.toNat + s.ebs.toNat ≤ Config.addressSpace)

/-- The IV header's access, if the command has one, gets no error response. -/
def HeaderClear (c : StreamOp) (s : State) : Prop :=
  (c = .cbcEnc → s.ivhdr = true → busErrIn s.plat true s.dstAddr.toNat s.ebs.toNat = false) ∧
  (c = .cbcDec → s.ivhdr = true → busErrIn s.plat false s.srcAddr.toNat s.ebs.toNat = false)

theorem chainInit_done {c : StreamOp} {s : State} (hf : HeaderFits c s) (hb : HeaderClear c s) :
    chainInit c s = enterBlocks c (afterHeader c s) := by
  obtain ⟨hf1, hf2⟩ := hf
  obtain ⟨hb1, hb2⟩ := hb
  rcases chainInit_cases c s with ⟨h, e⟩ | ⟨h, h', e⟩ | ⟨rfl, h, s2, rfl, e⟩ | ⟨rfl, h, e⟩
  · rw [e]; cases c <;> first | rfl | exact absurd h (by decide)
  · rw [e]; cases c <;> first | exact absurd h (by decide) | simp [afterHeader, h']
  · rw [e, dmaWrite_done (by simpa using hf1 rfl h) (by simpa using hb1 rfl h)]
    simp [afterHeader, h]
  · rw [e, dmaRead_done (by simpa using hf2 rfl h) (by simpa using hb2 rfl h)]
    simp only [afterHeader, h]
    rw [← dmaBytes_congr (s := s) (t := s.clearChain) rfl rfl rfl]
    rfl

/-- The state of a start step before its first check. -/
def startWidths (s : State) : State := s.updateWidths.clearCounters

/-- The state of a start step after the block size is written. -/
def startSizes (s : State) : State := (startWidths s).updateEbs

/-! #### What `startWidths` and `startSizes` leave alone -/

@[simp] theorem startWidths_n (s : State) : (startWidths s).n = s.n := rfl
@[simp] theorem startWidths_e (s : State) : (startWidths s).e = s.e := rfl
@[simp] theorem startWidths_d (s : State) : (startWidths s).d = s.d := rfl
@[simp] theorem startWidths_base (s : State) : (startWidths s).base = s.base := rfl
@[simp] theorem startWidths_result (s : State) : (startWidths s).result = s.result := rfl
@[simp] theorem startWidths_iv (s : State) : (startWidths s).iv = s.iv := rfl
@[simp] theorem startWidths_chain (s : State) : (startWidths s).chain = s.chain := rfl
@[simp] theorem startWidths_cfg (s : State) : (startWidths s).cfg = s.cfg := rfl
@[simp] theorem startWidths_blksz (s : State) : (startWidths s).blksz = s.blksz := rfl
@[simp] theorem startWidths_srcAddr (s : State) : (startWidths s).srcAddr = s.srcAddr := rfl
@[simp] theorem startWidths_srcLen (s : State) : (startWidths s).srcLen = s.srcLen := rfl
@[simp] theorem startWidths_dstAddr (s : State) : (startWidths s).dstAddr = s.dstAddr := rfl
@[simp] theorem startWidths_dstCap (s : State) : (startWidths s).dstCap = s.dstCap := rfl
@[simp] theorem startWidths_ebs (s : State) : (startWidths s).ebs = s.ebs := rfl
@[simp] theorem startWidths_nblkTotal (s : State) : (startWidths s).nblkTotal = s.nblkTotal := rfl
@[simp] theorem startWidths_outReq (s : State) : (startWidths s).outReq = s.outReq := rfl
@[simp] theorem startWidths_errInfo (s : State) : (startWidths s).errInfo = s.errInfo := rfl
@[simp] theorem startWidths_status (s : State) : (startWidths s).status = s.status := rfl
@[simp] theorem startWidths_intEn (s : State) : (startWidths s).intEn = s.intEn := rfl
@[simp] theorem startWidths_intStat (s : State) : (startWidths s).intStat = s.intStat := rfl
@[simp] theorem startWidths_seq (s : State) : (startWidths s).seq = s.seq := rfl
@[simp] theorem startWidths_mem (s : State) : (startWidths s).mem = s.mem := rfl
@[simp] theorem startWidths_plat (s : State) : (startWidths s).plat = s.plat := rfl
@[simp] theorem startWidths_schedule (s : State) : (startWidths s).schedule = s.schedule := rfl
@[simp] theorem startWidths_turn (s : State) : (startWidths s).turn = s.turn := rfl
@[simp] theorem startWidths_resp (s : State) : (startWidths s).resp = s.resp := rfl
@[simp] theorem startWidths_unseen (s : State) : (startWidths s).unseen = s.unseen := rfl
@[simp] theorem startWidths_stale (s : State) : (startWidths s).stale = s.stale := rfl
@[simp] theorem startWidths_raced (s : State) : (startWidths s).raced = s.raced := rfl
@[simp] theorem startWidths_posted (s : State) : (startWidths s).posted = s.posted := rfl
@[simp] theorem startWidths_written (s : State) : (startWidths s).written = s.written := rfl
@[simp] theorem startWidths_unobserved (s : State) : (startWidths s).unobserved = s.unobserved := rfl
@[simp] theorem startWidths_oldInt (s : State) : (startWidths s).oldInt = s.oldInt := rfl
@[simp] theorem startWidths_draws (s : State) : (startWidths s).draws = s.draws := rfl
@[simp] theorem startSizes_n (s : State) : (startSizes s).n = s.n := rfl
@[simp] theorem startSizes_e (s : State) : (startSizes s).e = s.e := rfl
@[simp] theorem startSizes_d (s : State) : (startSizes s).d = s.d := rfl
@[simp] theorem startSizes_base (s : State) : (startSizes s).base = s.base := rfl
@[simp] theorem startSizes_result (s : State) : (startSizes s).result = s.result := rfl
@[simp] theorem startSizes_iv (s : State) : (startSizes s).iv = s.iv := rfl
@[simp] theorem startSizes_chain (s : State) : (startSizes s).chain = s.chain := rfl
@[simp] theorem startSizes_cfg (s : State) : (startSizes s).cfg = s.cfg := rfl
@[simp] theorem startSizes_blksz (s : State) : (startSizes s).blksz = s.blksz := rfl
@[simp] theorem startSizes_srcAddr (s : State) : (startSizes s).srcAddr = s.srcAddr := rfl
@[simp] theorem startSizes_srcLen (s : State) : (startSizes s).srcLen = s.srcLen := rfl
@[simp] theorem startSizes_dstAddr (s : State) : (startSizes s).dstAddr = s.dstAddr := rfl
@[simp] theorem startSizes_dstCap (s : State) : (startSizes s).dstCap = s.dstCap := rfl
@[simp] theorem startSizes_nblkTotal (s : State) : (startSizes s).nblkTotal = s.nblkTotal := rfl
@[simp] theorem startSizes_outReq (s : State) : (startSizes s).outReq = s.outReq := rfl
@[simp] theorem startSizes_errInfo (s : State) : (startSizes s).errInfo = s.errInfo := rfl
@[simp] theorem startSizes_status (s : State) : (startSizes s).status = s.status := rfl
@[simp] theorem startSizes_intEn (s : State) : (startSizes s).intEn = s.intEn := rfl
@[simp] theorem startSizes_intStat (s : State) : (startSizes s).intStat = s.intStat := rfl
@[simp] theorem startSizes_seq (s : State) : (startSizes s).seq = s.seq := rfl
@[simp] theorem startSizes_mem (s : State) : (startSizes s).mem = s.mem := rfl
@[simp] theorem startSizes_plat (s : State) : (startSizes s).plat = s.plat := rfl
@[simp] theorem startSizes_schedule (s : State) : (startSizes s).schedule = s.schedule := rfl
@[simp] theorem startSizes_turn (s : State) : (startSizes s).turn = s.turn := rfl
@[simp] theorem startSizes_resp (s : State) : (startSizes s).resp = s.resp := rfl
@[simp] theorem startSizes_unseen (s : State) : (startSizes s).unseen = s.unseen := rfl
@[simp] theorem startSizes_stale (s : State) : (startSizes s).stale = s.stale := rfl
@[simp] theorem startSizes_raced (s : State) : (startSizes s).raced = s.raced := rfl
@[simp] theorem startSizes_posted (s : State) : (startSizes s).posted = s.posted := rfl
@[simp] theorem startSizes_written (s : State) : (startSizes s).written = s.written := rfl
@[simp] theorem startSizes_unobserved (s : State) : (startSizes s).unobserved = s.unobserved := rfl
@[simp] theorem startSizes_oldInt (s : State) : (startSizes s).oldInt = s.oldInt := rfl
@[simp] theorem startSizes_draws (s : State) : (startSizes s).draws = s.draws := rfl
@[simp] theorem startWidths_counters (s : State) : (startWidths s).nblkDone = 0 ∧ (startWidths s).dstLen = 0 := ⟨rfl, rfl⟩
@[simp] theorem startSizes_counters (s : State) : (startSizes s).nblkDone = 0 ∧ (startSizes s).dstLen = 0 := ⟨rfl, rfl⟩

/-- Everything a start step can do, check by check. -/
theorem streamStart_cases (c : StreamOp) (s : State) :
    (s.valN ≤ 1 ∧ streamStart c s = .next ((startWidths s).raise .encModulus Config.noBlock)) ∨
    (1 < s.valN ∧ badBs (startSizes s).ebs.toNat (startSizes s).cwidth.toNat = true ∧
      streamStart c s = .next ((startSizes s).raise .cfgBlksz Config.noBlock)) ∨
    (1 < s.valN ∧ badBs (startSizes s).ebs.toNat (startSizes s).cwidth.toNat = false ∧
      plan c s.ivhdr s.srcLen.toNat (startSizes s).ebs.toNat (startSizes s).cwidth.toNat = none ∧
      streamStart c s = .next ((startSizes s).raise .encWidth Config.noBlock)) ∨
    ∃ p, 1 < s.valN ∧ badBs (startSizes s).ebs.toNat (startSizes s).cwidth.toNat = false ∧
      plan c s.ivhdr s.srcLen.toNat (startSizes s).ebs.toNat (startSizes s).cwidth.toNat = some p ∧
      ((badRange s.srcAddr.toNat s.srcLen.toNat s.dstAddr.toNat p.out s.dstCap.toNat = true ∧
          streamStart c s = .next (((startSizes s).setPlan p).raise .cfgRange Config.noBlock)) ∨
        (badRange s.srcAddr.toNat s.srcLen.toNat s.dstAddr.toNat p.out s.dstCap.toNat = false ∧
          streamStart c s = chainInit c ((startSizes s).setPlan p))) := by
  have hv : (startWidths s).valN = s.valN := rfl
  have hst : streamStart c s =
      if s.valN ≤ 1 then .next ((startWidths s).raise .encModulus Config.noBlock)
      else if badBs (startSizes s).ebs.toNat (startSizes s).cwidth.toNat then
        .next ((startSizes s).raise .cfgBlksz Config.noBlock)
      else match plan c s.ivhdr s.srcLen.toNat (startSizes s).ebs.toNat (startSizes s).cwidth.toNat with
        | none => .next ((startSizes s).raise .encWidth Config.noBlock)
        | some p =>
          if badRange s.srcAddr.toNat s.srcLen.toNat s.dstAddr.toNat p.out s.dstCap.toNat then
            .next (((startSizes s).setPlan p).raise .cfgRange Config.noBlock)
          else chainInit c ((startSizes s).setPlan p) := rfl
  by_cases hm : s.valN ≤ 1
  · exact .inl ⟨hm, by rw [hst, if_pos hm]⟩
  · rw [if_neg hm] at hst
    have hm' : 1 < s.valN := Nat.lt_of_not_le hm
    cases hb : badBs (startSizes s).ebs.toNat (startSizes s).cwidth.toNat with
    | true => exact .inr (.inl ⟨hm', rfl, by rw [hst, hb, if_pos rfl]⟩)
    | false =>
      rw [hb, if_neg Bool.false_ne_true] at hst
      cases hp : plan c s.ivhdr s.srcLen.toNat (startSizes s).ebs.toNat (startSizes s).cwidth.toNat with
      | none => exact .inr (.inr (.inl ⟨hm', rfl, rfl, by rw [hst, hp]⟩))
      | some p =>
        rw [hp] at hst
        refine .inr (.inr (.inr ⟨p, hm', rfl, rfl, ?_⟩))
        cases hr : badRange s.srcAddr.toNat s.srcLen.toNat s.dstAddr.toNat p.out s.dstCap.toNat with
        | true => exact .inl ⟨rfl, by rw [hst]; simp [hr]⟩
        | false => exact .inr ⟨rfl, by rw [hst]; simp [hr]⟩

/-- Chain initialisation goes on to BLOCKS only with the header's access performed. -/
theorem chainInit_blocks {c : StreamOp} {s t : State} (h : chainInit c s = .next t) (hp : t.seq.phase = .blocks) :
    HeaderFits c s ∧ HeaderClear c s ∧ t = entered c (afterHeader c s) := by
  have key : HeaderFits c s ∧ HeaderClear c s := by
    rcases chainInit_cases c s with ⟨hc, _⟩ | ⟨_, hi, _⟩ | ⟨rfl, hi, s1, rfl, e⟩ | ⟨rfl, hi, e⟩
    · refine ⟨⟨?_, ?_⟩, ⟨?_, ?_⟩⟩ <;> rintro rfl <;> exact absurd hc (by decide)
    · refine ⟨⟨?_, ?_⟩, ⟨?_, ?_⟩⟩ <;> rintro - h1 <;> rw [hi] at h1 <;> cases h1
    · rcases dmaWrite_cases (s.clearChain.setChain s.ivBytes) s.dstAddr.toNat s.ivBytes with
        ⟨_, e1⟩ | ⟨_, _, e1⟩ | ⟨h1, h2, _⟩
      · rw [e, e1] at h; cases h
      · rw [e, e1] at h; cases h; cases hp
      · simp only [ivBytes_length, setChain_plat, clearChain_plat] at h1 h2
        exact ⟨⟨fun _ _ => h1, by rintro ⟨⟩⟩, ⟨fun _ _ => h2, by rintro ⟨⟩⟩⟩
    · rcases dmaRead_cases s.clearChain s.srcAddr.toNat s.ebs.toNat with ⟨_, e1⟩ | ⟨_, _, e1⟩ | ⟨h1, h2, _⟩
      · rw [e, e1] at h; cases h
      · rw [e, e1] at h; cases h; cases hp
      · exact ⟨⟨(by rintro ⟨⟩), fun _ _ => h1⟩, ⟨(by rintro ⟨⟩), fun _ _ => h2⟩⟩
  refine ⟨key.1, key.2, ?_⟩
  rw [chainInit_done key.1 key.2, enterBlocks_eq] at h
  cases h; rfl

/-- A start step that goes on to BLOCKS passed every check; this is the state it leaves (R190). -/
theorem streamStart_blocks {c : StreamOp} {s t : State} (h : streamStart c s = .next t) (hp : t.seq.phase = .blocks) :
    ∃ p, 1 < s.valN ∧ badBs (startSizes s).ebs.toNat (startSizes s).cwidth.toNat = false ∧
      plan c s.ivhdr s.srcLen.toNat (startSizes s).ebs.toNat (startSizes s).cwidth.toNat = some p ∧
      badRange s.srcAddr.toNat s.srcLen.toNat s.dstAddr.toNat p.out s.dstCap.toNat = false ∧
      HeaderFits c ((startSizes s).setPlan p) ∧ HeaderClear c ((startSizes s).setPlan p) ∧
      t = entered c (afterHeader c ((startSizes s).setPlan p)) := by
  rcases streamStart_cases c s with ⟨_, e⟩ | ⟨_, _, e⟩ | ⟨_, _, _, e⟩ | ⟨p, h1, h2, h3, ⟨_, e⟩ | ⟨h4, e⟩⟩
  all_goals rw [e] at h
  case inr.inr.inr.inr =>
    obtain ⟨h5, h6, h7⟩ := chainInit_blocks h hp
    exact ⟨p, h1, h2, h3, h4, h5, h6, h7⟩
  all_goals cases h; cases hp

@[simp] theorem startWidths_dstSpan (s : State) : (startWidths s).dstSpan = s.dstSpan := by
  rw [startWidths, clearCounters_dstSpan, updateWidths_dstSpan]
@[simp] theorem startSizes_dstSpan (s : State) : (startSizes s).dstSpan = s.dstSpan := by
  rw [startSizes, updateEbs_dstSpan, startWidths_dstSpan]
theorem startSizes_cwidth (s : State) :
    (startSizes s).cwidth.toNat = ceilDiv (bitLen s.valN) Config.widthDivisor := by
  rw [startSizes, updateEbs_cwidth, startWidths, clearCounters_cwidth, updateWidths_cwidth_toNat]
theorem startSizes_nbits (s : State) : (startSizes s).nbits.toNat = bitLen s.valN := by
  rw [startSizes, updateEbs_nbits, startWidths, clearCounters_nbits, updateWidths_nbits_toNat]
theorem startSizes_ebs (s : State) :
    (startSizes s).ebs.toNat = if s.bssel then s.blksz.toNat else bitLen s.valN / Config.blockDivisor := by
  rw [startSizes, updateEbs_ebs_toNat, effectiveBs, startWidths, clearCounters_nbits, updateWidths_nbits_toNat]
  rfl

/-- A block size that passes its check fits the byte windows. -/
theorem startSizes_ebs_le {s : State} (h : badBs (startSizes s).ebs.toNat (startSizes s).cwidth.toNat = false) :
    (startSizes s).ebs.toNat ≤ s.plat.maxBs := by
  have := (badBs_eq_false.mp h).2
  rw [startSizes_cwidth] at this
  exact this.trans (width_le_maxBs s)

/-- The span of a running stream command is the output length of the plan its start step computes (R311). -/
theorem dstSpan_start {c : StreamOp} {s : State} {p : Plan} (hb : s.busy = true) (ho : s.seq.op = c.op) (hm : 1 < s.valN)
    (hs : badBs (startSizes s).ebs.toNat (startSizes s).cwidth.toNat = false)
    (hp : plan c s.ivhdr s.srcLen.toNat (startSizes s).ebs.toNat (startSizes s).cwidth.toNat = some p)
    (hr : badRange s.srcAddr.toNat s.srcLen.toNat s.dstAddr.toNat p.out s.dstCap.toNat = false) :
    startPlan c s = some p ∧ s.dstSpan = p.out := by
  have : startPlan c s = some p := by
    unfold startPlan
    rw [if_neg (Nat.not_le.mpr hm)]
    show (if badBs (startSizes s).ebs.toNat (startSizes s).cwidth.toNat = true then none
      else match plan c s.ivhdr s.srcLen.toNat (startSizes s).ebs.toNat (startSizes s).cwidth.toNat with
        | none => none
        | some p => if badRange s.srcAddr.toNat s.srcLen.toNat s.dstAddr.toNat p.out s.dstCap.toNat = true then none
          else some p) = some p
    rw [hs, if_neg Bool.false_ne_true, hp]
    simp [hr]
  exact ⟨this, by simp [State.dstSpan, hb, ho, streamOf_op, this]⟩

/-- A command whose start step a check refuses has no destination. -/
theorem dstSpan_refused {c : StreamOp} {s : State} (ho : s.seq.op = c.op) (h : startPlan c s = none) : s.dstSpan = 0 := by
  simp [State.dstSpan, ho, streamOf_op, h]

/-! ### The block steps (R205 to R208) -/

/-- Everything `finishBlock` can do. -/
theorem finishBlock_cases (c : StreamOp) (s : State) (out cb : List Byte) (width : Word) :
    (Config.addressSpace < s.dstBlock c + out.length ∧ finishBlock c s out cb width = .fault .dmaOutside) ∨
    (s.dstBlock c + out.length ≤ Config.addressSpace ∧ busErrIn s.plat true (s.dstBlock c) out.length = true ∧
      finishBlock c s out cb width = raiseBlock c (s.drawRange (s.dstBlock c) out.length) .busError) ∨
    (s.dstBlock c + out.length ≤ Config.addressSpace ∧ busErrIn s.plat true (s.dstBlock c) out.length = false ∧
      finishBlock c s out cb width =
        .next ((((s.dmaPut (s.dstBlock c) out).chainUpdate c cb).blockDone width).drawAhead c)) := by
  rcases dmaWrite_cases s (s.dstBlock c) out with ⟨h, e⟩ | ⟨h, h', e⟩ | ⟨h, h', e⟩
  · exact .inl ⟨h, by rw [finishBlock, e]⟩
  · exact .inr (.inl ⟨h, h', by rw [finishBlock, e]⟩)
  · exact .inr (.inr ⟨h, h', by rw [finishBlock, e]⟩)

/-- Everything an encrypting block step can do. -/
theorem encBlock_cases (c : StreamOp) (s : State) :
    (Config.addressSpace < s.srcBlock c + s.srcTake c ∧ encBlock c s = .fault .dmaOutside) ∨
    (s.srcBlock c + s.srcTake c ≤ Config.addressSpace ∧ busErrIn s.plat false (s.srcBlock c) (s.srcTake c) = true ∧
      encBlock c s = raiseBlock c s .busError) ∨
    (s.readable c ∧ s.valN ≤ s.encInput c ∧ encBlock c s = raiseBlock c (afterRead s c) .encRange) ∨
    (s.readable c ∧ s.encInput c < s.valN ∧ ∃ cb, cb = beBytes s.cwidth.toNat (modexp (s.encInput c) (s.exponent c) s.valN) ∧
      encBlock c s = finishBlock c (afterRead s c) cb cb s.cwidth) := by
  rcases dmaRead_cases s (s.srcBlock c) (s.srcTake c) with ⟨h, e⟩ | ⟨h, h', e⟩ | ⟨h, h', e⟩
  · exact .inl ⟨h, by rw [encBlock, e]⟩
  · exact .inr (.inl ⟨h, h', by rw [encBlock, e]⟩)
  · have hst : encBlock c s = if s.valN ≤ s.encInput c then raiseBlock c (afterRead s c) .encRange
        else finishBlock c (afterRead s c) (beBytes s.cwidth.toNat (modexp (s.encInput c) (s.exponent c) s.valN))
          (beBytes s.cwidth.toNat (modexp (s.encInput c) (s.exponent c) s.valN)) s.cwidth := by rw [encBlock, e]; rfl
    by_cases hm : s.valN ≤ s.encInput c
    · exact .inr (.inr (.inl ⟨⟨h, h'⟩, hm, by rw [hst, if_pos hm]⟩))
    · exact .inr (.inr (.inr ⟨⟨h, h'⟩, Nat.lt_of_not_le hm, _, rfl, by rw [hst, if_neg hm]⟩))

/-- The decrypted value of a decrypting block step. -/
def decValue (s : State) (c : StreamOp) : Nat := modexp (beNat (s.sourceBytes c)) (s.exponent c) s.valN

/-- Everything a decrypting block step can do. -/
theorem decBlock_cases (c : StreamOp) (s : State) :
    (Config.addressSpace < s.srcBlock c + s.srcTake c ∧ decBlock c s = .fault .dmaOutside) ∨
    (s.srcBlock c + s.srcTake c ≤ Config.addressSpace ∧ busErrIn s.plat false (s.srcBlock c) (s.srcTake c) = true ∧
      decBlock c s = raiseBlock c s .busError) ∨
    (s.readable c ∧ s.valN ≤ beNat (s.sourceBytes c) ∧ decBlock c s = raiseBlock c (afterRead s c) .encCRange) ∨
    (s.readable c ∧ beNat (s.sourceBytes c) < s.valN ∧ 256 ^ s.ebs.toNat ≤ decValue s c ∧
      decBlock c s = raiseBlock c (afterRead s c) .encOverflow) ∨
    (s.readable c ∧ beNat (s.sourceBytes c) < s.valN ∧ decValue s c < 256 ^ s.ebs.toNat ∧
      decBlock c s = finishBlock c (afterRead s c) (s.chainXor c (beBytes s.ebs.toNat (decValue s c))) (s.sourceBytes c)
        s.ebs) := by
  rcases dmaRead_cases s (s.srcBlock c) (s.srcTake c) with ⟨h, e⟩ | ⟨h, h', e⟩ | ⟨h, h', e⟩
  · exact .inl ⟨h, by rw [decBlock, e]⟩
  · exact .inr (.inl ⟨h, h', by rw [decBlock, e]⟩)
  · have hst : decBlock c s = if s.valN ≤ beNat (s.sourceBytes c) then raiseBlock c (afterRead s c) .encCRange
        else if 256 ^ s.ebs.toNat ≤ decValue s c then raiseBlock c (afterRead s c) .encOverflow
        else finishBlock c (afterRead s c) (s.chainXor c (beBytes s.ebs.toNat (decValue s c))) (s.sourceBytes c) s.ebs := by
      rw [decBlock, e]; rfl
    by_cases hm : s.valN ≤ beNat (s.sourceBytes c)
    · exact .inr (.inr (.inl ⟨⟨h, h'⟩, hm, by rw [hst, if_pos hm]⟩))
    · rw [if_neg hm] at hst
      by_cases ho : 256 ^ s.ebs.toNat ≤ decValue s c
      · exact .inr (.inr (.inr (.inl ⟨⟨h, h'⟩, Nat.lt_of_not_le hm, ho, by rw [hst, if_pos ho]⟩)))
      · exact .inr (.inr (.inr (.inr ⟨⟨h, h'⟩, Nat.lt_of_not_le hm, Nat.lt_of_not_le ho, by rw [hst, if_neg ho]⟩)))

/-- What an engine step of a stream command can be, by phase (R146). -/
theorem streamEngine_cases (c : StreamOp) (s : State) :
    (s.seq.phase = .start ∧ streamEngine c (blockStep c) s = streamStart c s) ∨
    (s.seq.phase = .blocks ∧ s.seq.blk < s.nblkTotal ∧ streamEngine c (blockStep c) s = blockStep c s) ∨
    (s.seq.phase = .blocks ∧ s.seq.blk = s.nblkTotal ∧ streamEngine c (blockStep c) s = .next s.complete) ∨
    (s.seq.phase = .blocks ∧ s.nblkTotal < s.seq.blk ∧ streamEngine c (blockStep c) s = .next s) ∨
    ((s.seq.phase = .idle ∨ s.seq.phase = .compute) ∧ streamEngine c (blockStep c) s = .next s) := by
  unfold streamEngine blocksPhase
  cases hp : s.seq.phase with
  | idle => simp
  | start => simp
  | compute => simp
  | blocks =>
    rcases BitVec.lt_trichotomy s.seq.blk s.nblkTotal with h | h | h
    · simp [h]
    · simp [h]
    · have hne : s.seq.blk ≠ s.nblkTotal := fun e => by rw [e] at h; exact BitVec.lt_irrefl _ h
      simp [h, (show ¬s.seq.blk < s.nblkTotal from BitVec.lt_asymm h), hne]

/-! ### A register write (R141) -/

/-- Everything a write to a register other than CMD and CTRL can do. -/
theorem writePlain_cases (s : State) (r : Reg) (v : Word) :
    (r = .intStat ∧ s.writePlain r v = s.writeIntStat v) ∨
    (r = .intEn ∧ s.writePlain r v = s.writeIntEn v) ∨
    (r ≠ .intStat ∧ r ≠ .intEn ∧ r.access ≠ .rw ∧ s.writePlain r v = s) ∨
    (r ≠ .intEn ∧ r.access = .rw ∧ s.busy = true ∧ s.writePlain r v = s.ignoredBusy) ∨
    (r ≠ .intEn ∧ r.access = .rw ∧ s.busy = false ∧ s.writePlain r v = s.writeRw r v) := by
  by_cases h1 : r = .intStat
  · subst h1; exact .inl ⟨rfl, rfl⟩
  by_cases h2 : r = .intEn
  · subst h2; exact .inr (.inl ⟨rfl, rfl⟩)
  have hst : s.writePlain r v = match r.access with
      | .ro => s
      | .wo => s
      | .w1c => s
      | .rw => if s.busy then s.ignoredBusy else s.writeRw r v := by
    cases r <;> first | rfl | exact absurd rfl h1 | exact absurd rfl h2
  cases ha : r.access <;> rw [ha] at hst <;> simp only at hst
  case rw =>
    cases hb : s.busy <;> rw [hb] at hst <;> simp at hst <;> simp [h1, h2, hst]
  all_goals simp [h1, h2, hst]

/-- Everything a register write can do, by the instruction it runs or the register it writes. -/
theorem writeReg_cases (s : State) (r : Reg) (v : Word) :
    (∃ i, r = .cmd ∧ decodeCmd v = .instr i ∧ writeReg s r v = exec i s) ∨
    (∃ x, r = .cmd ∧ decodeCmd v = .rejected x ∧
      writeReg s r v = .next (if s.busy then s.ignoredBusy else s.illegal (opField v))) ∨
    (∃ i, r = .ctrl ∧ decodeCtrl v = .instr i ∧ writeReg s r v = exec i s) ∨
    (r = .ctrl ∧ writeReg s r v = .next s) ∨
    (r ≠ .cmd ∧ r ≠ .ctrl ∧ writeReg s r v = .next (s.writePlain r v)) := by
  by_cases h1 : r = .cmd
  · subst h1
    cases hd : decodeCmd v with
    | instr i => exact .inl ⟨i, rfl, rfl, by simp [writeReg, writeCmd, hd]⟩
    | noAction => exact absurd hd (decodeCmd_noAction v)
    | rejected x => exact .inr (.inl ⟨x, rfl, rfl, by simp [writeReg, writeCmd, hd]⟩)
  by_cases h2 : r = .ctrl
  · subst h2
    cases hd : decodeCtrl v with
    | instr i => exact .inr (.inr (.inl ⟨i, rfl, rfl, by simp [writeReg, writeCtrl, hd]⟩))
    | noAction => exact .inr (.inr (.inr (.inl ⟨rfl, by simp [writeReg, writeCtrl, hd]⟩)))
    | rejected x => exact .inr (.inr (.inr (.inl ⟨rfl, by simp [writeReg, writeCtrl, hd]⟩)))
  · refine .inr (.inr (.inr (.inr ⟨h1, h2, ?_⟩)))
    cases r <;> first | rfl | exact absurd rfl h1 | exact absurd rfl h2

/-- Everything a port write can do. -/
theorem portWrite_cases (s : State) (addr : Word) (lanes : List (Option Byte)) :
    (∃ a, portWrite s addr lanes = .next (s.answer a)) ∨
    (∃ off r v, portOffset s.plat addr = some off ∧ regAt off = some r ∧ fullWord lanes = some v ∧
      portWrite s addr lanes = writeReg (s.answer .ok) r v) := by
  unfold portWrite
  cases ho : portOffset s.plat addr with
  | none => exact .inl ⟨_, rfl⟩
  | some off =>
    cases hr : regAt off with
    | none => exact .inl ⟨.busError 0, by simp [hr]⟩
    | some r =>
      cases hv : fullWord lanes with
      | none => exact .inl ⟨.busError 0, by simp [hr]⟩
      | some v => exact .inr ⟨off, r, v, rfl, hr, rfl, by simp [hr]⟩

/-- A port read changes the host's view alone. -/
theorem portRead_cases (s : State) (addr : Word) (bytes : Nat) :
    ∃ a ends lags, portRead s addr bytes = .next { s with resp := a, unobserved := ends, stale := lags } := by
  unfold portRead
  cases portOffset s.plat addr with
  | none => exact ⟨_, s.unobserved, s.stale, rfl⟩
  | some off =>
    simp only
    split
    · cases regAt off with
      | none => exact ⟨_, s.unobserved, s.stale, rfl⟩
      | some r => exact ⟨_, _, _, rfl⟩
    · exact ⟨_, s.unobserved, s.stale, rfl⟩

/-! ### A move of a run (R10) -/

/-- Everything a step can be. -/
theorem step_cases (s : State) :
    (∃ rest, (s.schedule = .engine :: rest ∨ (s.schedule = [] ∧ rest = [])) ∧
      step s = engineStep (s.taking .engine rest)) ∨
    (∃ h rest, s.schedule = .host h :: rest ∧ step s = hostStep h (s.taking .host rest)) ∨
    (∃ rest, s.schedule = .reset :: rest ∧ step s = .next (s.taking .host rest).resetAction) := by
  unfold step takeMove
  rcases hs : s.schedule with _ | ⟨m, rest⟩
  · exact .inl ⟨[], .inr ⟨rfl, rfl⟩, rfl⟩
  · cases m with
    | host h => exact .inr (.inl ⟨h, rest, rfl, rfl⟩)
    | engine => exact .inl ⟨rest, .inl rfl, rfl⟩
    | reset => exact .inr (.inr ⟨rest, rfl, rfl⟩)

/-- A run takes its first step. -/
theorem run_next (M : Host.Core) {k : Nat} {s t : M.State} (h : M.step s = .next t) : M.run (k + 1) s = M.run k t := by
  simp [Host.Core.run, h]

/-- An engine step runs the instruction of the running command, or none. -/
theorem engineStep_cases (s : State) :
    (∃ i, s.busy = true ∧ decodeOp s.seq.op s.seq.esel = .instr i ∧ engineStep s = exec i s) ∨
    ((s.busy = false ∨ ∀ i, decodeOp s.seq.op s.seq.esel ≠ .instr i) ∧ engineStep s = .next s) := by
  unfold engineStep runningInstr
  cases hb : s.busy with
  | false => exact .inr ⟨.inl rfl, rfl⟩
  | true =>
    cases hd : decodeOp s.seq.op s.seq.esel with
    | instr i => exact .inl ⟨i, rfl, rfl, rfl⟩
    | noAction => exact .inr ⟨.inr (by simp), rfl⟩
    | rejected r => exact .inr ⟨.inr (by simp), rfl⟩

end Sys2Proof.Laws
end

