-- ==== Sys2Proof/Machine/HostAsm.lean ====
section
/-! DEFINITION. The host assembly of spec/30_encoding.md: the primitive forms WR, RD, MW, MR (R119) and the
pseudo-instructions CMD, LDW, LDB, WAIT, ACK, ABORT, SRST with their expansions into host steps (R120). -/

namespace Sys2Proof.Machine

/-- `WR <reg>, v` (R119). -/
def asmWr (p : Config.Platform) (r : Reg) (v : Word) : Move := .host (.portWrite (busAddr p r) (fullLanes v))

/-- `RD <reg>` (R119). -/
def asmRd (p : Config.Platform) (r : Reg) : Move := .host (.portRead (busAddr p r) 4)

/-- `MW <addr>, <bytes>`, with the host's duty of R312 (R119). -/
def asmMw (addr : Word) (bs : List Byte) : Move := .host (.memWrite addr bs true)

/-- `MR <addr>, <len>`, with the host's duty of R313 (R119). -/
def asmMr (addr : Word) (len : Nat) : Move := .host (.memRead addr len true)

/-- `CMD <m>`, `ABORT` and `SRST`: the write of an instruction's word to its register (R120). -/
def asmInstr (p : Config.Platform) (i : Instr) : Move := .host (instrWrite p i.format (lanesOf (encode i)))

/-- `ABORT` expands to `WR CTRL, 0x1` (R120). -/
def asmAbort (p : Config.Platform) : Move := asmWr p .ctrl 0x1

/-- `SRST` expands to `WR CTRL, 0x2` (R120). -/
def asmSrst (p : Config.Platform) : Move := asmWr p .ctrl 0x2

/-- The writes of words `j .. j+k-1` of `v`, lowest word first. -/
def asmLdwFrom (p : Config.Platform) (w : Win) (v : Nat) : Nat → Nat → List Move
  | _, 0 => []
  | j, k + 1 => asmWr p (.word w j) (BitVec.ofNat 32 (v / 2 ^ (32 * j))) :: asmLdwFrom p w v (j + 1) k

/-- `LDW <win>, v, k` (R120). -/
def asmLdw (p : Config.Platform) (w : Win) (v k : Nat) : List Move := asmLdwFrom p w v 0 k

/-- `LDB IV, b`: words of four bytes, first byte in the least significant lane, zero past the end (R120). -/
def asmLdb (p : Config.Platform) (b : List Byte) : List Move := asmLdwFrom p .iv (leNat b) 0 (ceilDiv b.length 4)

/-- `WAIT` (R120). -/
def asmWait : Move := .host .wait

/-- `ACK` expands to `WR INT_STAT, 0x7` (R120). -/
def asmAck (p : Config.Platform) : Move := asmWr p .intStat 0x7

end Sys2Proof.Machine
end

