-- ==== Sys2Proof/Tests/Slice0.lean ====
section
/-! SUPPORT. Tests of the model: ill-formed terms, words written out from spec/30_encoding.md, single steps on small states
with the results of spec/95_test_vectors.md, and, for every obligation with hypotheses, a state that meets them. -/

open Sys2Proof Sys2Proof.Machine

namespace Sys2Proof.Tests

-- One theorem at a time: the kernel evaluations below would otherwise run side by side and need a stack each.
set_option Elab.async false

/-! ## Helpers -/

/-- The step answered a next state. -/
def isNext : StepResult → Bool
  | .next _ => true
  | .fault _ => false
  | .refused _ => false

/-- The next state of a step. -/
def after : StepResult → State
  | .next t => t
  | .fault _ => State.reset
  | .refused _ => State.reset

theorem next_after {r : StepResult} (h : isNext r = true) : r = .next (after r) := by
  cases r <;> first | rfl | exact (Bool.false_ne_true h).elim

/-- Idle, key K15 of spec/95_test_vectors.md: N = 20687, E = 7, D = 8743. -/
def k15 : State := { State.reset with n := 20687, e := 7, d := 8743, srcAddr := 0x10000, dstAddr := 0x20000, dstCap := 0x100 }

/-- Idle, key K32 of spec/95_test_vectors.md. -/
def k32 : State := { k15 with n := 0xFFE000FF, e := 11, d := 0x5D0AE923 }

/-- The state after acceptance, on the engine's turn, with the key of `s`, CFG, BLKSZ and the source bytes. -/
def started (s : State) (i : Instr) (cfg : BitVec 2) (bs : BitVec 16) (src : List Byte) : State :=
  { s with cfg := cfg, blksz := bs, srcLen := BitVec.ofNat 32 src.length
           mem := Memory.setBytes [] 0x10000 src, iv := 0x0505
           status := { s.status with lastOp := opField (encode i) }
           seq := { phase := .start, op := opField (encode i), esel := eselField (encode i), blk := 0, hdr := 0 }
           turn := .engine }

/-- The state after the start step. -/
def inBlocks (s : State) (i : Instr) (cfg : BitVec 2) (bs : BitVec 16) (src : List Byte) : State :=
  after (exec i (started s i cfg bs src))

/-- MODEXP after acceptance with the given operands. -/
def modexpAt (i : Instr) (phase : Phase) (n b e d : Nat) : State :=
  { started k15 i 0 0 [] with
    n := BitVec.ofNat 8192 n, base := BitVec.ofNat 8192 b, e := BitVec.ofNat 8192 e, d := BitVec.ofNat 8192 d
    seq := { phase := phase, op := 1, esel := eselField (encode i), blk := 0, hdr := 0 } }

/-- A platform on which a DMA access of one address gets an error response. -/
def failing (a : Nat) (write : Bool) : Config.Platform :=
  { Config.Platform.default with busErr := [{ first := a, len := 1, write := write }] }

/-! ## Well-formedness -/

theorem test_wf_abort_refused : (Instr.ctrlAbort 1073741824).wellFormed = false := by decide
theorem test_wf_abort_top : (Instr.ctrlAbort 1073741823).wellFormed = true := by decide
theorem test_wf_srst_refused : (Instr.ctrlSrst true 1073741824).wellFormed = false := by decide
theorem test_wf_srst_top : (Instr.ctrlSrst false 1073741823).wellFormed = true := by decide

/-! ## Decoding: words written bit by bit from R111, R112 and R115 -/

theorem test_decode_nop : decodeCmd 0b00000000000000000000000000000000 = .instr .nop := by decide
theorem test_decode_modexpE : decodeCmd 0b00000000000000000000000000000001 = .instr .modexpE := by decide
theorem test_decode_modexpD : decodeCmd 0b00000000000000000000000000010001 = .instr .modexpD := by decide
theorem test_decode_ecbEnc : decodeCmd 0b00000000000000000000000000000100 = .instr .ecbEnc := by decide
theorem test_decode_ecbDec : decodeCmd 0b00000000000000000000000000000101 = .instr .ecbDec := by decide
theorem test_decode_cbcEnc : decodeCmd 0b00000000000000000000000000000110 = .instr .cbcEnc := by decide
theorem test_decode_cbcDec : decodeCmd 0b00000000000000000000000000000111 = .instr .cbcDec := by decide
theorem test_decode_ctrlAbort : decodeCtrl 0b10000000000000000000000000000101 = .instr (.ctrlAbort 0x20000001) := by decide
theorem test_decode_ctrlSrst : decodeCtrl 0b10000000000000000000000000000111 = .instr (.ctrlSrst true 0x20000001) := by decide
theorem test_decode_bytes : decodeBytes .cmd32 [0x11, 0, 0, 0] = .instr .modexpD := by decide
theorem test_decode_short : decodeBytes .cmd32 [0x11, 0, 0] = .rejected .wrongLength := by decide
theorem test_decode_reserved_ops :
    [2, 3, 8, 9, 10, 11, 12, 13, 14, 15].map decodeCmd = List.replicate 10 (.rejected .reservedOp) := by decide
theorem test_decode_table :
    decodeTableWord 32 0x11 = some .modexpD ∧ decodeTableWord 8 1 = some (.ctrlAbort 0) ∧
    decodeTableWord 8 2 = some (.ctrlSrst false 0) ∧ decodeTableWord 32 2 = some (.ctrlSrst false 0) ∧
    decodeTableWord 8 0 = none ∧ decodeTableWord 32 8 = none := by decide

/-- From reset with a word placed, the first step runs it: MODEXP.D is accepted (R144, I16 with ESEL = 1). -/
theorem test_fetch_cmd :
    (after (step (State.reset.withFetchWord 32 0x11))).seq = { phase := .start, op := 1, esel := true, blk := 0, hdr := 0 } := by
  decide +kernel

/-- A control word of the table is written to CTRL, not to CMD: an abort of an idle block does nothing (R148). -/
theorem test_fetch_ctrl : (after (step (State.reset.withFetchWord 8 1))).status = State.reset.status := by decide +kernel

/-! ## Single steps, results from spec/95_test_vectors.md -/

/-- I2. -/
theorem test_nop : (after (exec .nop (started State.reset .nop 0 0 []))).statusWord = 0x00000002 ∧
    (after (exec .nop (started State.reset .nop 0 0 []))).intStat = 1 := by decide +kernel

/-- I16: acceptance of MODEXP shows BUSY. -/
theorem test_accept : (after (exec .modexpE State.reset)).statusWord = 0x00000011 := by decide +kernel

/-- M1. -/
theorem test_modexpE : getWord (after (exec .modexpE (modexpAt .modexpE .compute 20687 65 3 0))).result 0 = 0x163E := by
  decide +kernel

/-- M15: operands of the full width. -/
theorem test_modexpE_wide :
    (after (exec .modexpE (modexpAt .modexpE .compute (2 ^ 2048 - 1) (2 ^ 2048 - 2) 2 0))).result = 1 := by decide +kernel

/-- M18. -/
theorem test_modexpD :
    getWord (after (exec .modexpD (modexpAt .modexpD .compute 0xFFE000FF 0x1642C316 0 0x5D0AE923))).result 0 = 0x4869 := by
  decide +kernel

/-- M11: DOMAIN. -/
theorem test_modexp_domain : (after (exec .modexpE (modexpAt .modexpE .start 0 5 3 0))).statusWord = 0x00000214 := by
  decide +kernel

/-- S-ECB-1, block 0. -/
theorem test_ecbEnc :
    (after (exec .ecbEnc (inBlocks k15 .ecbEnc 1 1 [0x41, 0x42]))).mem.getBytes 0x20000 2 = [0x03, 0xC3] := by decide +kernel

/-- S-ECB-9: CFG_BLKSZ with the derived block size 0. -/
theorem test_ecbEnc_blksz : (inBlocks k15 .ecbEnc 0 0 [0x41]).statusWord = 0x00000844 := by decide +kernel

/-- S-ECB-3, block 0. -/
theorem test_ecbDec :
    (after (exec .ecbDec (inBlocks k15 .ecbDec 1 1 [0x03, 0xC3, 0x03, 0x86]))).mem.getBytes 0x20000 1 = [0x41] := by
  decide +kernel

/-- S-ECB-8: ENC_OVERFLOW at block 0. -/
theorem test_ecbDec_overflow :
    (after (exec .ecbDec (inBlocks k15 .ecbDec 1 1 [0x31, 0x0C]))).statusWord = 0x00000754 := by decide +kernel

/-- S-CBC-1: the header is written by the start step. -/
theorem test_cbcEnc_header : (inBlocks k15 .cbcEnc 3 2 [0x41, 0x42]).mem.getBytes 0x20000 2 = [0x05, 0x05] := by
  decide +kernel

/-- S-CBC-1: the block and the chain value. -/
theorem test_cbcEnc :
    (after (exec .cbcEnc (inBlocks k15 .cbcEnc 3 2 [0x41, 0x42]))).mem.getBytes 0x20002 2 = [0x01, 0x29] ∧
    getWord (after (exec .cbcEnc (inBlocks k15 .cbcEnc 3 2 [0x41, 0x42]))).chain 0 = 0x00002901 := by decide +kernel

/-- S-CBC-2. -/
theorem test_cbcDec :
    (after (exec .cbcDec (inBlocks k15 .cbcDec 3 2 [0x05, 0x05, 0x01, 0x29]))).mem.getBytes 0x20000 2 = [0x41, 0x42] := by
  decide +kernel

/-- S-CBC-8: ENC_WIDTH. -/
theorem test_cbcDec_width : (inBlocks k15 .cbcDec 3 2 [0x05]).statusWord = 0x00000674 := by decide +kernel

/-- I18: an abort between MODEXP's two steps. -/
theorem test_abort : (after (exec (.ctrlAbort 0) (modexpAt .modexpE .compute 20687 65 7 0))).statusWord = 0x00000A14 := by
  decide +kernel

/-- I15: SRST with ABORT also set. -/
theorem test_srst : (after (exec (.ctrlSrst true 0) k15)).n = 0 ∧ (after (exec (.ctrlSrst true 0) k15)).errInfo = 0xFFFFFFFF := by
  decide +kernel

/-- R302: a reset before the start step has checked the ranges leaves the source byte, although the OUT_REQ of an earlier
command reaches over it. -/
theorem test_srst_source :
    (after (exec (.ctrlSrst false 0) { started k15 .ecbEnc 1 1 [0x41] with dstAddr := 0x10000, outReq := 4 })).mem.get 0x10000
      = 0x41 := by decide +kernel

/-- I1. -/
theorem test_ids : State.reset.readReg .id = 0x4D455850 ∧ State.reset.readReg .param = 0x00010040 := by decide +kernel

/-- I4: ESEL with ECB_ENC. -/
theorem test_illegal : (after (writeCmd State.reset 0x14)).statusWord = 0x00000144 := by decide +kernel

/-- I6: a window write while busy. -/
theorem test_busy_write :
    (after (writeReg (started k15 .nop 0 0 []) (.word .n 0) 0x1234)).intStat = 4 ∧
    (after (writeReg (started k15 .nop 0 0 []) (.word .n 0) 0x1234)).n = 20687 := by decide +kernel

/-- I11. -/
theorem test_int_clear : (after (writeReg { State.reset with intStat := 3, intEn := 2 } .intStat 2)).intStat = 1 := by
  decide +kernel

/-- R93(b): a command that ended at `[0x20000, 0x20002)`, seen by INT_STAT.DONE_IS while the next one runs. -/
def nextRuns (old : BitVec 3) : State :=
  { started k15 .nop 0 0 [] with intStat := 1, unobserved := [{ first := 0x20000, len := 2, oldInt := old, writes := [] }] }

theorem test_int_observes : (after (portRead (nextRuns 0) (busAddr k15.plat .intStat) 4)).notReleased 0x20001 = false := by
  decide +kernel

/-- R315: a DONE_IS from before the command tells nothing. -/
theorem test_int_stale : (after (portRead (nextRuns 1) (busAddr k15.plat .intStat) 4)).notReleased 0x20001 = true := by
  decide +kernel

/-- P3: `LDB IV, 05 05` is the write of 0x00000505 to the first word of IV. -/
theorem test_ldb : asmLdb Config.Platform.default [0x05, 0x05] = [asmWr Config.Platform.default (.word .iv 0) 0x00000505] := by
  decide +kernel

/-! ## Witnesses: for every obligation with hypotheses, values that meet all of them -/

theorem wit_DecodeEncodeAgree : Instr.cbcDec.wellFormed = true ∧ (Instr.ctrlSrst true 1073741823).wellFormed = true := by
  decide

theorem wit_EncodeDecodeAgree :
    decode .cmd32 0x11 = .instr .modexpD ∧ decode .ctrl32 0xFFFFFFFF = .instr (.ctrlSrst true 0x3FFFFFFF) := by decide

/-- A word for each clause: SRST (with and without ABORT), ABORT, neither. -/
theorem wit_DecodeIsTotal :
    (3 : Word).getLsbD 1 = true ∧ ((1 : Word).getLsbD 1 = false ∧ (1 : Word).getLsbD 0 = true) ∧
    ((0xFFFFFFFC : Word).getLsbD 1 = false ∧ (0xFFFFFFFC : Word).getLsbD 0 = false) := by decide

theorem wit_StepRunsWrittenInstruction :
    decode .cmd32 0x6 = .instr .cbcEnc ∧
    (State.reset.withFetchWord 32 0x6).schedule =
      .host (.portWrite (busAddr (State.reset.withFetchWord 32 0x6).plat (formatReg .cmd32)) (fullLanes 0x6)) :: [] := by
  decide +kernel

/-- The last word of the last window, a word that no CMD format decodes, a CTRL word with every bit but the action bits, and
a host step that is no bus access, each as the next move. -/
theorem wit_StepRunsWrittenInstruction_write :
    (∀ v k, Reg.word .chain 255 = .word v k → k < 256) ∧ (∀ v k, Reg.cmd = .word v k → k < 256) ∧
    { k15 with schedule := [.host (.portWrite (busAddr k15.plat (.word .chain 255)) (fullLanes 1))] }.schedule =
      .host (.portWrite (busAddr k15.plat (.word .chain 255)) (fullLanes 1)) :: [] ∧
    { k15 with schedule := [.host (.portWrite (busAddr k15.plat .cmd) (fullLanes 2))] }.schedule =
      .host (.portWrite (busAddr k15.plat .cmd) (fullLanes 2)) :: [] ∧
    decodeCmd 0x6 = .instr .cbcEnc ∧ decodeCtrl 0x7 = .instr (.ctrlSrst true 1) ∧
    (0xFFFFFFFC : Word).getLsbD 1 = false ∧ (0xFFFFFFFC : Word).getLsbD 0 = false ∧
    { k15 with schedule := [.host .barrier] }.schedule = .host .barrier :: [] := by
  refine ⟨fun v k h => ?_, fun v k h => (nomatch h), rfl, rfl, by decide, by decide, by decide, by decide, rfl⟩
  cases h
  decide

/-- Both forms of the schedule, running and idle. -/
theorem wit_StepRunsEngine :
    { started k15 .nop 0 0 [] with schedule := [.engine] }.schedule = .engine :: [] ∧
    (started k15 .nop 0 0 []).schedule = [] ∧ (started k15 .nop 0 0 []).busy = true ∧
    decodeOp (started k15 .nop 0 0 []).seq.op (started k15 .nop 0 0 []).seq.esel = .instr .nop ∧ State.reset.busy = false := by
  decide +kernel

theorem wit_CommandAcceptance : Instr.modexpD.format = .cmd32 ∧ State.reset.turn = .host ∧ State.reset.busy = false := by
  decide

theorem wit_BusyCommandIgnored :
    { started k15 .nop 0 0 [] with turn := .host }.turn = .host ∧ (started k15 .nop 0 0 []).busy = true := by decide +kernel

theorem wit_IllegalCommand :
    State.reset.busy = false ∧ decodeCmd 0x2 = .rejected .reservedOp ∧ decodeCmd 0x14 = .rejected .eselNotModexp ∧
    decodeCmd 0x80000000 = .rejected .reservedBits := by decide

theorem wit_NopCompletes : (started k15 .nop 0 0 []).runs 0 false .start := by decide +kernel

/-- Both exponents, at the least modulus. -/
theorem wit_ModexpStartStep :
    ((modexpAt .modexpE .start 1 5 0 0).runs 1 false .start ∧ 0 < (modexpAt .modexpE .start 1 5 0 0).valN) ∧
    (modexpAt .modexpD .start 1 5 0 0).runs 1 true .start ∧ 0 < (modexpAt .modexpD .start 1 5 0 0).valN := by decide +kernel

theorem wit_ModexpDomain :
    ((modexpAt .modexpE .start 0 5 3 0).runs 1 false .start ∧ (modexpAt .modexpE .start 0 5 3 0).valN = 0) ∧
    (modexpAt .modexpD .start 0 5 3 0).runs 1 true .start ∧ (modexpAt .modexpD .start 0 5 3 0).valN = 0 := by decide +kernel

theorem wit_ModexpEResult :
    (modexpAt .modexpE .compute 1 0 0 0).runs 1 false .compute ∧ 0 < (modexpAt .modexpE .compute 1 0 0 0).valN := by
  decide +kernel

theorem wit_ModexpDResult :
    (modexpAt .modexpD .compute 20687 963 0 8743).runs 1 true .compute ∧
    0 < (modexpAt .modexpD .compute 20687 963 0 8743).valN := by decide +kernel

/-- Key K15 meets the invariants of R30. -/
theorem wit_validKey : ValidKey 20687 7 8743 := ⟨137, 151, by norm_num, by norm_num, by norm_num, by norm_num, by norm_num⟩

theorem wit_RsaInverseLaw : ValidKey 20687 7 8743 ∧ 20686 < 20687 := ⟨wit_validKey, by decide⟩

/-- Idle; a running stream command with no race; a running command that is no stream command. -/
theorem wit_Abort :
    k15.busy = false ∧
    ((inBlocks k15 .ecbEnc 1 1 [0x41, 0x42]).busy = true ∧ (inBlocks k15 .ecbEnc 1 1 [0x41, 0x42]).mem.wf = true ∧
      (inBlocks k15 .ecbEnc 1 1 [0x41, 0x42]).raced = []) ∧
    (started k15 .nop 0 0 []).busy = true ∧ streamOf (started k15 .nop 0 0 []).seq.op = none := by decide +kernel

/-- A running stream command with a byte outside its destination and one of its source; idle; MODEXP running; `rst`. -/
theorem wit_SoftReset :
    ((inBlocks k15 .ecbEnc 1 1 [0x41]).mem.wf = true ∧
      (inBlocks k15 .ecbEnc 1 1 [0x41]).dstAddr.toNat + (inBlocks k15 .ecbEnc 1 1 [0x41]).outReq.toNat ≤ 0x20002 ∧
      0x20002 ∉ (inBlocks k15 .ecbEnc 1 1 [0x41]).racedDst ∧
      (inBlocks k15 .ecbEnc 1 1 [0x41]).srcAddr.toNat ≤ 0x10000 ∧
      0x10000 < (inBlocks k15 .ecbEnc 1 1 [0x41]).srcAddr.toNat + (inBlocks k15 .ecbEnc 1 1 [0x41]).srcLen.toNat) ∧
    k15.busy = false ∧
    ((modexpAt .modexpE .compute 20687 65 7 0).busy = true ∧
      streamOf (modexpAt .modexpE .compute 20687 65 7 0).seq.op = none) ∧
    { k15 with schedule := [.reset] }.schedule = .reset :: [] := by decide +kernel

/-- The premises of the start step's statements for a state, block size, cipher width and plan. -/
abbrev startPremises (c : StreamOp) (s : State) (bs cw : Nat) : Prop :=
  s.runs c.op false .start ∧ 1 < s.valN ∧ bs = (if s.bssel then s.blksz.toNat else bitLen s.valN / 16) ∧
    cw = (bitLen s.valN + 7) / 8 ∧ 0 < bs ∧ bs ≤ cw

/-- The range checks pass for an output length. -/
abbrev rangeOk (s : State) (out : Nat) : Prop :=
  badRange s.srcAddr.toNat s.srcLen.toNat s.dstAddr.toNat out s.dstCap.toNat = false

/-- ECB with an explicit block size, at the boundary `bs = CW`. -/
theorem wit_StreamStartSucceeds_ecb :
    startPremises .ecbEnc (started k15 .ecbEnc 1 2 [0x41, 0x42]) 2 2 ∧
    plan .ecbEnc (started k15 .ecbEnc 1 2 [0x41, 0x42]).ivhdr 2 2 2 = some { nb := 1, hdr := 0, out := 2 } ∧
    rangeOk (started k15 .ecbEnc 1 2 [0x41, 0x42]) 2 ∧ (started k15 .ecbEnc 1 2 [0x41, 0x42]).srcLen.toNat = 2 := by
  decide +kernel

theorem wit_StreamStartSucceeds_ecbDec :
    startPremises .ecbDec (started k32 .ecbDec 0 0 []) 2 4 ∧
    plan .ecbDec (started k32 .ecbDec 0 0 []).ivhdr 0 2 4 = some { nb := 0, hdr := 0, out := 0 } ∧
    rangeOk (started k32 .ecbDec 0 0 []) 0 ∧ (started k32 .ecbDec 0 0 []).srcLen.toNat = 0 := by decide +kernel

theorem wit_StreamStartSucceeds_cbcEnc :
    startPremises .cbcEnc (started k15 .cbcEnc 3 2 [0x41, 0x42]) 2 2 ∧
    plan .cbcEnc (started k15 .cbcEnc 3 2 [0x41, 0x42]).ivhdr 2 2 2 = some { nb := 1, hdr := 2, out := 4 } ∧
    rangeOk (started k15 .cbcEnc 3 2 [0x41, 0x42]) 4 ∧ (started k15 .cbcEnc 3 2 [0x41, 0x42]).srcLen.toNat = 2 ∧
    (started k15 .cbcEnc 3 2 [0x41, 0x42]).ivhdr = true ∧
    busErrIn (started k15 .cbcEnc 3 2 [0x41, 0x42]).plat true 0x20000 2 = false := by decide +kernel

theorem wit_StreamStartSucceeds_cbcDec :
    startPremises .cbcDec (started k15 .cbcDec 3 2 [0x05, 0x05, 0x01, 0x29]) 2 2 ∧
    plan .cbcDec (started k15 .cbcDec 3 2 [0x05, 0x05, 0x01, 0x29]).ivhdr 4 2 2 = some { nb := 1, hdr := 2, out := 2 } ∧
    rangeOk (started k15 .cbcDec 3 2 [0x05, 0x05, 0x01, 0x29]) 2 ∧
    (started k15 .cbcDec 3 2 [0x05, 0x05, 0x01, 0x29]).srcLen.toNat = 4 ∧
    (started k15 .cbcDec 3 2 [0x05, 0x05, 0x01, 0x29]).ivhdr = true ∧
    busErrIn (started k15 .cbcDec 3 2 [0x05, 0x05, 0x01, 0x29]).plat false 0x10000 2 = false := by decide +kernel

/-- With and without the IV header. -/
theorem wit_CbcEncStart (cfg : BitVec 2) (h : cfg = 1 ∨ cfg = 3) :
    (started k15 .cbcEnc cfg 2 [0x41, 0x42]).runs 6 false .start ∧ (started k15 .cbcEnc cfg 2 [0x41, 0x42]).mem.wf = true ∧
    exec .cbcEnc (started k15 .cbcEnc cfg 2 [0x41, 0x42]) = .next (inBlocks k15 .cbcEnc cfg 2 [0x41, 0x42]) ∧
    (inBlocks k15 .cbcEnc cfg 2 [0x41, 0x42]).seq.phase = .blocks := by
  rcases h with rfl | rfl <;>
    exact ⟨by decide +kernel, by decide +kernel, next_after (by decide +kernel), by decide +kernel⟩

theorem wit_CbcDecStart (cfg : BitVec 2) (h : cfg = 1 ∨ cfg = 3) :
    (started k15 .cbcDec cfg 2 [0x05, 0x05]).runs 7 false .start ∧
    exec .cbcDec (started k15 .cbcDec cfg 2 [0x05, 0x05]) = .next (inBlocks k15 .cbcDec cfg 2 [0x05, 0x05]) ∧
    (inBlocks k15 .cbcDec cfg 2 [0x05, 0x05]).seq.phase = .blocks := by
  rcases h with rfl | rfl <;> exact ⟨by decide +kernel, next_after (by decide +kernel), by decide +kernel⟩

theorem wit_ModulusCheck :
    (started { k15 with n := 1 } .ecbEnc 1 1 [0x41]).runs StreamOp.ecbEnc.op false .start ∧
    (started { k15 with n := 1 } .ecbEnc 1 1 [0x41]).valN ≤ 1 := by decide +kernel

/-- A block size of 0 and one of CW + 1. -/
theorem wit_BlockSizeCheck :
    ((started k15 .cbcEnc 0 0 []).runs StreamOp.cbcEnc.op false .start ∧ 1 < (started k15 .cbcEnc 0 0 []).valN ∧
      0 = (if (started k15 .cbcEnc 0 0 []).bssel then (started k15 .cbcEnc 0 0 []).blksz.toNat
        else bitLen (started k15 .cbcEnc 0 0 []).valN / 16)) ∧
    (started k15 .ecbDec 1 3 []).runs StreamOp.ecbDec.op false .start ∧ (started k15 .ecbDec 1 3 []).bssel = true ∧
      (bitLen (started k15 .ecbDec 1 3 []).valN + 7) / 8 < (started k15 .ecbDec 1 3 []).blksz.toNat := by decide +kernel

theorem wit_WidthCheck :
    startPremises .ecbDec (started k15 .ecbDec 1 1 [1, 2, 3]) 1 2 ∧
    plan .ecbDec (started k15 .ecbDec 1 1 [1, 2, 3]).ivhdr (started k15 .ecbDec 1 1 [1, 2, 3]).srcLen.toNat 1 2 = none := by
  decide +kernel

/-- S-ECB-15: one byte too little capacity. -/
theorem wit_RangeCheck :
    let s := started { k15 with dstCap := 3 } .ecbEnc 1 1 [0x41, 0x42]
    startPremises .ecbEnc s 1 2 ∧
    plan .ecbEnc s.ivhdr s.srcLen.toNat 1 2 = some { nb := 2, hdr := 0, out := 4 } ∧
    RangeFault s.srcAddr.toNat s.srcLen.toNat s.dstAddr.toNat 4 s.dstCap.toNat :=
  ⟨by decide +kernel, by decide +kernel, .inr (.inr (.inr (.inl (by decide +kernel))))⟩

/-- S-ECB-17: an overlap of one byte, the clause (e). -/
theorem wit_RangeCheck_overlap :
    let s := started { k15 with dstAddr := 0x10001 } .ecbEnc 1 1 [0x41, 0x42]
    startPremises .ecbEnc s 1 2 ∧
    plan .ecbEnc s.ivhdr s.srcLen.toNat 1 2 = some { nb := 2, hdr := 0, out := 4 } ∧
    RangeFault s.srcAddr.toNat s.srcLen.toNat s.dstAddr.toNat 4 s.dstCap.toNat :=
  have h : _ ∧ _ := by decide +kernel
  ⟨h.1, h.2, .inr (.inr (.inr (.inr ⟨by decide, by decide, 0x10001, by decide +kernel⟩)))⟩

/-- S-CBC-15. -/
theorem wit_HeaderBusError_enc :
    startPremises .cbcEnc (started { k15 with plat := failing 0x20000 true } .cbcEnc 3 2 [0x41, 0x42]) 2 2 ∧
    (started { k15 with plat := failing 0x20000 true } .cbcEnc 3 2 [0x41, 0x42]).raced = [] ∧
    (started { k15 with plat := failing 0x20000 true } .cbcEnc 3 2 [0x41, 0x42]).mem.wf = true ∧
    plan .cbcEnc true (started { k15 with plat := failing 0x20000 true } .cbcEnc 3 2 [0x41, 0x42]).srcLen.toNat 2 2
      = some { nb := 1, hdr := 2, out := 4 } ∧
    rangeOk (started { k15 with plat := failing 0x20000 true } .cbcEnc 3 2 [0x41, 0x42]) 4 ∧
    (started { k15 with plat := failing 0x20000 true } .cbcEnc 3 2 [0x41, 0x42]).ivhdr = true ∧
    busErrIn (failing 0x20000 true) true 0x20000 2 = true := by decide +kernel

/-- S-CBC-16. -/
theorem wit_HeaderBusError_dec :
    startPremises .cbcDec (started { k15 with plat := failing 0x10000 false } .cbcDec 3 2 [0x05, 0x05, 0x01, 0x29]) 2 2 ∧
    (started { k15 with plat := failing 0x10000 false } .cbcDec 3 2 [0x05, 0x05, 0x01, 0x29]).raced = [] ∧
    plan .cbcDec true (started { k15 with plat := failing 0x10000 false } .cbcDec 3 2 [0x05, 0x05, 0x01, 0x29]).srcLen.toNat 2 2
      = some { nb := 1, hdr := 2, out := 2 } ∧
    rangeOk (started { k15 with plat := failing 0x10000 false } .cbcDec 3 2 [0x05, 0x05, 0x01, 0x29]) 2 ∧
    (started { k15 with plat := failing 0x10000 false } .cbcDec 3 2 [0x05, 0x05, 0x01, 0x29]).ivhdr = true ∧
    busErrIn (failing 0x10000 false) false 0x10000 2 = true := by decide +kernel

/-- `BlocksOk` from its decidable parts. -/
theorem blocksOk_of {c : StreamOp} {s : State}
    (h : 1 < s.valN ∧ s.nbits.toNat = bitLen s.valN ∧ s.cwidth.toNat = ceilDiv (bitLen s.valN) Config.widthDivisor ∧
      s.ebs.toNat = effectiveBs s ∧ badBs s.ebs.toNat s.cwidth.toNat = false ∧
      Machine.plan c s.ivhdr s.srcLen.toNat s.ebs.toNat s.cwidth.toNat
        = some { nb := s.nblkTotal.toNat, hdr := s.seq.hdr, out := s.outReq.toNat } ∧
      badRange s.srcAddr.toNat s.srcLen.toNat s.dstAddr.toNat s.outReq.toNat s.dstCap.toNat = false ∧
      s.seq.blk = s.nblkDone ∧ s.seq.blk.toNat ≤ s.nblkTotal.toNat ∧
      s.dstLen.toNat = (if c.dec then 0 else s.seq.hdr) + s.seq.blk.toNat * s.outWidth c) : BlocksOk c s := by
  constructor <;> tauto

theorem wit_EcbEncBlock :
    let s := inBlocks k15 .ecbEnc 1 1 [0x41, 0x42]
    BlocksOk .ecbEnc s ∧ s.runs 4 false .blocks ∧ s.mem.wf = true ∧ s.seq.blk < s.nblkTotal ∧
    busErrIn s.plat false (s.srcBlock .ecbEnc) (s.srcTake .ecbEnc) = false ∧
    busErrIn s.plat true (s.dstBlock .ecbEnc) s.cwidth.toNat = false ∧ s.encInput .ecbEnc < s.valN :=
  ⟨blocksOk_of (by decide +kernel), by decide +kernel⟩

theorem wit_EcbDecBlock :
    let s := inBlocks k15 .ecbDec 1 1 [0x03, 0xC3]
    BlocksOk .ecbDec s ∧ s.runs 5 false .blocks ∧ s.mem.wf = true ∧ s.seq.blk < s.nblkTotal ∧
    busErrIn s.plat false (s.srcBlock .ecbDec) (s.srcTake .ecbDec) = false ∧
    busErrIn s.plat true (s.dstBlock .ecbDec) s.ebs.toNat = false ∧ beNat (s.sourceBytes .ecbDec) < s.valN ∧
    beNat (s.sourceBytes .ecbDec) ^ s.valD % s.valN < 256 ^ s.ebs.toNat :=
  ⟨blocksOk_of (by decide +kernel), by decide +kernel⟩

theorem wit_CbcEncBlock :
    let s := inBlocks k15 .cbcEnc 3 2 [0x41, 0x42, 0x43]
    BlocksOk .cbcEnc s ∧ s.runs 6 false .blocks ∧ s.mem.wf = true ∧ s.seq.blk < s.nblkTotal ∧
    busErrIn s.plat false (s.srcBlock .cbcEnc) (s.srcTake .cbcEnc) = false ∧
    busErrIn s.plat true (s.dstBlock .cbcEnc) s.cwidth.toNat = false ∧
    beNat (xorBytes (padBlock s.ebs.toNat (s.sourceBytes .cbcEnc)) (winBytes s.chain s.ebs.toNat)) < s.valN :=
  ⟨blocksOk_of (by decide +kernel), by decide +kernel⟩

theorem wit_CbcDecBlock :
    let s := inBlocks k15 .cbcDec 3 2 [0x05, 0x05, 0x01, 0x29]
    BlocksOk .cbcDec s ∧ s.runs 7 false .blocks ∧ s.mem.wf = true ∧ s.seq.blk < s.nblkTotal ∧
    busErrIn s.plat false (s.srcBlock .cbcDec) (s.srcTake .cbcDec) = false ∧
    busErrIn s.plat true (s.dstBlock .cbcDec) s.ebs.toNat = false ∧ beNat (s.sourceBytes .cbcDec) < s.valN ∧
    beNat (s.sourceBytes .cbcDec) ^ s.valD % s.valN < 256 ^ s.ebs.toNat :=
  ⟨blocksOk_of (by decide +kernel), by decide +kernel⟩

/-- S-ECB-5, with the clause on memory's premises. -/
theorem wit_EncRangeError :
    let s := inBlocks k15 .ecbEnc 1 2 [0xFF, 0xFF]
    BlocksOk .ecbEnc s ∧ s.runs StreamOp.ecbEnc.op false .blocks ∧ s.seq.blk < s.nblkTotal ∧
    busErrIn s.plat false (s.srcBlock .ecbEnc) (s.srcTake .ecbEnc) = false ∧ s.valN ≤ s.encInput .ecbEnc ∧
    s.raced = [] ∧ s.plat.ecbParallel = false :=
  ⟨blocksOk_of (by decide +kernel), by decide +kernel⟩

/-- `KeepsDone`: with ECB_PARALLEL, block 1 at or above the modulus, and a byte of block 0, which is complete. -/
theorem wit_EncRangeError_done :
    let s := { after (exec .ecbEnc (inBlocks k15 .ecbEnc 1 2 [0x41, 0x42, 0xFF, 0xFF])) with
      plat := { Config.Platform.default with ecbParallel := true } }
    BlocksOk .ecbEnc s ∧ s.runs StreamOp.ecbEnc.op false .blocks ∧ s.seq.blk < s.nblkTotal ∧ s.seq.blk = 1 ∧
    busErrIn s.plat false (s.srcBlock .ecbEnc) (s.srcTake .ecbEnc) = false ∧ s.valN ≤ s.encInput .ecbEnc ∧
    s.mem.wf = true ∧ s.dstAddr.toNat ≤ 0x20001 ∧ 0x20001 < s.dstAddr.toNat + s.dstLen.toNat ∧ 0x20001 ∉ s.racedDst :=
  ⟨blocksOk_of (by decide +kernel), by decide +kernel⟩

/-- S-ECB-7, ENC_CRANGE. -/
theorem wit_DecErrors_crange :
    let s := inBlocks k15 .ecbDec 1 1 [0xFF, 0xFF]
    BlocksOk .ecbDec s ∧ s.runs StreamOp.ecbDec.op false .blocks ∧ s.seq.blk < s.nblkTotal ∧
    busErrIn s.plat false (s.srcBlock .ecbDec) (s.srcTake .ecbDec) = false ∧ s.valN ≤ beNat (s.sourceBytes .ecbDec) ∧
    s.raced = [] ∧ s.plat.ecbParallel = false :=
  ⟨blocksOk_of (by decide +kernel), by decide +kernel⟩

/-- S-ECB-8, ENC_OVERFLOW. -/
theorem wit_DecErrors_overflow :
    let s := inBlocks k15 .ecbDec 1 1 [0x31, 0x0C]
    BlocksOk .ecbDec s ∧ s.runs StreamOp.ecbDec.op false .blocks ∧ s.seq.blk < s.nblkTotal ∧
    busErrIn s.plat false (s.srcBlock .ecbDec) (s.srcTake .ecbDec) = false ∧ beNat (s.sourceBytes .ecbDec) < s.valN ∧
    256 ^ s.ebs.toNat ≤ beNat (s.sourceBytes .ecbDec) ^ s.valD % s.valN :=
  ⟨blocksOk_of (by decide +kernel), by decide +kernel⟩

/-- The second clause of `DecErrors`: S-ECB-3's block on a platform that refuses its write. -/
theorem wit_DecErrors_write :
    let s := inBlocks { k15 with plat := failing 0x20000 true } .ecbDec 1 1 [0x03, 0xC3]
    BlocksOk .ecbDec s ∧ s.runs StreamOp.ecbDec.op false .blocks ∧ s.seq.blk < s.nblkTotal ∧
    busErrIn s.plat false (s.srcBlock .ecbDec) (s.srcTake .ecbDec) = false ∧ s.mem.wf = true ∧
    beNat (s.sourceBytes .ecbDec) < s.valN ∧ beNat (s.sourceBytes .ecbDec) ^ s.valD % s.valN < 256 ^ s.ebs.toNat ∧
    busErrIn s.plat true (s.dstBlock .ecbDec) s.ebs.toNat = true ∧ s.raced = [] ∧ s.plat.ecbParallel = false :=
  ⟨blocksOk_of (by decide +kernel), by decide +kernel⟩

theorem wit_BlockReadBusError :
    let s := inBlocks { k15 with plat := failing 0x10000 false } .ecbEnc 1 1 [0x41, 0x42]
    BlocksOk .ecbEnc s ∧ s.runs StreamOp.ecbEnc.op false .blocks ∧ s.seq.blk < s.nblkTotal ∧
    busErrIn s.plat false (s.srcBlock .ecbEnc) (s.srcTake .ecbEnc) = true ∧ s.raced = [] ∧ s.plat.ecbParallel = false :=
  ⟨blocksOk_of (by decide +kernel), by decide +kernel⟩

theorem wit_EncWriteBusError :
    let s := inBlocks { k15 with plat := failing 0x20001 true } .ecbEnc 1 1 [0x41, 0x42]
    BlocksOk .ecbEnc s ∧ s.runs StreamOp.ecbEnc.op false .blocks ∧ s.mem.wf = true ∧ s.seq.blk < s.nblkTotal ∧
    busErrIn s.plat false (s.srcBlock .ecbEnc) (s.srcTake .ecbEnc) = false ∧ s.encInput .ecbEnc < s.valN ∧
    busErrIn s.plat true (s.dstBlock .ecbEnc) s.cwidth.toNat = true ∧ s.raced = [] ∧ s.plat.ecbParallel = false :=
  ⟨blocksOk_of (by decide +kernel), by decide +kernel⟩

/-- S-CBC-5: an empty source has no block left after the start step. -/
theorem wit_StreamCompletes :
    let s := inBlocks k15 .cbcEnc 3 2 []
    BlocksOk .cbcEnc s ∧ s.runs StreamOp.cbcEnc.op false .blocks ∧ s.seq.blk = s.nblkTotal ∧ s.raced = [] :=
  ⟨blocksOk_of (by decide +kernel), by decide +kernel⟩

/-- A write the other agent may not see yet, under no dirty line. -/
def lagAt (a : Nat) : Lag := { addr := a, old := 7, maintained := false, dirty := false }

/-- The last address of memory, beside a host write of another byte that is not yet visible. -/
theorem wit_DmaReadsMemory :
    let s := { k15 with unseen := [lagAt 0] }
    ∀ x, 4294967295 ≤ x → x < 4294967295 + 1 → (∀ l ∈ s.unseen, l.addr ≠ x) ∧ ∀ c ∈ s.raced, c.1 ≠ x := by
  intro s x h _
  refine ⟨fun l hl => ?_, fun c hc => ?_⟩
  · simp [s] at hl; subst hl; simp [lagAt]; omega
  · simp [s, k15, State.reset] at hc

/-- A host write of the last two bytes of memory, which no command has as its destination; a coherent platform. -/
theorem wit_DmaReadsMemory_write :
    k15.mem.wf = true ∧ (4294967294 : Word).toNat + ([1, 2] : List Byte).length ≤ 2 ^ 32 ∧
    k15.notReleased 4294967294 = false ∧ k15.notReleased 4294967295 = false ∧ k15.plat.dmaCoherent = true := by decide

/-- A command is accepted beside a host write of another byte that is not yet visible, and an engine write not yet ordered. -/
theorem wit_DmaReadsMemory_accept :
    let s : State := { k15 with posted := [lagAt 0], stale := [lagAt 1] }
    Instr.ecbEnc.format = .cmd32 ∧ s.turn = .host ∧ s.busy = false ∧ s.raced = [] ∧
    (∀ l ∈ s.posted, l.addr < 0x10000 ∨ 0x10000 + 2 ≤ l.addr) ∧ ∀ l ∈ s.lags, l.dirty = false := by decide

/-- A host write, without its duty, of the last source byte of a running command and the byte after it: both are listed, as
posted and as raced. -/
theorem wit_DmaReadsOldOrNew :
    let s := started k15 .ecbEnc 0 0 [0x48, 0x69]
    let r := hostStep (.memWrite 0x10001 [1, 2] false) s
    r = .next (after r) ∧ s.busy = true ∧
    (∃ l ∈ (after r).posted, l ∉ s.posted ∧ l.addr = 0x10001 ∧ l.old = 0x69) ∧
    (0x10002, 0) ∈ (after r).raced ∧ (0x10002, 0) ∉ s.raced := by
  refine ⟨next_after ?_, ?_, ⟨{ addr := 0x10001, old := 0x69, maintained := false, dirty := false }, ?_⟩, ?_⟩ <;> decide +kernel

theorem wit_DerivedBlockNeverOutOfRange :
    let s := inBlocks k32 .cbcEnc 0 0 [0x48, 0x69, 0x21]
    BlocksOk .cbcEnc s ∧ StreamOp.cbcEnc.dec = false ∧ s.bssel = false :=
  ⟨blocksOk_of (by decide +kernel), by decide +kernel⟩

/-- The last word of a window; a mapped offset; unmapped offsets at both ends of the hole, and a misaligned one. -/
theorem wit_RegisterMap :
    (∀ w k, Reg.word .chain 255 = .word w k → k < 256) ∧ regAt 0x1FFC = some (.word .chain 255) ∧
    regAt 0x50 = some .intStat ∧ regAt 0x54 = none ∧ regAt 0x3FC = none ∧ regAt 0x400 = some (.word .n 0) ∧
    regAt 0x12 = none := by
  refine ⟨fun w k h => ?_, by decide, by decide, by decide, by decide, by decide, by decide⟩
  cases h; decide

/-- A register that is no window word; window words on both sides of MAXWORDS, and both ends of a word. -/
theorem wit_RegisterRead :
    (∀ w k, Reg.status = .word w k → k < 256) ∧ 63 < State.reset.plat.maxW / 32 ∧ 31 < 32 ∧ State.reset.plat.maxW / 32 ≤ 64 := by
  refine ⟨fun w k h => ?_, by decide⟩
  cases h

/-- I9: a byte read, a misaligned offset, both ends of the unmapped hole, a missing strobe, too few lanes. -/
theorem wit_PortBusError :
    portOffset State.reset.plat 0x10 = some 0x10 ∧ (1 : Nat) ≠ 4 ∧
    (portOffset State.reset.plat 0x12 = some 0x12 ∧ 0x12 % 4 ≠ 0) ∧
    (portOffset State.reset.plat 0x54 = some 0x54 ∧ 0x54 ≤ 0x54 ∧ 0x54 < 0x400) ∧
    portOffset State.reset.plat 0x3FC = some 0x3FC ∧ (none : Option Byte) ∈ [some 1, none, some 1, some 1] ∧
    ([some 1, some 1] : List (Option Byte)).length ≠ 4 := by decide

/-- A configuration register, and window words on both sides of MAXWORDS. -/
theorem wit_RegisterWriteReadsBack :
    Reg.blksz.access = .rw ∧ Reg.blksz ≠ .intEn ∧ State.reset.busy = false ∧ (Reg.word .iv 63).access = .rw ∧
    (Reg.word .iv 64).access = .rw ∧ 63 < State.reset.plat.maxWords ∧ ¬64 < State.reset.plat.maxWords := by decide

theorem wit_IgnoredWrites :
    Reg.status.access = .ro ∧ (Reg.word .result 255).access = .ro ∧ (Reg.word .n 255).access = .rw ∧
    Reg.word .n 255 ≠ .intEn ∧ (started k15 .nop 0 0 []).busy = true := by decide +kernel

/-! ### The invariant -/

/-- `WindowsOk` from its decidable parts. -/
theorem windowsOk_of {s : State}
    (h : s.n.toNat < 2 ^ s.plat.maxW ∧ s.e.toNat < 2 ^ s.plat.maxW ∧ s.d.toNat < 2 ^ s.plat.maxW ∧
      s.base.toNat < 2 ^ s.plat.maxW ∧ s.result.toNat < 2 ^ s.plat.maxW ∧ s.iv.toNat < 2 ^ s.plat.maxW ∧
      s.chain.toNat < 2 ^ s.plat.maxW) : WindowsOk s := by
  constructor <;> simp only [h]

/-- `StatusOk` from its decidable parts. -/
theorem statusOk_of {s : State}
    (h : (s.status.done = true → s.busy = false ∧ s.status.err = false) ∧ (s.status.err = true → s.busy = false) ∧
      (s.status.err = false ↔ s.status.errCode = .none) ∧ (s.status.err = false → s.errInfo = Config.noBlock) ∧
      (s.busy = true → s.status.lastOp = s.seq.op)) : StatusOk s := by
  constructor <;> tauto

/-- Between two block steps the invariant follows from its parts. -/
theorem inv_of_blocks {s : State} {c : StreamOp} (hw : WindowsOk s) (hs : StatusOk s) (hb : BlocksOk c s)
    (h : s.mem.wf = true ∧ s.seq.phase = .blocks ∧ s.seq.op = c.op ∧ s.seq.esel = false) : Inv s := by
  obtain ⟨hm, hp, ho, he⟩ := h
  have hbusy : s.busy = true := by simp [State.busy, hp]
  refine ⟨hm, hw, hs, ⟨fun _ => ⟨c.instr, ?_⟩, by simp [hp], by simp [hp], fun _ => ⟨c, ho, hb⟩⟩, by simp [hbusy], by simp [hbusy]⟩
  rw [ho, he]; cases c <;> rfl

/-- While idle, with nothing raced and nothing written, the invariant follows from its parts. -/
theorem inv_of_idle {s : State} (hw : WindowsOk s) (hs : StatusOk s)
    (h : s.mem.wf = true ∧ s.seq.phase = .idle ∧ s.raced = [] ∧ s.written = []) : Inv s := by
  obtain ⟨hm, hp, hr, ht⟩ := h
  have hb : s.busy = false := by simp [State.busy, hp]
  exact ⟨hm, hw, hs, ⟨by simp [hb], by simp [hp], by simp [hp], by simp [hp]⟩, fun _ => hr, fun _ => ht⟩

/-- A running CBC command between two block steps meets the invariant. -/
theorem wit_inv_blocks : Inv (inBlocks k15 .cbcEnc 3 2 [0x41, 0x42]) :=
  inv_of_blocks (c := .cbcEnc) (windowsOk_of (by decide +kernel)) (statusOk_of (by decide +kernel))
    (blocksOk_of (by decide +kernel)) (by decide +kernel)

/-- The bytes are the host's where its reads are only not ordered yet. -/
theorem wit_hostOwns : ({ k15 with stale := [lagAt 4294967294] } : State).hostOwns 4294967294 2 ∧ (4294967294 : Word).toNat = 4294967294 ∧
    4294967294 + 2 ≤ 2 ^ 32 ∧ k15.plat.dmaCoherent = true := by
  refine ⟨fun x _ _ => ⟨?_, rfl, ?_, ?_⟩, by decide⟩
  · simp [State.dstSpan, State.busy, k15, State.reset, inRange]
  · simp [k15, State.reset, writesOf]
  · simp [lagAt]

/-- A STATUS read after an end, with an earlier end not observed. -/
theorem wit_HostReadsFinalBytes_observe :
    let s := { k15 with
      status := { k15.status with done := true }
      unobserved := [{ first := 4294967294, len := 2, oldInt := 0, writes := [lagAt 4294967294] }] }
    Inv s ∧ s.busy = false ∧ (s.status.done = true ∨ s.status.err = true) ∧ ∀ l ∈ s.lags, l.dirty = false :=
  ⟨inv_of_idle (windowsOk_of (by decide +kernel)) (statusOk_of (by decide +kernel)) (by decide +kernel), by decide +kernel⟩

/-- A stream command whose destination is elsewhere is accepted. -/
theorem wit_HostReadsFinalBytes_accept :
    let s : State := { k15 with cfg := 1, blksz := 1, srcLen := 2, stale := [lagAt 4294967294] }
    s.hostOwns 4294967294 2 ∧ s.turn = .host ∧ s.busy = false ∧
    (after (exec .ecbEnc s)).dstSpan = 4 ∧ (after (exec .ecbEnc s)).dstAddr = 0x20000 := by
  refine ⟨fun x _ _ => ⟨?_, rfl, ?_, ?_⟩, by decide +kernel⟩
  · simp [State.dstSpan, State.busy, k15, State.reset, inRange]
  · simp [k15, State.reset, writesOf]
  · simp [lagAt]

/-- A running command with no dirty line is reset. -/
theorem wit_HostReadsFinalBytes_reset :
    let s := { inBlocks k15 .cbcEnc 3 2 [0x41, 0x42] with stale := [lagAt 4294967294] }
    (s.lags.map (·.addr)).length = 3 ∧ ∀ l ∈ s.lags ++ s.unseen, l.dirty = false := by decide +kernel

/-- Also the hypotheses of `EngineStaysInAddressSpace`, `EngineWritesOnlyDestination` (the schedule is empty) and
`EveryCommandEnds` (a command runs). -/
theorem wit_InvKept :
    let s := inBlocks k15 .cbcEnc 3 2 [0x41, 0x42]
    Inv s ∧ step s = .next (after (step s)) ∧ s.schedule = [] ∧ s.busy = true :=
  ⟨wit_inv_blocks, next_after (by decide +kernel), by decide +kernel, by decide +kernel⟩

theorem wit_EngineStaysInAddressSpace : Inv (inBlocks k15 .cbcEnc 3 2 [0x41, 0x42]) := wit_inv_blocks

theorem wit_EngineWritesOnlyDestination :
    let s := inBlocks k15 .cbcEnc 3 2 [0x41, 0x42]
    Inv s ∧ s.schedule = [] ∧ step s = .next (after (step s)) :=
  ⟨wit_inv_blocks, by decide +kernel, next_after (by decide +kernel)⟩

theorem wit_EveryCommandEnds :
    let s := inBlocks k15 .cbcEnc 3 2 [0x41, 0x42]
    Inv s ∧ s.schedule = [] ∧ s.busy = true := ⟨wit_inv_blocks, by decide +kernel, by decide +kernel⟩

theorem wit_OperandsFrozenWhileBusy :
    let s := inBlocks k15 .cbcEnc 3 2 [0x41, 0x42]
    s.busy = true ∧ step s = .next (after (step s)) ∧ (after (step s)).busy = true :=
  ⟨by decide +kernel, next_after (by decide +kernel), by decide +kernel⟩

/-- A move that resets K15's block with RESULT and CHAIN not 0: `rst`, or a host write of a word to CTRL. -/
def resetBy (m : Move) : State := { k15 with result := 5, chain := 5, schedule := [m] }

/-- The SRST word, with every ignored bit set. -/
def srstMove : Move := asmWr Config.Platform.default .ctrl 0xFFFFFFFE

theorem wit_resetNext : (resetBy .reset).resetNext ∧ (resetBy srstMove).resetNext :=
  ⟨⟨[], .inl rfl⟩, [], .inr ⟨0xFFFFFFFE, by decide, rfl⟩⟩

/-- MODEXP's compute step, and both resets. -/
theorem wit_OnlyModexpWritesResult :
    ∀ s ∈ [modexpAt .modexpE .compute 20687 65 7 0, resetBy .reset, resetBy srstMove],
      isNext (step s) = true ∧ (after (step s)).result ≠ s.result := by decide +kernel

/-- A CBC start step and block step, and both resets. -/
theorem wit_OnlyCbcWritesChain :
    ∀ s ∈ [started k15 .cbcEnc 1 2 [0x41, 0x42], inBlocks k15 .cbcEnc 3 2 [0x41, 0x42], resetBy .reset, resetBy srstMove],
      isNext (step s) = true ∧ (after (step s)).chain ≠ s.chain := by decide +kernel

theorem wit_NoChainAcrossCommands :
    StreamOp.cbcDec.cbc = true ∧ (started k15 .cbcDec 1 2 []).runs StreamOp.cbcDec.op false .start ∧
    exec StreamOp.cbcDec.instr (started k15 .cbcDec 1 2 []) = .next (inBlocks k15 .cbcDec 1 2 []) ∧
    (inBlocks k15 .cbcDec 1 2 []).seq.phase = .blocks :=
  ⟨rfl, by decide +kernel, next_after (by decide +kernel), by decide +kernel⟩

/-- S-ECB-1: two blocks. -/
theorem wit_EcbEncryptionRun :
    let s := inBlocks k15 .ecbEnc 1 1 [0x41, 0x42]
    Inv s ∧ s.schedule = [] ∧ s.seq.op = 4 ∧ s.seq.esel = false ∧ s.seq.phase = .blocks ∧ s.seq.blk = 0 ∧
    s.plat.busErr = [] ∧ s.unseen = [] ∧ s.raced = [] ∧ s.nblkTotal.toNat = 2 ∧
    ∀ i < s.nblkTotal.toNat,
      beNat (padBlock s.ebs.toNat (s.mem.getBytes (s.srcAddr.toNat + i * s.ebs.toNat)
        (min s.ebs.toNat (s.srcLen.toNat - i * s.ebs.toNat)))) < s.valN :=
  ⟨inv_of_blocks (c := .ecbEnc) (windowsOk_of (by decide +kernel)) (statusOk_of (by decide +kernel))
    (blocksOk_of (by decide +kernel)) (by decide +kernel), by decide +kernel⟩

/-- S-CBC-1's block with its IV. -/
theorem wit_BlockRoundTrip :
    ValidKey 20687 7 8743 ∧ 20687 ≤ 256 ^ 2 ∧ ([0x05, 0x05] : List Byte).length = ([0x41, 0x42] : List Byte).length ∧
    beNat (xorBytes [0x41, 0x42] [0x05, 0x05]) < 20687 := ⟨wit_validKey, by decide, by decide, by decide⟩

end Sys2Proof.Tests
end

section
/-! PROOF. The register map (spec/30_encoding.md R116), the unmapped offsets (spec/20_memory.md R81), the aperture
(spec/00_scope.md R12). -/

namespace Sys2Proof.Proofs

open Sys2Proof.Machine Sys2Proof.Laws

/-! ### What the two tables of the map hold -/

theorem controlReg_ne_none {i : Nat} (h : i < 21) : controlReg i ≠ none :=
  (by decide : ∀ j < 21, controlReg j ≠ none) i h

theorem controlReg_eq_none {i : Nat} (h : 21 ≤ i) : controlReg i = none := by
  obtain ⟨j, rfl⟩ := Nat.exists_eq_add_of_le' h
  rfl

theorem controlReg_eq_none_iff {i : Nat} : controlReg i = none ↔ 21 ≤ i :=
  ⟨fun h => not_lt.mp fun hi => controlReg_ne_none hi h, controlReg_eq_none⟩

theorem windowAt_ne_none {i : Nat} (h1 : 1 ≤ i) (h8 : i < 8) : windowAt i ≠ none :=
  (by decide : ∀ j < 8, 1 ≤ j → windowAt j ≠ none) i h8 h1

/-! ### Offsets and registers (R81, R116) -/

/-- The other direction of `regAt_offset`. -/
theorem offset_of_regAt {off : Nat} {r : Reg} (h : regAt off = some r) : r.offset = off := by
  unfold regAt at h
  split at h
  next hmis => cases h
  next haligned =>
    split at h
    next hctl =>
      have hr : r.offset = 4 * (off / 4) := controlReg_offset h
      omega
    next hwin =>
      obtain ⟨w, hw, rfl⟩ := Option.map_eq_some_iff.mp h
      have hbase : w.offset = 0x400 * (off / 0x400) := windowAt_offset hw
      simp only [Reg.offset]
      omega

theorem regAt_eq_none_iff {off : Nat} (hoff : off < 0x2000) :
    regAt off = none ↔ off % 4 ≠ 0 ∨ (0x54 ≤ off ∧ off < 0x400) := by
  unfold regAt
  split
  next hmis => simp [hmis]
  next haligned =>
    split
    next hctl =>
      rw [controlReg_eq_none_iff]
      omega
    next hwin =>
      have hw : windowAt (off / 0x400) ≠ none := windowAt_ne_none (by omega) (by omega)
      simp only [Option.map_eq_none_iff, hw, false_iff]
      omega

theorem regAt_window (w : Win) {k : Nat} (hk : k < 256) : regAt (w.offset + 4 * k) = some (.word w k) :=
  regAt_offset (r := .word w k) fun _ _ h => by cases h; exact hk

/-! ### The aperture (R12) -/

theorem portOffset_eq_some_iff {p : Config.Platform} {addr : Word} {off : Nat} :
    portOffset p addr = some off ↔ addr.toNat = 8192 * p.basePage.toNat + off ∧ off < 0x2000 := by
  have haddr := addr.isLt
  have hpage : addr.extractLsb' 13 19 = p.basePage ↔ addr.toNat / 2 ^ 13 % 2 ^ 19 = p.basePage.toNat := by
    rw [← BitVec.toNat_inj, BitVec.extractLsb'_toNat, Nat.shiftRight_eq_div_pow]
  have hlow : (addr.extractLsb' 0 13).toNat = addr.toNat % 2 ^ 13 := by
    rw [BitVec.extractLsb'_toNat, Nat.shiftRight_zero]
  unfold portOffset
  split
  next hin =>
    rw [hpage] at hin
    rw [Option.some.injEq, hlow]
    omega
  next hout =>
    rw [hpage] at hout
    simp only [reduceCtorEq, false_iff]
    omega

/-! ### The obligation -/

/-- Settles O42: `regAt` and `Reg.offset` are inverse to each other on the map, R116's rows are read off the tables, and the
aperture is arithmetic on the address. -/
theorem registerMap : Obligations.RegisterMap := by
  unfold Obligations.RegisterMap
  refine ⟨fun r hr => regAt_offset hr, fun off r _ h => offset_of_regAt h, fun off h => regAt_eq_none_iff h, by decide, ?_,
    fun p addr off => portOffset_eq_some_iff⟩
  intro x hx k hk
  have row : x.1 = x.2.1.offset ∧ x.2.1.access = x.2.2 := by
    revert x
    decide
  obtain ⟨hbase, haccess⟩ := row
  exact ⟨hbase ▸ regAt_window x.2.1 hk, haccess⟩

end Sys2Proof.Proofs
end

section
/-! PROOF. The register port (spec/10_state.md R33 to R52, spec/40_command_interface.md R140, R141, R153): the STATUS word, what
a read answers, what a write stores, which writes are ignored. -/

namespace Sys2Proof.Proofs

open Sys2Proof.Machine Sys2Proof.Laws

/-! ### The STATUS word and the words of PARAM and of a window -/

/-- Settles O43: each field is a slice of the concatenation `statusWord`. -/
theorem statusLayout : Obligations.StatusLayout := by
  intro s
  refine ⟨?busy, ?done, ?err, ?zero, ?lastOp, ?code, ?top, by decide⟩
  case busy | done | err | zero =>
    simp only [State.statusWord, BitVec.getLsbD_append, BitVec.getLsbD_ofBool]
    simp
  case lastOp | code | top =>
    apply BitVec.eq_of_getLsbD_eq
    intro i hi
    simp only [State.statusWord, BitVec.getLsbD_extractLsb', BitVec.getLsbD_append]
    grind

theorem maxW_div (p : Config.Platform) : p.maxW / 32 = p.maxWords := by
  unfold Config.Platform.maxW
  omega

theorem paramWord_toNat (p : Config.Platform) : (paramWord p).toNat = 0x00010000 + p.maxWords := by
  have hlt := p.maxWordsPred.isLt
  have hmw : p.maxWords < 2 ^ 9 := by
    unfold Config.Platform.maxWords
    omega
  have hrev : (Config.revision ++ (0 : BitVec 7)).toNat = 2 ^ 7 := by decide
  rw [paramWord, BitVec.toNat_append, hrev, BitVec.toNat_ofNat, Nat.mod_eq_of_lt hmw,
    Nat.shiftLeft_eq, Nat.mul_comm, ← Nat.two_pow_add_eq_or_of_lt hmw (2 ^ 7)]
  rfl

theorem getLsbD_getWord (w : Window) (k : Nat) {i : Nat} (hi : i < 32) : (getWord w k).getLsbD i = w.getLsbD (32 * k + i) := by
  simp [getWord, hi]

theorem readReg_word (s : State) (w : Win) (k : Nat) :
    s.readReg (.word w k) = if k < s.plat.maxWords then getWord (s.window w) k else 0 := rfl

/-- Settles O44: the port read is `portRead_eq`; the values are read off `readReg`. -/
theorem registerRead : Obligations.RegisterRead := by
  intro s
  refine ⟨fun r hr => ⟨_, _, portRead_eq s hr⟩, rfl, by rw [maxW_div]; exact paramWord_toNat s.plat, rfl, rfl, rfl,
    BitVec.toNat_setWidth_of_le (by decide), BitVec.toNat_setWidth_of_le (by decide),
    rfl, rfl, rfl, rfl, rfl, rfl, rfl, rfl, rfl, rfl, rfl, rfl,
    BitVec.toNat_setWidth_of_le (by decide), BitVec.toNat_setWidth_of_le (by decide), ?_⟩
  intro x hx k
  have hwin : s.window x.1 = x.2 := by
    simp only [List.mem_cons, List.not_mem_nil, or_false] at hx
    rcases hx with rfl | rfl | rfl | rfl | rfl | rfl | rfl <;> rfl
  rw [maxW_div, readReg_word, hwin]
  constructor
  · intro hk i hi
    rw [if_pos hk, getLsbD_getWord _ _ hi]
  · intro hk
    rw [if_neg (Nat.not_lt.mpr hk)]

/-! ### Register writes (R141) -/

/-- CMD and CTRL, the write-only registers, are the only ones whose write is no plain write. -/
theorem writeReg_plain (s : State) {r : Reg} (v : Word) (h : r.access ≠ .wo) : writeReg s r v = .next (s.writePlain r v) := by
  rcases writeReg_cases s r v with ⟨_, rfl, _⟩ | ⟨_, rfl, _⟩ | ⟨_, rfl, _⟩ | ⟨rfl, _⟩ | ⟨_, _, e⟩
  case inr.inr.inr.inr => exact e
  all_goals exact absurd rfl h

theorem writePlain_ro (s : State) {r : Reg} (v : Word) (h : r.access = .ro) : s.writePlain r v = s := by
  rcases writePlain_cases s r v with ⟨rfl, _⟩ | ⟨rfl, _⟩ | ⟨_, _, _, e⟩ | ⟨_, hrw, _⟩ | ⟨_, hrw, _⟩
  case inr.inr.inl => exact e
  all_goals simp_all [Reg.access]

theorem writePlain_rw (s : State) {r : Reg} (v : Word) (h : r.access = .rw) (hen : r ≠ .intEn) :
    s.writePlain r v = if s.busy then s.ignoredBusy else s.writeRw r v := by
  rcases writePlain_cases s r v with ⟨rfl, _⟩ | ⟨rfl, _⟩ | ⟨_, _, hrw, _⟩ | ⟨_, _, hb, e⟩ | ⟨_, _, hb, e⟩
  · cases h
  · exact absurd rfl hen
  · exact absurd h hrw
  · rw [e, hb, if_pos rfl]
  · rw [e, hb, if_neg Bool.false_ne_true]

/-- Settles O47: a read-only register has no arm in `writePlain` that stores, and the busy check comes before any that does. -/
theorem ignoredWrites : Obligations.IgnoredWrites := by
  intro s r v
  constructor
  · intro hro
    rw [writeReg_plain s v (by rw [hro]; decide), writePlain_ro s v hro]
  · intro hrw hen hb
    rw [writeReg_plain s v (by rw [hrw]; decide), writePlain_rw s v hrw hen, if_pos hb]
    rfl

/-! ### What a window write stores (R40, R47) -/

/-- A word below MAXWORDS of a window the host writes is stored; no other write of a window word changes a window. -/
theorem writeWord_window (s : State) (w w' : Win) (k : Nat) (v : Word) :
    (s.writeWord w k v).window w' =
      if w' = w ∧ w.access = .rw ∧ k < s.plat.maxWords then setWord (s.window w) k v else s.window w' := by
  unfold State.writeWord
  split
  next hk => cases w <;> cases w' <;> simp [State.window, Win.access, hk]
  next hk => simp [hk]

@[simp] theorem writeWord_seq (s : State) (w : Win) (k : Nat) (v : Word) : (s.writeWord w k v).seq = s.seq := by
  unfold State.writeWord; split <;> cases w <;> rfl
@[simp] theorem writeWord_mem (s : State) (w : Win) (k : Nat) (v : Word) : (s.writeWord w k v).mem = s.mem := by
  unfold State.writeWord; split <;> cases w <;> rfl
@[simp] theorem writeWord_plat (s : State) (w : Win) (k : Nat) (v : Word) : (s.writeWord w k v).plat = s.plat := by
  unfold State.writeWord; split <;> cases w <;> rfl

/-- A write of a window word leaves every register that is no window word. -/
theorem readReg_writeWord_register (s : State) (w : Win) (k : Nat) (v : Word) {r : Reg} (hr : ∀ w k, r ≠ .word w k) :
    (s.writeWord w k v).readReg r = s.readReg r := by
  cases r with
  | word w' k' => exact absurd rfl (hr w' k')
  | _ => unfold State.writeWord; split <;> cases w <;> rfl

/-- A write of a window word leaves every other window word. -/
theorem readReg_writeWord_word (s : State) {w w' : Win} {k k' : Nat} (v : Word) (hk : k < 256)
    (h : Reg.word w' k' ≠ .word w k) : (s.writeWord w k v).readReg (.word w' k') = s.readReg (.word w' k') := by
  rw [readReg_word, readReg_word, writeWord_plat, writeWord_window]
  split
  next hin =>
    split
    next hw =>
      obtain ⟨rfl, -, -⟩ := hw
      rw [getWord_setWord _ _ _ _ hk, if_neg fun hkk => h (by rw [hkk])]
    next => rfl
  next => rfl

/-- The bits of a word an RW register stores: the ones that are not reserved (R38, R39, R40, R47). -/
def storedBits (p : Config.Platform) (r : Reg) (v : Word) : Word :=
  match r with
  | .cfg => v &&& 0x3
  | .blksz => v &&& 0xFFFF
  | .word _ k => if k < p.maxWords then v else 0
  | _ => v

theorem setWidth_extractLsb'_eq_and (v : Word) {n : Nat} (h : n ≤ 32) :
    (v.extractLsb' 0 n).setWidth 32 = v &&& BitVec.ofNat 32 (2 ^ n - 1) := by
  have hpow : 2 ^ n ≤ 2 ^ 32 := Nat.pow_le_pow_right (by decide) h
  apply BitVec.eq_of_toNat_eq
  rw [BitVec.toNat_setWidth_of_le h, BitVec.extractLsb'_toNat, Nat.shiftRight_zero, BitVec.toNat_and, BitVec.toNat_ofNat,
    Nat.mod_eq_of_lt (a := 2 ^ n - 1) (by omega), Nat.and_two_pow_sub_one_eq_mod]

theorem readReg_writeRw_self (s : State) {r : Reg} (v : Word) (hrw : r.access = .rw) (hen : r ≠ .intEn) (hr : OnMap r) :
    (s.writeRw r v).readReg r = storedBits s.plat r v := by
  cases r with
  | cfg => exact setWidth_extractLsb'_eq_and v (by decide)
  | blksz => exact setWidth_extractLsb'_eq_and v (by decide)
  | srcAddr | srcLen | dstAddr | dstCap => rfl
  | intEn => exact absurd rfl hen
  | word w k =>
    have hself := writeWord_window s w w k v
    simp only [State.writeRw, readReg_word, writeWord_plat, storedBits]
    split
    next hk => rw [hself, if_pos ⟨rfl, hrw, hk⟩, getWord_setWord _ _ _ _ (hr w k rfl), if_pos rfl]
    next => rfl
  | _ => cases hrw

theorem readReg_writeRw_ne (s : State) {r r' : Reg} (v : Word) (hr : OnMap r) (h : r' ≠ r) :
    (s.writeRw r v).readReg r' = s.readReg r' := by
  cases r with
  | cfg | blksz | srcAddr | srcLen | dstAddr | dstCap => cases r' <;> first | rfl | exact absurd rfl h
  | word w k =>
    cases r' with
    | word w' k' => exact readReg_writeWord_word s v (hr w k rfl) h
    | _ => exact readReg_writeWord_register s w k v (by simp)
  | _ => rfl

@[simp] theorem writeRw_seq (s : State) (r : Reg) (v : Word) : (s.writeRw r v).seq = s.seq := by
  cases r <;> first | rfl | exact writeWord_seq s _ _ v
@[simp] theorem writeRw_mem (s : State) (r : Reg) (v : Word) : (s.writeRw r v).mem = s.mem := by
  cases r <;> first | rfl | exact writeWord_mem s _ _ v
@[simp] theorem writeRw_plat (s : State) (r : Reg) (v : Word) : (s.writeRw r v).plat = s.plat := by
  cases r <;> first | rfl | exact writeWord_plat s _ _ v

/-- Settles O46: while idle the write is `writeRw`, which stores the register's own bits and nothing else. -/
theorem registerWriteReadsBack : Obligations.RegisterWriteReadsBack := by
  intro s r v hrw hen hidle hr
  have hwrite : writeReg s r v = .next (s.writeRw r v) := by
    rw [writeReg_plain s v (by rw [hrw]; decide), writePlain_rw s v hrw hen, hidle, if_neg Bool.false_ne_true]
  have hself : (s.writeRw r v).readReg r = storedBits s.plat r v := readReg_writeRw_self s v hrw hen hr
  refine ⟨s.writeRw r v, hwrite, hself.trans ?_, fun r' hne _ => readReg_writeRw_ne s v hr hne, writeRw_seq s r v,
    writeRw_mem s r v, writeRw_plat s r v⟩
  cases r <;> rfl

end Sys2Proof.Proofs
end

section
/-! PROOF. What a step can be, for the statements about every step: which moves leave the block alone, what a host write to the
port starts, what the engine's step of a running command leaves. -/

namespace Sys2Proof.Proofs

open Sys2Proof.Machine Sys2Proof.Laws

/-! ### Moves that leave the block alone -/

/-- The block's state without its interrupt bits: memory, the schedule and the model's own fields are set to fixed values. -/
def blockOf (s : State) : State :=
  { s with
    intEn := 0, intStat := 0, mem := [], schedule := [], turn := .host, resp := .none, posted := [], unseen := []
    written := [], stale := [], raced := [], unobserved := [], oldInt := 0, draws := 0 }

/-- The block is in `t` as in `s`, memory stays canonical, and an idle block has nothing raced and nothing written. -/
structure KeepsBlock (s t : State) : Prop where
  block   : blockOf t = blockOf s
  mem     : s.mem.wf = true → t.mem.wf = true
  raced   : s.busy = false → s.raced = [] → t.raced = []
  written : s.busy = false → s.written = [] → t.written = []

namespace KeepsBlock

variable {s t u : State}

theorem refl (s : State) : KeepsBlock s s := ⟨rfl, id, fun _ => id, fun _ => id⟩

theorem window (h : KeepsBlock s t) : t.window = s.window :=
  (congrArg State.window h.block :)
theorem seq (h : KeepsBlock s t) : t.seq = s.seq :=
  (congrArg State.seq h.block :)
theorem plat (h : KeepsBlock s t) : t.plat = s.plat :=
  (congrArg State.plat h.block :)
theorem busy (h : KeepsBlock s t) : t.busy = s.busy :=
  (congrArg State.busy h.block :)

theorem trans (h : KeepsBlock s t) (h' : KeepsBlock t u) : KeepsBlock s u :=
  ⟨h'.block.trans h.block, fun hm => h'.mem (h.mem hm),
    fun hb hr => h'.raced (h.busy.trans hb) (h.raced hb hr), fun hb hw => h'.written (h.busy.trans hb) (h.written hb hw)⟩

/-- An update of no field but the interrupt bits, the schedule and the host's view. -/
theorem of_view (hblock : blockOf t = blockOf s) (hmem : t.mem = s.mem) (hraced : t.raced = s.raced)
    (hwritten : t.written = s.written) : KeepsBlock s t :=
  ⟨hblock, fun h => hmem ▸ h, fun _ h => hraced ▸ h, fun _ h => hwritten ▸ h⟩

end KeepsBlock

theorem keepsBlock_taking (s : State) (who : Agent) (rest : List Move) : KeepsBlock s (s.taking who rest) :=
  .of_view rfl rfl rfl rfl

theorem keepsBlock_answer (s : State) (a : Response) : KeepsBlock s (s.answer a) := .of_view rfl rfl rfl rfl

theorem keepsBlock_ignoredBusy (s : State) : KeepsBlock s s.ignoredBusy := .of_view rfl rfl rfl rfl

theorem keepsBlock_portRead {s t : State} {addr : Word} {bytes : Nat} (h : portRead s addr bytes = .next t) :
    KeepsBlock s t := by
  obtain ⟨a, ends, lags, e⟩ := portRead_cases s addr bytes
  rw [e] at h
  cases h
  exact .of_view rfl rfl rfl rfl

/-- Cache maintenance marks writes; it adds none. -/
theorem keepsBlock_dropLines (s : State) (a n : Nat) : KeepsBlock s (s.dropLines a n) :=
  ⟨rfl, id, fun _ h => h, fun _ h => by rw [State.dropLines, h]; rfl⟩

theorem keepsBlock_hostRead {s t : State} {a n : Nat} {duty : Bool} (h : hostRead s a n duty = .next t) : KeepsBlock s t := by
  unfold hostRead at h
  split at h
  · cases h
  · cases h
    cases duty <;> exact .of_view rfl rfl rfl rfl

/-- A host write of memory stays in the address space, and an idle block records no race. -/
theorem keepsBlock_hostWrite {s t : State} {a : Nat} {bs : List Byte} {duty : Bool} (h : hostWrite s a bs duty = .next t) :
    KeepsBlock s t := by
  unfold hostWrite at h
  split at h
  next => cases h
  next hfits =>
    cases h
    refine ⟨rfl, fun hm => wf_setBytes hm (by rw [landed_length]; omega), fun hb hr => ?_, fun _ hw => ?_⟩
    · simp [hb, hr]
    · simp [hw, lagsOutside]

theorem keepsBlock_hostWait {s t : State} (h : hostWait s = .next t) : KeepsBlock s t := by
  unfold hostWait at h
  refine KeepsBlock.trans ?_ (keepsBlock_portRead h)
  split <;> exact .of_view rfl rfl rfl rfl

/-- A host step leaves the block alone unless it is a full-strobe write of a mapped register. -/
theorem hostStep_next {h : HostStep} {s t : State} (e : hostStep h s = .next t) :
    KeepsBlock s t ∨
    ∃ addr lanes off r v, h = .portWrite addr lanes ∧ portOffset s.plat addr = some off ∧ regAt off = some r ∧
      fullWord lanes = some v ∧ writeReg (s.answer .ok) r v = .next t := by
  cases h with
  | portRead addr bytes => exact .inl (keepsBlock_portRead e)
  | portWrite addr lanes =>
    rcases portWrite_cases s addr lanes with ⟨a, ha⟩ | ⟨off, r, v, ho, hr, hv, hw⟩
    · rw [hostStep, ha] at e
      cases e
      exact .inl (keepsBlock_answer s a)
    · exact .inr ⟨addr, lanes, off, r, v, rfl, ho, hr, hv, hw ▸ e⟩
  | memRead addr len duty => exact .inl (keepsBlock_hostRead e)
  | memWrite addr data duty => exact .inl (keepsBlock_hostWrite e)
  | barrier =>
    cases e
    exact .inl (.of_view rfl rfl rfl rfl)
  | clean addr len =>
    cases e
    exact .inl ((keepsBlock_dropLines s addr.toNat len).trans (.of_view rfl rfl rfl rfl))
  | invalidate addr len =>
    cases e
    exact .inl ((keepsBlock_dropLines s addr.toNat len).trans (.of_view rfl rfl rfl rfl))
  | sampleIrq =>
    cases e
    exact .inl (.of_view rfl rfl rfl rfl)
  | wait => exact .inl (keepsBlock_hostWait e)

/-! ### Updates that keep windows and memory in bounds -/

/-- Memory stays canonical and the windows stay in bounds; RESULT keeps its value, and so does CHAIN unless `cbc`. -/
structure Preserves (cbc : Bool) (s t : State) : Prop where
  mem     : s.mem.wf = true → t.mem.wf = true
  windows : WindowsOk s → WindowsOk t
  result  : t.result = s.result
  chain   : cbc = false → t.chain = s.chain

theorem windowsOk_iff (s : State) : WindowsOk s ↔ ∀ w, (s.window w).toNat < 2 ^ s.plat.maxW := by
  constructor
  · intro h w
    cases w
    exacts [h.n, h.e, h.d, h.base, h.result, h.iv, h.chain]
  · exact fun h => ⟨h .n, h .e, h .d, h .base, h .result, h .iv, h .chain⟩

theorem windowsOk_congr {s t : State} (h : WindowsOk s) (hwin : t.window = s.window) (hplat : t.plat = s.plat) : WindowsOk t := by
  rw [windowsOk_iff] at h ⊢
  rwa [hwin, hplat]

namespace Preserves

variable {b : Bool} {s t u : State}

theorem trans (h : Preserves b s t) (h' : Preserves b t u) : Preserves b s u :=
  ⟨fun hm => h'.mem (h.mem hm), fun hw => h'.windows (h.windows hw), h'.result.trans h.result,
    fun hb => (h'.chain hb).trans (h.chain hb)⟩

/-- An update of no window. -/
theorem of_window (hmem : s.mem.wf = true → t.mem.wf = true) (hwin : t.window = s.window) (hplat : t.plat = s.plat) :
    Preserves b s t :=
  ⟨hmem, fun h => windowsOk_congr h hwin hplat, congrFun hwin .result, fun _ => congrFun hwin .chain⟩

theorem refl (b : Bool) (s : State) : Preserves b s s := .of_window id rfl rfl

/-- A new CHAIN value in bounds, from a command that may write CHAIN. -/
theorem of_chain {v : Window} (h : WindowsOk s → v.toNat < 2 ^ s.plat.maxW) : Preserves true s { s with chain := v } :=
  ⟨id, fun hw => ⟨hw.n, hw.e, hw.d, hw.base, hw.result, hw.iv, h hw⟩, rfl, fun hb => by cases hb⟩

end Preserves

theorem preserves_drawRange (b : Bool) (s : State) (a n : Nat) : Preserves b s (s.drawRange a n) :=
  .of_window (fun h => drawRange_wf h a n) rfl rfl

theorem preserves_drawPending (b : Bool) (s : State) : Preserves b s s.drawPending := preserves_drawRange b s _ _

theorem preserves_drawAhead (b : Bool) (s : State) (c : StreamOp) : Preserves b s (s.drawAhead c) := by
  unfold State.drawAhead
  split
  · exact preserves_drawPending b s
  · exact .refl b s

theorem preserves_dmaPut (b : Bool) (s : State) {a : Nat} {bs : List Byte} (h : a + bs.length ≤ Config.addressSpace) :
    Preserves b s (s.dmaPut a bs) := .of_window (fun hm => wf_setBytes hm h) rfl rfl

theorem preserves_raise (b : Bool) (s : State) (code : ErrCode) (info : Word) : Preserves b s (s.raise code info) :=
  .of_window (fun h => settleRaces_wf h) rfl rfl

theorem preserves_complete (b : Bool) (s : State) : Preserves b s s.complete :=
  .of_window (fun h => settleRaces_wf h) rfl rfl

theorem preserves_clearChain (s : State) : Preserves true s s.clearChain :=
  .of_chain fun _ => by simp only [BitVec.ofNat_eq_ofNat, BitVec.toNat_zero, Nat.two_pow_pos]

/-- CHAIN takes a byte string of at most MAXBS bytes (R47, R203). -/
theorem preserves_setChain (s : State) {bs : List Byte} (h : bs.length ≤ s.plat.maxBs) : Preserves true s (s.setChain bs) := by
  refine .of_chain fun hok => setBytes_toNat_lt s.chain bs _ hok.chain ?_
  simp only [Config.Platform.maxBs, Config.Platform.maxW] at h ⊢
  omega

/-! ### What a register write can be (R141) -/

/-- The step ended the command in error, after updates that preserve what `Preserves` says. -/
def Raises (cbc : Bool) (s t : State) : Prop :=
  ∃ u code info, Preserves cbc s u ∧ code ≠ ErrCode.none ∧ t = u.raise code info

theorem Raises.preserves {b : Bool} {s t : State} (h : Raises b s t) : Preserves b s t := by
  obtain ⟨u, code, info, hu, -, rfl⟩ := h
  exact hu.trans (preserves_raise b u code info)

theorem Raises.of_preserves {b : Bool} {s u t : State} (hu : Preserves b s u) (h : Raises b u t) : Raises b s t := by
  obtain ⟨v, code, info, hv, hc, e⟩ := h
  exact ⟨v, code, info, hu.trans hv, hc, e⟩

/-- Everything an instruction written to CMD or CTRL can do. -/
theorem writeInstr_next {i : Instr} {s t : State} (ht : s.turn = .host) (h : exec i s = .next t) :
    KeepsBlock s t ∨ Raises false s t ∨
    (i.format = .cmd32 ∧ s.busy = false ∧ t = s.accept (opField (encode i)) (eselField (encode i))) ∨
    (∃ abort reserved, i = .ctrlSrst abort reserved ∧ t = s.resetAction) := by
  by_cases hf : i.format = .cmd32
  · rw [exec_host hf ht] at h
    cases h
    cases hb : s.busy with
    | true =>
      rw [cmdWrite_busy hb]
      exact .inl (keepsBlock_ignoredBusy s)
    | false => exact .inr (.inr (.inl ⟨hf, rfl, cmdWrite_idle hb _ _⟩))
  · cases i with
    | ctrlAbort reserved =>
      simp only [exec, execCtrlAbort] at h
      split at h
      · cases h
        refine .inr (.inl ⟨_, _, _, ?_, by decide, rfl⟩)
        split
        · exact preserves_drawPending false s
        · exact .refl false s
      · cases h
        exact .inl (.refl s)
    | ctrlSrst abort reserved =>
      cases h
      exact .inr (.inr (.inr ⟨abort, reserved, rfl, rfl⟩))
    | _ => exact absurd rfl hf

theorem decodeCtrl_srst {v : Word} {abort : Bool} {reserved : Nat} (h : decodeCtrl v = .instr (.ctrlSrst abort reserved)) :
    v.getLsbD 1 = true := by
  unfold decodeCtrl at h
  split at h
  · assumption
  · split at h <;> cases h

theorem decodeCtrl_format {v : Word} {i : Instr} (h : decodeCtrl v = .instr i) : i.format = .ctrl32 := by
  unfold decodeCtrl at h
  split at h
  · cases h; rfl
  · split at h <;> cases h; rfl

/-- Everything a register write can do. -/
theorem writeReg_next {s t : State} {r : Reg} {v : Word} (ht : s.turn = .host) (h : writeReg s r v = .next t) :
    KeepsBlock s t ∨ Raises false s t ∨
    (s.busy = false ∧ ∃ op esel i, decodeOp op esel = .instr i ∧ t = s.accept op esel) ∨
    (s.busy = false ∧ t = s.writeRw r v) ∨
    (r = .ctrl ∧ v.getLsbD 1 = true ∧ t = s.resetAction) := by
  rcases writeReg_cases s r v with ⟨i, -, hd, e⟩ | ⟨x, -, -, e⟩ | ⟨i, rfl, hd, e⟩ | ⟨-, e⟩ | ⟨-, -, e⟩ <;> rw [e] at h
  case inl =>
    obtain ⟨hf, hop, hesel, hres⟩ := decodeCmd_spec hd
    rcases writeInstr_next ht h with hk | hr | ⟨-, hb, rfl⟩ | ⟨_, _, rfl, -⟩
    · exact .inl hk
    · exact .inr (.inl hr)
    · refine .inr (.inr (.inl ⟨hb, _, _, i, ?_, rfl⟩))
      rw [hop, hesel]
      simpa [decodeCmd, hres] using hd
    · cases hf
  case inr.inl =>
    cases h
    split
    · exact .inl (keepsBlock_ignoredBusy s)
    · refine .inr (.inl ⟨{ s with status := { s.status with lastOp := opField v } }, _, _, ?_, by decide, rfl⟩)
      exact .of_window id rfl rfl
  case inr.inr.inl =>
    rcases writeInstr_next ht h with hk | hr | ⟨hf, -⟩ | ⟨_, _, rfl, rfl⟩
    · exact .inl hk
    · exact .inr (.inl hr)
    · rw [decodeCtrl_format hd] at hf
      cases hf
    · exact .inr (.inr (.inr (.inr ⟨rfl, decodeCtrl_srst hd, rfl⟩)))
  case inr.inr.inr.inl =>
    cases h
    exact .inl (.refl s)
  case inr.inr.inr.inr =>
    cases h
    rcases writePlain_cases s r v with ⟨-, e⟩ | ⟨-, e⟩ | ⟨-, -, -, e⟩ | ⟨-, -, -, e⟩ | ⟨-, -, hb, e⟩ <;> rw [e]
    · exact .inl (.of_view rfl rfl rfl rfl)
    · exact .inl (.of_view rfl rfl rfl rfl)
    · exact .inl (.refl s)
    · exact .inl (keepsBlock_ignoredBusy s)
    · exact .inr (.inr (.inr (.inl ⟨hb, rfl⟩)))

/-! ### What the start step of a stream command can be (R190) -/

/-- Every check of the start step passed with plan `p`, and the IV header's access stays in the address space. -/
structure Started (c : StreamOp) (s : State) (p : Plan) : Prop where
  modulus : 1 < s.valN
  size    : badBs (startSizes s).ebs.toNat (startSizes s).cwidth.toNat = false
  plan    : plan c s.ivhdr s.srcLen.toNat (startSizes s).ebs.toNat (startSizes s).cwidth.toNat = some p
  range   : badRange s.srcAddr.toNat s.srcLen.toNat s.dstAddr.toNat p.out s.dstCap.toNat = false
  header  : HeaderFits c ((startSizes s).setPlan p)

/-- The state a start step leaves that goes on to BLOCKS with plan `p`. -/
def startedState (c : StreamOp) (s : State) (p : Plan) : State := entered c (afterHeader c ((startSizes s).setPlan p))

/-- Chain initialisation raises an error or goes on to BLOCKS (R204). -/
theorem chainInit_next {c : StreamOp} {s t : State} (hbs : s.ebs.toNat ≤ s.plat.maxBs) (h : chainInit c s = .next t) :
    Raises c.cbc s t ∨ (HeaderFits c s ∧ t = entered c (afterHeader c s)) := by
  have enters (hp : t.seq.phase = .blocks) : HeaderFits c s ∧ t = entered c (afterHeader c s) := by
    obtain ⟨hfits, -, e⟩ := chainInit_blocks h hp
    exact ⟨hfits, e⟩
  rcases chainInit_cases c s with ⟨-, e⟩ | ⟨-, -, e⟩ | ⟨rfl, -, s1, rfl, e⟩ | ⟨rfl, -, e⟩
  · rw [e, enterBlocks_eq] at h
    cases h
    exact .inr (enters (by simp))
  · rw [e, enterBlocks_eq] at h
    cases h
    exact .inr (enters (by simp))
  · have hchain : Preserves true s (s.clearChain.setChain s.ivBytes) :=
      (preserves_clearChain s).trans (preserves_setChain _ (by simpa using hbs))
    rcases dmaWrite_cases (s.clearChain.setChain s.ivBytes) s.dstAddr.toNat s.ivBytes with
      ⟨-, ew⟩ | ⟨-, -, ew⟩ | ⟨-, -, ew⟩ <;> rw [e, ew] at h
    · cases h
    · cases h
      exact .inl ⟨_, _, _, hchain.trans (preserves_drawRange _ _ _ _), by decide, rfl⟩
    · simp only [enterBlocks_eq] at h
      cases h
      exact .inr (enters (by simp))
  · rcases dmaRead_cases s.clearChain s.srcAddr.toNat s.ebs.toNat with ⟨-, er⟩ | ⟨-, -, er⟩ | ⟨-, -, er⟩ <;> rw [e, er] at h
    · cases h
    · cases h
      exact .inl ⟨_, _, _, preserves_clearChain s, by decide, rfl⟩
    · simp only [enterBlocks_eq] at h
      cases h
      exact .inr (enters (by simp))

theorem preserves_startWidths (b : Bool) (s : State) : Preserves b s (startWidths s) :=
  Preserves.trans (t := s.updateWidths) (.of_window id rfl rfl) (.of_window id rfl rfl)
theorem preserves_startSizes (b : Bool) (s : State) : Preserves b s (startSizes s) :=
  (preserves_startWidths b s).trans (.of_window id rfl rfl)
theorem preserves_setPlan (b : Bool) (s : State) (p : Plan) : Preserves b s (s.setPlan p) := .of_window id rfl rfl
theorem preserves_planned (b : Bool) (s : State) (p : Plan) : Preserves b s ((startSizes s).setPlan p) :=
  (preserves_startSizes b s).trans (preserves_setPlan b _ p)

/-- A start step raises an error or goes on to BLOCKS with its plan (R190). -/
theorem streamStart_next {c : StreamOp} {s t : State} (h : streamStart c s = .next t) :
    Raises c.cbc s t ∨ ∃ p, Started c s p ∧ t = startedState c s p := by
  rcases streamStart_cases c s with ⟨-, e⟩ | ⟨-, -, e⟩ | ⟨-, -, -, e⟩ | ⟨p, h1, h2, h3, ⟨-, e⟩ | ⟨h4, e⟩⟩ <;> rw [e] at h
  · cases h
    exact .inl ⟨_, _, _, preserves_startWidths _ s, by decide, rfl⟩
  · cases h
    exact .inl ⟨_, _, _, preserves_startSizes _ s, by decide, rfl⟩
  · cases h
    exact .inl ⟨_, _, _, preserves_startSizes _ s, by decide, rfl⟩
  · cases h
    exact .inl ⟨_, _, _, preserves_planned _ s p, by decide, rfl⟩
  · rcases chainInit_next (s := (startSizes s).setPlan p) (startSizes_ebs_le h2) h with hr | ⟨h5, e⟩
    · exact .inl (.of_preserves (preserves_planned _ s p) hr)
    · exact .inr ⟨p, ⟨h1, h2, h3, h4, h5⟩, e⟩

/-- Chain initialisation keeps windows and memory in bounds, and an ECB command has none (R204). -/
theorem preserves_afterHeader {c : StreamOp} {s : State} (hbs : s.ebs.toNat ≤ s.plat.maxBs) (hf : HeaderFits c s) :
    Preserves c.cbc s (afterHeader c s) := by
  have hiv : Preserves true s (s.clearChain.setChain s.ivBytes) :=
    (preserves_clearChain s).trans (preserves_setChain _ (by simpa using hbs))
  cases c with
  | ecbEnc | ecbDec => exact .refl _ s
  | cbcEnc =>
    cases hi : s.ivhdr <;> simp only [afterHeader, hi]
    · exact hiv
    · exact (hiv.trans (preserves_dmaPut _ _ (by simpa using hf.1 rfl hi))).trans (.of_window id rfl rfl)
  | cbcDec =>
    cases hi : s.ivhdr <;> simp only [afterHeader, hi]
    · exact hiv
    · have hread : Preserves true s { s.clearChain with draws := s.draws + s.ebs.toNat } :=
        (preserves_clearChain s).trans (.of_window id rfl rfl)
      exact hread.trans (preserves_setChain _ (by simpa using hbs))

theorem preserves_entered (b : Bool) (c : StreamOp) (s : State) : Preserves b s (entered c s) :=
  Preserves.trans (t := { s with seq := { s.seq with phase := .blocks, blk := 0 } }) (.of_window id rfl rfl)
    (preserves_drawAhead b _ c)

theorem preserves_startedState {c : StreamOp} {s : State} {p : Plan} (h : Started c s p) :
    Preserves c.cbc s (startedState c s p) :=
  ((preserves_planned _ s p).trans (preserves_afterHeader (startSizes_ebs_le h.size) h.header)).trans
    (preserves_entered _ c _)

/-! ### What a block step can be (R205 to R208) -/

/-- The state a block step leaves that writes `out` and consumes or produces the cipher block `cb`. -/
def blockEnd (c : StreamOp) (s : State) (out cb : List Byte) : State :=
  ((((afterRead s c).dmaPut (s.dstBlock c) out).chainUpdate c cb).blockDone (if c.dec then s.ebs else s.cwidth)).drawAhead c

theorem raiseBlock_next {b : Bool} {c : StreamOp} {s t : State} {code : ErrCode} (hc : code ≠ .none)
    (h : raiseBlock c s code = .next t) : Raises b s t := by
  cases h
  exact ⟨_, _, _, preserves_drawAhead b s c, hc, rfl⟩

theorem preserves_afterRead (b : Bool) (s : State) (c : StreamOp) : Preserves b s (afterRead s c) := .of_window id rfl rfl

theorem finishBlock_next {b : Bool} {c : StreamOp} {s t : State} {out cb : List Byte} {width : Word}
    (h : finishBlock c s out cb width = .next t) :
    Raises b s t ∨ (s.dstBlock c + out.length ≤ Config.addressSpace ∧
      t = (((s.dmaPut (s.dstBlock c) out).chainUpdate c cb).blockDone width).drawAhead c) := by
  rcases finishBlock_cases c s out cb width with ⟨-, e⟩ | ⟨-, -, e⟩ | ⟨hfits, -, e⟩ <;> rw [e] at h
  · cases h
  · exact .inl (.of_preserves (preserves_drawRange b s _ _) (raiseBlock_next (by decide) h))
  · cases h
    exact .inr ⟨hfits, rfl⟩

/-- A block step raises an error or completes its block. -/
theorem blockStep_next {c : StreamOp} {s t : State} (h : blockStep c s = .next t) :
    Raises c.cbc s t ∨ ∃ out cb, s.dstBlock c + out.length ≤ Config.addressSpace ∧ t = blockEnd c s out cb := by
  have hread := preserves_afterRead c.cbc s c
  unfold blockStep at h
  cases hc : c.dec with
  | true =>
    rw [hc, if_pos rfl] at h
    rcases decBlock_cases c s with ⟨-, e⟩ | ⟨-, -, e⟩ | ⟨-, -, e⟩ | ⟨-, -, -, e⟩ | ⟨-, -, -, e⟩ <;> rw [e] at h
    · cases h
    · exact .inl (raiseBlock_next (by decide) h)
    · exact .inl (.of_preserves hread (raiseBlock_next (by decide) h))
    · exact .inl (.of_preserves hread (raiseBlock_next (by decide) h))
    · rcases finishBlock_next h with hr | ⟨hfits, rfl⟩
      · exact .inl (.of_preserves hread hr)
      · exact .inr ⟨_, _, hfits, by rw [blockEnd, hc, if_pos rfl]; rfl⟩
  | false =>
    rw [hc, if_neg Bool.false_ne_true] at h
    rcases encBlock_cases c s with ⟨-, e⟩ | ⟨-, -, e⟩ | ⟨-, -, e⟩ | ⟨-, -, cb, -, e⟩ <;> rw [e] at h
    · cases h
    · exact .inl (raiseBlock_next (by decide) h)
    · exact .inl (.of_preserves hread (raiseBlock_next (by decide) h))
    · rcases finishBlock_next h with hr | ⟨hfits, rfl⟩
      · exact .inl (.of_preserves hread hr)
      · exact .inr ⟨_, _, hfits, by rw [blockEnd, hc, if_neg Bool.false_ne_true]; rfl⟩

/-! ### What the engine's step of a running command can be (R146) -/

/-- One of the two MODEXP instructions, by ESEL (R113). -/
def IsModexp (i : Instr) (esel : Bool) : Prop := (i = .modexpE ∧ esel = false) ∨ (i = .modexpD ∧ esel = true)

/-- The instruction of the sequencer's `op` and `esel`, by kind. -/
theorem decodeOp_kind {op : BitVec 4} {esel : Bool} {i : Instr} (h : decodeOp op esel = .instr i) :
    (i = .nop ∧ op = 0 ∧ esel = false) ∨ (IsModexp i esel ∧ op = 1) ∨
    ∃ c : StreamOp, i = c.instr ∧ op = c.op ∧ esel = false := by
  obtain ⟨hf, rfl, rfl, -⟩ := decodeOp_spec h
  cases i with
  | nop => exact .inl ⟨rfl, rfl, rfl⟩
  | modexpE => exact .inr (.inl ⟨.inl ⟨rfl, rfl⟩, rfl⟩)
  | modexpD => exact .inr (.inl ⟨.inr ⟨rfl, rfl⟩, rfl⟩)
  | ecbEnc => exact .inr (.inr ⟨.ecbEnc, rfl, rfl, rfl⟩)
  | ecbDec => exact .inr (.inr ⟨.ecbDec, rfl, rfl, rfl⟩)
  | cbcEnc => exact .inr (.inr ⟨.cbcEnc, rfl, rfl, rfl⟩)
  | cbcDec => exact .inr (.inr ⟨.cbcDec, rfl, rfl, rfl⟩)
  | ctrlAbort | ctrlSrst => cases hf

/-- A start step or a block step of a stream command, and what it leaves. -/
def StreamWorks (c : StreamOp) (s t : State) : Prop :=
  ((s.seq.phase = .start ∨ (s.seq.phase = .blocks ∧ s.seq.blk < s.nblkTotal)) ∧ Raises c.cbc s t) ∨
  (s.seq.phase = .start ∧ ∃ p, Started c s p ∧ t = startedState c s p) ∨
  (s.seq.phase = .blocks ∧ s.seq.blk < s.nblkTotal ∧
    ∃ out cb, s.dstBlock c + out.length ≤ Config.addressSpace ∧ t = blockEnd c s out cb)

theorem streamEngine_next {c : StreamOp} {s t : State} (h : streamEngine c (blockStep c) s = .next t) :
    t = s ∨ t = s.complete ∨ StreamWorks c s t := by
  rcases streamEngine_cases c s with ⟨hp, e⟩ | ⟨hp, hlt, e⟩ | ⟨-, -, e⟩ | ⟨-, -, e⟩ | ⟨-, e⟩ <;> rw [e] at h
  · rcases streamStart_next h with hr | hs
    · exact .inr (.inr (.inl ⟨.inl hp, hr⟩))
    · exact .inr (.inr (.inr (.inl ⟨hp, hs⟩)))
  · rcases blockStep_next h with hr | hd
    · exact .inr (.inr (.inl ⟨.inr ⟨hp, hlt⟩, hr⟩))
    · exact .inr (.inr (.inr (.inr ⟨hp, hlt, hd⟩)))
  · cases h
    exact .inr (.inl rfl)
  · cases h
    exact .inl rfl
  · cases h
    exact .inl rfl

/-- MODEXP's engine steps by phase, with exponent `x` (R172). -/
def modexpEngine (x : Nat) (s : State) : StepResult :=
  match s.seq.phase with
  | .start => .next (modexpStart s)
  | .compute => .next (modexpCompute x s)
  | .idle => .next s
  | .blocks => .next s

theorem exec_modexp_engine {i : Instr} {s : State} (hi : IsModexp i s.seq.esel) (ht : s.turn = .engine) (hop : s.seq.op = 1) :
    ∃ x, exec i s = modexpEngine x s := by
  rcases hi with ⟨rfl, he⟩ | ⟨rfl, he⟩
  · exact ⟨s.valE, by rw [exec, execModexpE, command_engine ht, if_pos ⟨hop, he⟩]; rfl⟩
  · exact ⟨s.valD, by rw [exec, execModexpD, command_engine ht, if_pos ⟨hop, he⟩]; rfl⟩

theorem modexpEngine_next {x : Nat} {s t : State} (h : modexpEngine x s = .next t) :
    t = s ∨ (s.seq.phase = .start ∧ t = modexpStart s) ∨ (s.seq.phase = .compute ∧ t = modexpCompute x s) := by
  unfold modexpEngine at h
  split at h <;> cases h
  next hp => exact .inr (.inl ⟨hp, rfl⟩)
  next hp => exact .inr (.inr ⟨hp, rfl⟩)
  all_goals exact .inl rfl

/-- Everything the engine's step can be. -/
theorem engineStep_next {s t : State} (ht : s.turn = .engine) (h : engineStep s = .next t) :
    t = s ∨ (s.busy = true ∧ t = s.complete) ∨
    (s.seq.op = 1 ∧ s.seq.phase = .start ∧ t = modexpStart s) ∨
    (s.seq.op = 1 ∧ s.seq.phase = .compute ∧ ∃ x, t = modexpCompute x s) ∨
    ∃ c : StreamOp, s.seq.op = c.op ∧ s.busy = true ∧ StreamWorks c s t := by
  rcases engineStep_cases s with ⟨i, hb, hd, e⟩ | ⟨-, e⟩ <;> rw [e] at h
  swap
  · cases h
    exact .inl rfl
  rcases decodeOp_kind hd with ⟨rfl, hop, he⟩ | ⟨hi, hop⟩ | ⟨c, rfl, hop, he⟩
  · rw [exec, execNop, command_engine ht, if_pos ⟨hop, he⟩] at h
    split at h <;> cases h
    · exact .inr (.inl ⟨hb, rfl⟩)
    all_goals exact .inl rfl
  · obtain ⟨x, ex⟩ := exec_modexp_engine hi ht hop
    rcases modexpEngine_next (ex ▸ h) with rfl | ⟨hp, rfl⟩ | ⟨hp, rfl⟩
    · exact .inl rfl
    · exact .inr (.inr (.inl ⟨hop, hp, rfl⟩))
    · exact .inr (.inr (.inr (.inl ⟨hop, hp, x, rfl⟩)))
  · rw [exec_stream, command_engine ht, if_pos ⟨hop, he⟩] at h
    rcases streamEngine_next h with rfl | rfl | hw
    · exact .inl rfl
    · exact .inr (.inl ⟨hb, rfl⟩)
    · exact .inr (.inr (.inr (.inr ⟨c, hop, hb, hw⟩)))

end Sys2Proof.Proofs
end

section
/-! PROOF. Every step keeps the invariant: one lemma per kind of step, and the step lemma from them. -/

namespace Sys2Proof.Proofs

open Sys2Proof.Machine Sys2Proof.Laws

/-! ### The invariant speaks of the block alone -/

theorem statusOk_blockOf {s : State} : StatusOk (blockOf s) ↔ StatusOk s :=
  ⟨fun h => ⟨h.done, h.err, h.code, h.info, h.lastOp⟩, fun h => ⟨h.done, h.err, h.code, h.info, h.lastOp⟩⟩

theorem blocksOk_blockOf {c : StreamOp} {s : State} : BlocksOk c (blockOf s) ↔ BlocksOk c s :=
  ⟨fun h => ⟨h.modulus, h.nbits, h.cwidth, h.bs, h.size, h.plan, h.range, h.blk, h.le, h.dstLen⟩,
    fun h => ⟨h.modulus, h.nbits, h.cwidth, h.bs, h.size, h.plan, h.range, h.blk, h.le, h.dstLen⟩⟩

theorem seqOk_blockOf {s : State} : SeqOk (blockOf s) ↔ SeqOk s :=
  ⟨fun h => ⟨h.legal, h.start, h.compute, fun hp => (h.blocks hp).imp fun _ ⟨ho, hb⟩ => ⟨ho, blocksOk_blockOf.mp hb⟩⟩,
    fun h => ⟨h.legal, h.start, h.compute, fun hp => (h.blocks hp).imp fun _ ⟨ho, hb⟩ => ⟨ho, blocksOk_blockOf.mpr hb⟩⟩⟩

/-- A move that leaves the block alone keeps the invariant. -/
theorem KeepsBlock.inv {s t : State} (h : KeepsBlock s t) (hi : Inv s) : Inv t where
  mem := h.mem hi.mem
  windows := windowsOk_congr hi.windows h.window h.plat
  status := statusOk_blockOf.mp (h.block ▸ statusOk_blockOf.mpr hi.status)
  seq := seqOk_blockOf.mp (h.block ▸ seqOk_blockOf.mpr hi.seq)
  raced hb := h.raced (h.busy ▸ hb) (hi.raced (h.busy ▸ hb))
  written hb := h.written (h.busy ▸ hb) (hi.written (h.busy ▸ hb))

theorem statusOk_congr {s t : State} (h : StatusOk s) (hstatus : t.status = s.status) (hinfo : t.errInfo = s.errInfo)
    (hbusy : t.busy = s.busy) (hop : t.seq.op = s.seq.op) : StatusOk t := by
  obtain ⟨h1, h2, h3, h4, h5⟩ := h
  constructor <;> simpa only [hstatus, hinfo, hbusy, hop]

/-- A step that leaves the command running, by its effect on the sequencer. -/
theorem inv_running {b : Bool} {s t : State} (hi : Inv s) (hb : s.busy = true) (hkeep : Preserves b s t)
    (hstatus : t.status = s.status) (hinfo : t.errInfo = s.errInfo) (hbusy : t.busy = true) (hop : t.seq.op = s.seq.op)
    (hseq : SeqOk t) : Inv t where
  mem := hkeep.mem hi.mem
  windows := hkeep.windows hi.windows
  status := statusOk_congr hi.status hstatus hinfo (hbusy.trans hb.symm) hop
  seq := hseq
  raced h := by rw [hbusy] at h; cases h
  written h := by rw [hbusy] at h; cases h

/-! ### An idle block -/

theorem seqOk_idle {s : State} (h : s.seq.phase = .idle) : SeqOk s := by
  have hb : s.busy = false := (busy_eq_false_iff s).mpr h
  constructor <;> simp [h, hb]

/-- A command that ends in error leaves the invariant, whatever STATUS was before (R266). -/
theorem inv_raise {s : State} {code : ErrCode} {info : Word} (hm : s.mem.wf = true) (hw : WindowsOk s) (hc : code ≠ .none) :
    Inv (s.raise code info) := by
  have hkeep : Preserves false s (s.raise code info) := preserves_raise false s code info
  exact
    { mem := hkeep.mem hm
      windows := hkeep.windows hw
      status := by constructor <;> simp [hc]
      seq := seqOk_idle rfl
      raced := fun _ => rfl
      written := fun _ => rfl }

theorem Raises.inv {b : Bool} {s t : State} (h : Raises b s t) (hi : Inv s) : Inv t := by
  obtain ⟨u, code, info, hu, hc, rfl⟩ := h
  exact inv_raise (hu.mem hi.mem) (hu.windows hi.windows) hc

/-- A command that completes while STATUS shows it running leaves the invariant (R150). -/
theorem inv_complete {s : State} (hm : s.mem.wf = true) (hw : WindowsOk s) (hs : StatusOk s) (hb : s.busy = true) :
    Inv s.complete := by
  have hkeep : Preserves false s s.complete := preserves_complete false s
  have herr : s.status.err = false := by
    by_contra h
    have := hs.err (by simpa using h)
    rw [hb] at this
    cases this
  exact
    { mem := hkeep.mem hm
      windows := hkeep.windows hw
      status := by
        constructor
        · exact fun _ => ⟨rfl, herr⟩
        · exact fun _ => rfl
        · exact hs.code
        · exact fun _ => hs.info herr
        · exact fun h => by cases h
      seq := seqOk_idle rfl
      raced := fun _ => rfl
      written := fun _ => rfl }

theorem settleReset_wf {s : State} (h : s.mem.wf = true) : s.settleReset.mem.wf = true := by
  unfold State.settleReset
  split
  · exact settleRaces_wf (drawDst_wf h _ _)
  · exact h

/-- The reset action reaches the invariant from any canonical memory (R300). -/
theorem inv_resetAction {s : State} (hm : s.mem.wf = true) : Inv s.resetAction where
  mem := settleReset_wf hm
  windows := (windowsOk_iff _).mpr fun w => by
    have hzero : s.resetAction.window w = 0 := by cases w <;> rfl
    simp only [hzero, BitVec.ofNat_eq_ofNat, BitVec.toNat_zero, Nat.two_pow_pos]
  status := by constructor <;> simp [resetAction_eq, State.reset]
  seq := seqOk_idle rfl
  raced _ := rfl
  written _ := rfl

/-! ### Acceptance and register writes (R141, R144) -/

theorem inv_accept {s : State} {op : BitVec 4} {esel : Bool} {i : Instr} (hi : Inv s) (hd : decodeOp op esel = .instr i) :
    Inv (s.accept op esel) where
  mem := hi.mem
  windows := windowsOk_congr hi.windows rfl rfl
  status := by constructor <;> simp
  seq := by
    constructor
    · exact fun _ => ⟨i, hd⟩
    · exact fun _ => ⟨rfl, rfl⟩
    · exact fun h => by cases h
    · exact fun h => by cases h
  raced h := by cases h
  written h := by cases h

/-- A register write stores no bit past MAXWORDS (R40, R47). -/
theorem writeRw_windowsOk {s : State} (r : Reg) (v : Word) (hw : WindowsOk s) : WindowsOk (s.writeRw r v) := by
  cases r with
  | word w k =>
    rw [windowsOk_iff] at hw ⊢
    intro w'
    rw [State.writeRw, writeWord_window, writeWord_plat]
    split
    next hin => exact setWord_toNat_lt _ _ _ _ (hw w) hin.2.2
    next => exact hw w'
  | _ => exact windowsOk_congr hw rfl rfl

theorem writeRw_frame (s : State) (r : Reg) (v : Word) :
    (s.writeRw r v).status = s.status ∧ (s.writeRw r v).errInfo = s.errInfo ∧ (s.writeRw r v).raced = s.raced ∧
      (s.writeRw r v).written = s.written := by
  cases r with
  | word w k =>
    by_cases hk : k < s.plat.maxWords <;> cases w <;> simp [State.writeRw, State.writeWord, hk]
  | _ => exact ⟨rfl, rfl, rfl, rfl⟩

/-- While idle the invariant says nothing of the configuration registers. -/
theorem inv_writeRw {s : State} {r : Reg} {v : Word} (hi : Inv s) (hidle : s.busy = false) : Inv (s.writeRw r v) := by
  obtain ⟨hstatus, hinfo, hraced, hwritten⟩ := writeRw_frame s r v
  have hseq := writeRw_seq s r v
  have hbusy : (s.writeRw r v).busy = s.busy := by rw [State.busy, hseq]; rfl
  exact
    { mem := writeRw_mem s r v ▸ hi.mem
      windows := writeRw_windowsOk r v hi.windows
      status := statusOk_congr hi.status hstatus hinfo hbusy (congrArg Seq.op hseq)
      seq := seqOk_idle (hseq ▸ (busy_eq_false_iff s).mp hidle)
      raced := fun _ => hraced ▸ hi.raced hidle
      written := fun _ => hwritten ▸ hi.written hidle }

/-! ### MODEXP (R171, R172) -/

theorem inv_modexpStart {s : State} (hi : Inv s) (hop : s.seq.op = 1) (hb : s.busy = true) : Inv (modexpStart s) := by
  have hwidths : Preserves false s s.updateWidths := .of_window id rfl rfl
  unfold modexpStart
  simp only
  split
  next => exact inv_raise (hwidths.mem hi.mem) (hwidths.windows hi.windows) (by decide)
  next hn =>
    refine inv_running hi hb (hwidths.trans (.of_window id rfl rfl)) rfl rfl rfl rfl ?_
    constructor
    · exact fun _ => hi.seq.legal hb
    · exact fun h => by cases h
    · exact fun _ => ⟨hop, Nat.pos_of_ne_zero hn⟩
    · exact fun h => by cases h

theorem modexp_lt (b x : Nat) {n : Nat} (hn : 0 < n) : modexp b x n < n := by
  rw [modexp, modexpLoop_eq _ _ _ _ _ (Nat.mod_mod 1 n)]
  exact Nat.mod_lt _ hn

/-- RESULT takes a residue modulo `W[N]`, which is below `2^MAXW` (R41). -/
theorem inv_modexpCompute {s : State} (x : Nat) (hi : Inv s) (hn : 0 < s.valN) (hb : s.busy = true) : Inv (modexpCompute x s) := by
  obtain ⟨hwn, hwe, hwd, hwbase, -, hwiv, hwchain⟩ := hi.windows
  refine inv_complete (s := { s with result := BitVec.ofNat 8192 (modexp s.valBase x s.valN) }) hi.mem
    ⟨hwn, hwe, hwd, hwbase, ?_, hwiv, hwchain⟩ (statusOk_congr hi.status rfl rfl rfl rfl) hb
  rw [BitVec.toNat_ofNat]
  exact (Nat.mod_le _ _).trans_lt ((modexp_lt _ _ hn).trans (winValue_lt s.plat s.n))

/-- The modulus and the two bits of CFG are operands (R38, R40). -/
theorem keepsOperands_derived {s t : State} (h : KeepsOperands s t) :
    t.valN = s.valN ∧ t.bssel = s.bssel ∧ t.ivhdr = s.ivhdr := by
  simp only [State.valN, State.bssel, State.ivhdr, h.n, h.plat, h.cfg, and_self]

/-! ### The start step of a stream command (R190) -/

/-- Chain initialisation counts the header of an encrypting command in DST_LEN (R204). -/
theorem afterHeader_dstLen (c : StreamOp) (s : State) :
    (afterHeader c s).dstLen = if c.dec = false ∧ (c.cbc && s.ivhdr) = true then s.ebs else s.dstLen := by
  cases c <;> cases h : s.ivhdr <;> simp [afterHeader, StreamOp.dec, StreamOp.cbc, h]

/-- The plan a start step passes its checks with fits the 32-bit registers (R197, R198). -/
theorem Started.plan_lt {c : StreamOp} {s : State} {p : Plan} (h : Started c s p) : p.nb < 2 ^ 32 ∧ p.out ≤ Config.outReqMax := by
  obtain ⟨hpos, hle⟩ := badBs_eq_false.mp h.size
  have hnb : p.nb ≤ s.srcLen.toNat := plan_nb_le hpos hle h.plan
  exact ⟨hnb.trans_lt s.srcLen.isLt, (badRange_eq_false.mp h.range).2.1⟩

theorem keepsOperands_startedState (c : StreamOp) (s : State) (p : Plan) : KeepsOperands s (startedState c s p) := by
  constructor <;> simp [startedState]

theorem startedState_widths (c : StreamOp) (s : State) (p : Plan) :
    (startedState c s p).nbits = (startSizes s).nbits ∧ (startedState c s p).cwidth = (startSizes s).cwidth ∧
      (startedState c s p).ebs = (startSizes s).ebs := by simp [startedState]

theorem startedState_seq (c : StreamOp) (s : State) (p : Plan) :
    (startedState c s p).seq = { s.seq with phase := .blocks, blk := 0, hdr := p.hdr } := by simp [startedState]

theorem startedState_counters {c : StreamOp} {s : State} {p : Plan} (h : Started c s p) :
    (startedState c s p).nblkTotal.toNat = p.nb ∧ (startedState c s p).nblkDone = 0 ∧ (startedState c s p).outReq.toNat = p.out := by
  obtain ⟨hnb, hout⟩ := h.plan_lt
  have hlt : p.out < 2 ^ 32 := by
    simp only [Config.outReqMax] at hout
    omega
  refine ⟨?_, by simp [startedState], ?_⟩
  · simpa [startedState] using hnb
  · simpa [startedState, Nat.min_eq_left hout] using hlt

/-- Before the first block DST_LEN counts the header of an encrypting command (R204). -/
theorem startedState_dstLen {c : StreamOp} {s : State} {p : Plan} (h : Started c s p) :
    (startedState c s p).dstLen.toNat = if c.dec then 0 else p.hdr := by
  have hdst : (startedState c s p).dstLen = if c.dec = false ∧ (c.cbc && s.ivhdr) = true then (startSizes s).ebs else 0 := by
    simp [startedState, afterHeader_dstLen, State.ivhdr]
  cases hc : c.dec with
  | true => simp [hdst, hc]
  | false =>
    obtain ⟨hhdr, -, -⟩ := plan_enc hc h.plan
    rw [hdst, hhdr]
    cases c.cbc && s.ivhdr <;> simp [hc]

/-- A start step that goes on to BLOCKS leaves the counters in agreement with its plan. -/
theorem blocksOk_startedState {c : StreamOp} {s : State} {p : Plan} (h : Started c s p) : BlocksOk c (startedState c s p) := by
  have hk := keepsOperands_startedState c s p
  obtain ⟨hnbits, hcwidth, hebs⟩ := startedState_widths c s p
  obtain ⟨htotal, hdone, hout⟩ := startedState_counters h
  have hseq := startedState_seq c s p
  obtain ⟨hvalN, hbssel, hivhdr⟩ := keepsOperands_derived hk
  exact
    { modulus := hvalN ▸ h.modulus
      nbits := by rw [hnbits, hvalN, startSizes_nbits]
      cwidth := by rw [hcwidth, hvalN, startSizes_cwidth]
      bs := by rw [hebs, startSizes_ebs, effectiveBs, hbssel, hk.blksz, hnbits, startSizes_nbits]
      size := by rw [hebs, hcwidth, h.size]
      plan := by rw [hivhdr, hk.srcLen, hebs, hcwidth, htotal, hseq, hout]; exact h.plan
      range := by rw [hk.srcAddr, hk.srcLen, hk.dstAddr, hout, hk.dstCap, h.range]
      blk := by rw [hseq, hdone]
      le := by rw [hseq]; exact Nat.zero_le _
      dstLen := by rw [startedState_dstLen h, hseq]; simp }

/-! ### The block steps (R205 to R208) -/

theorem keepsOperands_blockEnd (c : StreamOp) (s : State) (out cb : List Byte) : KeepsOperands s (blockEnd c s out cb) := by
  constructor <;> simp [blockEnd]

theorem blockEnd_seq (c : StreamOp) (s : State) (out cb : List Byte) :
    (blockEnd c s out cb).seq = { s.seq with blk := s.seq.blk + 1 } := by simp [blockEnd]

theorem blockEnd_sizes (c : StreamOp) (s : State) (out cb : List Byte) :
    (blockEnd c s out cb).nbits = s.nbits ∧ (blockEnd c s out cb).cwidth = s.cwidth ∧ (blockEnd c s out cb).ebs = s.ebs ∧
      (blockEnd c s out cb).nblkTotal = s.nblkTotal ∧ (blockEnd c s out cb).outReq = s.outReq := by simp [blockEnd]

theorem blockEnd_counters (c : StreamOp) (s : State) (out cb : List Byte) :
    (blockEnd c s out cb).nblkDone = s.nblkDone + 1 ∧
      (blockEnd c s out cb).dstLen = s.dstLen + if c.dec then s.ebs else s.cwidth := by simp [blockEnd]

/-- A block size between block steps fits the byte windows (R47, R194). -/
theorem blocksOk_ebs_le {c : StreamOp} {s : State} (h : BlocksOk c s) : s.ebs.toNat ≤ s.plat.maxBs :=
  ((badBs_eq_false.mp h.size).2.trans h.cwidth.le).trans (width_le_maxBs s)

/-- A completed block keeps windows and memory in bounds, and an ECB block leaves CHAIN (R203). -/
theorem preserves_blockEnd {c : StreamOp} {s : State} {out cb : List Byte} (hbs : s.ebs.toNat ≤ s.plat.maxBs)
    (hfits : s.dstBlock c + out.length ≤ Config.addressSpace) : Preserves c.cbc s (blockEnd c s out cb) := by
  have hput : Preserves c.cbc s ((afterRead s c).dmaPut (s.dstBlock c) out) :=
    (preserves_afterRead _ s c).trans (preserves_dmaPut _ _ hfits)
  have hchain (u : State) (he : u.ebs.toNat ≤ u.plat.maxBs) : Preserves c.cbc u (u.chainUpdate c cb) := by
    unfold State.chainUpdate
    cases c.cbc
    · exact .refl _ u
    · exact preserves_setChain u (by rw [lowBytes_length]; omega)
  have hdone (u : State) (w : Word) : Preserves c.cbc u (u.blockDone w) := .of_window id rfl rfl
  exact ((hput.trans (hchain _ hbs)).trans (hdone _ _)).trans (preserves_drawAhead _ _ c)

/-- A completed block keeps the counters in agreement with the plan. -/
theorem blocksOk_blockEnd {c : StreamOp} {s : State} {out cb : List Byte} (h : BlocksOk c s) (hlt : s.seq.blk < s.nblkTotal) :
    BlocksOk c (blockEnd c s out cb) := by
  have hk := keepsOperands_blockEnd c s out cb
  obtain ⟨hnbits, hcwidth, hebs, htotal, hout⟩ := blockEnd_sizes c s out cb
  obtain ⟨hdone, hdst⟩ := blockEnd_counters c s out cb
  have hseq := blockEnd_seq c s out cb
  obtain ⟨hvalN, hbssel, hivhdr⟩ := keepsOperands_derived hk
  have hblk : (s.seq.blk + 1).toNat = s.seq.blk.toNat + 1 := by bv_omega
  have hadd : (s.dstLen + if c.dec then s.ebs else s.cwidth).toNat = s.dstLen.toNat + s.outWidth c := by
    have hroom := (dstBlock_range h hlt).2
    have := s.outReq.isLt
    rw [BitVec.toNat_add, apply_ite BitVec.toNat]
    exact Nat.mod_eq_of_lt (by simp only [State.outWidth] at hroom; omega)
  exact
    { modulus := hvalN ▸ h.modulus
      nbits := by rw [hnbits, hvalN, h.nbits]
      cwidth := by rw [hcwidth, hvalN, h.cwidth]
      bs := by rw [hebs, h.bs, effectiveBs, effectiveBs, hbssel, hk.blksz, hnbits]
      size := by rw [hebs, hcwidth, h.size]
      plan := by rw [hivhdr, hk.srcLen, hebs, hcwidth, htotal, hseq, hout]; exact h.plan
      range := by rw [hk.srcAddr, hk.srcLen, hk.dstAddr, hout, hk.dstCap, h.range]
      blk := by rw [hseq, hdone, h.blk]
      le := by rw [hseq, htotal, hblk]; exact hlt
      dstLen := by
        have hwidth : (blockEnd c s out cb).outWidth c = s.outWidth c := by rw [State.outWidth, hebs, hcwidth]; rfl
        rw [hdst, hadd, h.dstLen, hseq, hblk, hwidth]
        ring }

/-! ### The step -/

theorem seqOk_blocks {c : StreamOp} {s : State} {i : Instr} (hd : decodeOp s.seq.op s.seq.esel = .instr i)
    (hp : s.seq.phase = .blocks) (hop : s.seq.op = c.op) (hb : BlocksOk c s) : SeqOk s :=
  ⟨fun _ => ⟨i, hd⟩, by simp [hp], by simp [hp], fun _ => ⟨c, hop, hb⟩⟩

theorem streamOp_op_injective {c c' : StreamOp} (h : c.op = c'.op) : c = c' := by
  have := streamOf_op c
  rw [h, streamOf_op] at this
  exact (Option.some.inj this).symm

/-- The engine's step of a stream command keeps the invariant. -/
theorem inv_streamWorks {c : StreamOp} {s t : State} (hi : Inv s) (hb : s.busy = true) (hop : s.seq.op = c.op)
    (h : StreamWorks c s t) : Inv t := by
  obtain ⟨i, hd⟩ := hi.seq.legal hb
  rcases h with ⟨-, hr⟩ | ⟨-, p, hs, rfl⟩ | ⟨hp, hlt, out, cb, hfits, rfl⟩
  · exact hr.inv hi
  · have hseq := startedState_seq c s p
    refine inv_running hi hb (preserves_startedState hs) ?_ ?_ ?_ ?_ ?_
    · simp [startedState]
    · simp [startedState]
    · rw [busy_iff, hseq]; simp
    · rw [hseq]
    · refine seqOk_blocks (i := i) ?_ ?_ ?_ (blocksOk_startedState hs) <;> rw [hseq]
      exacts [hd, hop]
  · obtain ⟨c', hop', hok⟩ := hi.seq.blocks hp
    obtain rfl : c' = c := streamOp_op_injective (hop'.symm.trans hop)
    have hseq := blockEnd_seq c' s out cb
    refine inv_running hi hb (preserves_blockEnd (blocksOk_ebs_le hok) hfits) ?_ ?_ ?_ ?_ ?_
    · simp [blockEnd]
    · simp [blockEnd]
    · rw [busy_iff, hseq]; simp [hp]
    · rw [hseq]
    · refine seqOk_blocks (i := i) ?_ ?_ ?_ (blocksOk_blockEnd hok hlt) <;> rw [hseq]
      exacts [hd, hp, hop]

theorem inv_engineStep {s t : State} (hi : Inv s) (ht : s.turn = .engine) (h : engineStep s = .next t) : Inv t := by
  rcases engineStep_next ht h with rfl | ⟨hb, rfl⟩ | ⟨hop, hp, rfl⟩ | ⟨hop, hp, x, rfl⟩ | ⟨c, hop, hb, hw⟩
  · exact hi
  · exact inv_complete hi.mem hi.windows hi.status hb
  · exact inv_modexpStart hi hop (by simp [busy_iff, hp])
  · exact inv_modexpCompute x hi (hi.seq.compute hp).2 (by simp [busy_iff, hp])
  · exact inv_streamWorks hi hb hop hw

theorem inv_writeReg {s t : State} {r : Reg} {v : Word} (hi : Inv s) (ht : s.turn = .host) (h : writeReg s r v = .next t) :
    Inv t := by
  rcases writeReg_next ht h with hk | hr | ⟨-, op, esel, i, hd, rfl⟩ | ⟨hidle, rfl⟩ | ⟨-, -, rfl⟩
  · exact hk.inv hi
  · exact hr.inv hi
  · exact inv_accept hi hd
  · exact inv_writeRw hi hidle
  · exact inv_resetAction hi.mem

theorem inv_hostStep {h : HostStep} {s t : State} (hi : Inv s) (ht : s.turn = .host) (e : hostStep h s = .next t) : Inv t := by
  rcases hostStep_next e with hk | ⟨_, _, _, _, _, -, -, -, -, hw⟩
  · exact hk.inv hi
  · exact inv_writeReg ((keepsBlock_answer s .ok).inv hi) ht hw

/-- Settles O51: a step hands the turn to an agent, which leaves the invariant, and each agent's move keeps it. -/
theorem invKept : Obligations.InvKept := by
  intro s t hi h
  have htaking (who : Agent) (rest : List Move) : Inv (s.taking who rest) := (keepsBlock_taking s who rest).inv hi
  rcases step_cases s with ⟨rest, -, e⟩ | ⟨hs, rest, -, e⟩ | ⟨rest, -, e⟩ <;> rw [e] at h
  · exact inv_engineStep (htaking .engine rest) rfl h
  · exact inv_hostStep (htaking .host rest) rfl h
  · cases h
    exact inv_resetAction (htaking .host rest).mem

end Sys2Proof.Proofs
end

section
/-! PROOF. Which steps change RESULT (spec/10_state.md R41) and CHAIN (R48). -/

namespace Sys2Proof.Proofs

open Sys2Proof.Machine Sys2Proof.Laws

/-- A full-strobe write that reaches CTRL is a write at CTRL's bus address (R81, R83, R116). -/
theorem portWrite_ctrl {p : Config.Platform} {addr : Word} {lanes : List (Option Byte)} {off : Nat} {v : Word}
    (ho : portOffset p addr = some off) (hr : regAt off = some .ctrl) (hv : fullWord lanes = some v) :
    HostStep.portWrite addr lanes = .portWrite (busAddr p .ctrl) (fullLanes v) := by
  rw [portOffset_addr ho, lanes_of_fullWord hv, busAddr, offset_of_regAt hr]

/-- A register write changes neither of the read-only windows (R116). -/
theorem writeRw_readOnly (s : State) (r : Reg) (v : Word) :
    (s.writeRw r v).result = s.result ∧ (s.writeRw r v).chain = s.chain := by
  have hword (w w' : Win) (k : Nat) (hro : w'.access ≠ .rw) : (s.writeWord w k v).window w' = s.window w' := by
    rw [writeWord_window, if_neg]
    rintro ⟨rfl, hrw, -⟩
    exact hro hrw
  cases r with
  | word w k => exact ⟨hword w .result k (by decide), hword w .chain k (by decide)⟩
  | _ => exact ⟨rfl, rfl⟩

/-- A write to the port changes RESULT or CHAIN only as a reset. -/
theorem writeReg_readOnly {s t : State} {r : Reg} {v : Word} (ht : s.turn = .host) (h : writeReg s r v = .next t) :
    (t.result = s.result ∧ t.chain = s.chain) ∨ (r = .ctrl ∧ v.getLsbD 1 = true ∧ t = s.resetAction) := by
  rcases writeReg_next ht h with hk | hr | ⟨-, _, _, _, -, rfl⟩ | ⟨-, rfl⟩ | hreset
  · exact .inl ⟨congrFun hk.window .result, congrFun hk.window .chain⟩
  · exact .inl ⟨hr.preserves.result, hr.preserves.chain rfl⟩
  · exact .inl ⟨rfl, rfl⟩
  · exact .inl (writeRw_readOnly s r v)
  · exact .inr hreset

/-- A step is the engine's, or a reset, or leaves RESULT and CHAIN. -/
theorem step_readOnly {s t : State} (h : step s = .next t) :
    (s.engineNext ∧ ∃ rest, engineStep (s.taking .engine rest) = .next t) ∨
    (s.resetNext ∧ ∃ u : State, t = u.resetAction) ∨
    (t.result = s.result ∧ t.chain = s.chain) := by
  rcases step_cases s with ⟨rest, hs, e⟩ | ⟨x, rest, hs, e⟩ | ⟨rest, hs, e⟩ <;> rw [e] at h
  · refine .inl ⟨?_, rest, h⟩
    rcases hs with hs | ⟨hs, -⟩
    · exact .inr ⟨rest, hs⟩
    · exact .inl hs
  · rcases hostStep_next h with hk | ⟨addr, lanes, off, r, v, rfl, ho, hr, hv, hw⟩
    · exact .inr (.inr ⟨congrFun hk.window .result, congrFun hk.window .chain⟩)
    · rcases writeReg_readOnly rfl hw with hro | ⟨rfl, hbit, rfl⟩
      · exact .inr (.inr hro)
      · exact .inr (.inl ⟨⟨rest, .inr ⟨v, hbit, by rw [hs, portWrite_ctrl ho hr hv]; rfl⟩⟩, _, rfl⟩)
  · cases h
    exact .inr (.inl ⟨⟨rest, .inl hs⟩, _, rfl⟩)

/-- A stream command's step leaves RESULT, and an ECB command's leaves CHAIN. -/
theorem streamWorks_readOnly {c : StreamOp} {s t : State} (h : StreamWorks c s t) :
    t.result = s.result ∧ (c.cbc = false → t.chain = s.chain) := by
  rcases h with ⟨-, hr⟩ | ⟨-, p, hs, rfl⟩ | ⟨-, -, out, cb, -, rfl⟩
  · exact ⟨hr.preserves.result, hr.preserves.chain⟩
  · exact ⟨(preserves_startedState hs).result, (preserves_startedState hs).chain⟩
  · refine ⟨by simp [blockEnd], fun hc => ?_⟩
    simp only [blockEnd, State.chainUpdate, hc, Bool.false_eq_true, if_false]
    simp

theorem modexpStart_readOnly (s : State) : (modexpStart s).result = s.result ∧ (modexpStart s).chain = s.chain := by
  unfold modexpStart
  simp only
  split <;> exact ⟨rfl, rfl⟩

/-- Settles O54: of the engine's steps only MODEXP's compute step writes RESULT, and it completes. -/
theorem onlyModexpWritesResult : Obligations.OnlyModexpWritesResult := by
  intro s t h hne
  rcases step_readOnly h with ⟨-, rest, he⟩ | ⟨hreset, u, rfl⟩ | ⟨hsame, -⟩
  · left
    rcases engineStep_next rfl he with rfl | ⟨-, rfl⟩ | ⟨-, -, rfl⟩ | ⟨hop, hp, x, rfl⟩ | ⟨c, -, -, hw⟩
    · exact absurd rfl hne
    · exact absurd rfl hne
    · exact absurd (modexpStart_readOnly _).1 hne
    · exact ⟨hp, hop, rfl⟩
    · exact absurd (streamWorks_readOnly hw).1 hne
  · exact .inr ⟨hreset, rfl⟩
  · exact absurd hsame hne

/-- Settles O55: of the engine's steps only a start or a block step of a CBC command writes CHAIN. -/
theorem onlyCbcWritesChain : Obligations.OnlyCbcWritesChain := by
  intro s t h hne
  rcases step_readOnly h with ⟨hnext, rest, he⟩ | ⟨hreset, u, rfl⟩ | ⟨-, hsame⟩
  · refine .inl ⟨hnext, ?_⟩
    rcases engineStep_next rfl he with rfl | ⟨-, rfl⟩ | ⟨-, -, rfl⟩ | ⟨-, -, x, rfl⟩ | ⟨c, hop, -, hw⟩
    · exact absurd rfl hne
    · exact absurd rfl hne
    · exact absurd (modexpStart_readOnly _).2 hne
    · exact absurd rfl hne
    · have hcbc : c.cbc = true := by
        by_contra hc
        exact hne ((streamWorks_readOnly hw).2 (by simpa using hc))
      have hop67 : c.op = 6 ∨ c.op = 7 := by
        revert hcbc
        cases c <;> decide
      refine ⟨hop ▸ hop67, ?_⟩
      rcases hw with ⟨hworks, -⟩ | ⟨hp, -⟩ | ⟨hp, hlt, -⟩
      · exact hworks
      · exact .inl hp
      · exact .inr ⟨hp, hlt⟩
  · exact .inr ⟨hreset, rfl⟩
  · exact absurd hsame hne

end Sys2Proof.Proofs
end

section
/-! PROOF. Accesses of the register port: the write that runs an instruction (spec/30_encoding.md R110, R115,
spec/40_command_interface.md R141), and the accesses that get the error response (spec/20_memory.md R81, R82). -/

namespace Sys2Proof.Proofs

open Sys2Proof.Machine Sys2Proof.Laws

/-! ### The host's step (R10, R141) -/

theorem step_host {s : State} {h : HostStep} {rest : List Move} (hs : s.schedule = .host h :: rest) :
    step s = hostStep h (s.taking .host rest) := by
  rw [step, takeMove, hs]

/-- A full-strobe write of a mapped register is that register's write, accepted by the bus. -/
theorem step_portWrite {s : State} {r : Reg} {w : Word} {rest : List Move} (hr : OnMap r)
    (hs : s.schedule = .host (.portWrite (busAddr s.plat r) (fullLanes w)) :: rest) :
    step s = writeReg ((s.taking .host rest).answer .ok) r w := by
  rw [step_host hs]
  exact portWrite_eq (s.taking .host rest) hr w

theorem writeCmd_instr {s : State} {w : Word} {i : Instr} (h : decodeCmd w = .instr i) : writeCmd s w = exec i s := by
  rw [writeCmd, h]

theorem writeCtrl_instr {s : State} {w : Word} {i : Instr} (h : decodeCtrl w = .instr i) : writeCtrl s w = exec i s := by
  rw [writeCtrl, h]

theorem writeReg_formatReg {s : State} {f : Format} {w : Word} {i : Instr} (h : decode f w = .instr i) :
    writeReg s (formatReg f) w = exec i s := by
  cases f with
  | cmd32 => exact writeCmd_instr h
  | ctrl32 => exact writeCtrl_instr h

theorem formatReg_onMap (f : Format) : OnMap (formatReg f) := by
  cases f <;> rintro w k ⟨⟩

/-- Settles O5: a host move is `hostStep`, a full-strobe write of a mapped register is `writeReg`, and at the register of its
format a word runs the instruction it decodes to. -/
theorem stepRunsWrittenInstruction : Obligations.StepRunsWrittenInstruction := by
  refine ⟨?runs, fun s rest r w hr hs => step_portWrite hr hs, ?writes, fun s rest h hs => step_host hs,
    fun _ _ _ => rfl, fun _ _ _ => rfl⟩
  case runs =>
    intro s rest f w i hd hs
    rw [step_portWrite (formatReg_onMap f) hs, writeReg_formatReg hd]
    rfl
  case writes =>
    exact fun s w => ⟨rfl, rfl, fun _ h => writeCmd_instr h, fun _ h => writeCtrl_instr h,
      fun h1 h0 => writeCtrl_noAction s h1 h0⟩

/-! ### The error response (R81, R82, R270) -/

theorem portRead_busError {s : State} {addr : Word} {off bytes : Nat} (ho : portOffset s.plat addr = some off)
    (h : bytes ≠ 4 ∨ regAt off = none) : portRead s addr bytes = .next (s.answer (.busError 0)) := by
  rw [portRead, ho]
  simp only
  split
  next h4 => rw [h.resolve_left (not_not.mpr h4)]
  next => rfl

theorem portWrite_busError {s : State} {addr : Word} {off : Nat} {lanes : List (Option Byte)}
    (ho : portOffset s.plat addr = some off) (h : regAt off = none ∨ fullWord lanes = none) :
    portWrite s addr lanes = .next (s.answer (.busError 0)) := by
  rw [portWrite, ho]
  rcases h with h | h
  · simp [h]
  · cases regAt off <;> simp [h]

/-- Four lanes with every strobe on carry a word, and no others (R82, R83). -/
theorem fullWord_eq_none {lanes : List (Option Byte)} (h : lanes.length ≠ 4 ∨ none ∈ lanes) : fullWord lanes = none := by
  by_contra hsome
  obtain ⟨v, hv⟩ := Option.ne_none_iff_exists'.mp hsome
  rw [lanes_of_fullWord hv] at h
  simp [fullLanes, lanesOf] at h

/-- Settles O45: an offset that is misaligned or in the hole has no register, and lanes that are not four strobed ones carry no
word. -/
theorem portBusError : Obligations.PortBusError := by
  intro s addr off bytes lanes ho
  have hnone : off % 4 ≠ 0 ∨ (0x54 ≤ off ∧ off < 0x400) → regAt off = none :=
    (regAt_eq_none_iff (portOffset_eq_some_iff.mp ho).2).mpr
  constructor
  · rintro (h | h)
    · exact portRead_busError ho (.inl h)
    · exact portRead_busError ho (.inr (hnone h))
  · rintro (h | h | h)
    · exact portWrite_busError ho (.inr (fullWord_eq_none (.inl h)))
    · exact portWrite_busError ho (.inr (fullWord_eq_none (.inr h)))
    · exact portWrite_busError ho (.inl (hnone h))

end Sys2Proof.Proofs
end

section
/-! PROOF. The errors of a block step (spec/42_mode_controller.md R206, R208, R210, R213): what one leaves of the block and of
memory, said once for every error, and the three statements from it. -/

namespace Sys2Proof.Proofs

open Sys2Proof.Machine Sys2Proof.Laws

/-! ### Where a block's accesses lie (R87, R198) -/

/-- The source bytes of the next block exist. -/
theorem srcBlock_fits {c : StreamOp} {s : State} (hok : BlocksOk c s) (hlt : s.seq.blk < s.nblkTotal) :
    s.srcBlock c + s.srcTake c ≤ Config.addressSpace :=
  (srcBlock_range hok hlt).2.trans (badRange_eq_false.mp hok.range).1

/-- The destination bytes of the next block exist. -/
theorem dstBlock_fits {c : StreamOp} {s : State} (hok : BlocksOk c s) (hlt : s.seq.blk < s.nblkTotal) :
    s.dstBlock c + s.outWidth c ≤ Config.addressSpace := by
  obtain ⟨hat, hroom⟩ := dstBlock_range hok hlt
  obtain ⟨-, -, hdst, -⟩ := badRange_eq_false.mp hok.range
  omega

/-! ### Bytes outside a range -/

theorem sameOutside_of_mem {s t : State} (h : t.mem = s.mem) (a n : Nat) : sameOutside s t a n := fun _ _ => by rw [h]

theorem sameOutside_drawRange {s : State} (hw : s.mem.wf = true) (a n : Nat) : sameOutside s (s.drawRange a n) a n :=
  fun _ hy => drawRange_get hw hy

theorem sameOutside_mono {s t : State} {a n b m : Nat} (h : sameOutside s t b m) (hlo : a ≤ b) (hhi : b + m ≤ a + n) :
    sameOutside s t a n := fun y hy => h y (by omega)

/-! ### What an error of a block step leaves (R210) -/

/-- `u` is `s` but for memory, the draws and the model's records of who has seen which write. -/
def MemoryOnly (s u : State) : Prop :=
  ∃ mem posted written stale unobserved draws, u = { s with
    mem := mem, posted := posted, written := written, stale := stale, unobserved := unobserved, draws := draws }

theorem memoryOnly_refl (s : State) : MemoryOnly s s := ⟨_, _, _, _, _, _, rfl⟩

theorem memoryOnly_afterRead (s : State) (c : StreamOp) : MemoryOnly s (afterRead s c) := ⟨_, _, _, _, _, _, rfl⟩

theorem MemoryOnly.drawRange {s u : State} (h : MemoryOnly s u) (a n : Nat) : MemoryOnly s (u.drawRange a n) := by
  obtain ⟨_, _, _, _, _, _, rfl⟩ := h
  exact ⟨_, _, _, _, _, _, rfl⟩

theorem MemoryOnly.drawAhead {s u : State} (h : MemoryOnly s u) (c : StreamOp) : MemoryOnly s (u.drawAhead c) := by
  unfold State.drawAhead
  split
  · exact h.drawRange _ _
  · exact h

/-- The state a block step leaves that ends in error after the accesses that led to `u`. -/
def blockFailed (c : StreamOp) (u : State) (code : ErrCode) : State := (u.drawAhead c).raise code u.seq.blk

theorem raiseBlock_eq (c : StreamOp) (u : State) (code : ErrCode) : raiseBlock c u code = .next (blockFailed c u code) := rfl

/-- What an error with code `code` in block step `seq.blk` leaves of the block (R210, R266). -/
structure BlockError (s t : State) (code : BitVec 8) : Prop where
  ends     : EndsInError s t code s.seq.blk
  hdr      : t.seq.hdr = s.seq.hdr
  operands : KeepsOperands s t
  stream   : KeepsStream s t
  done     : t.nblkDone = s.nblkDone
  result   : t.result = s.result

theorem blockError_blockFailed {c : StreamOp} {s u : State} (h : MemoryOnly s u) (code : ErrCode) :
    BlockError s (blockFailed c u code) code.code := by
  have hblk : u.seq.blk = s.seq.blk := by obtain ⟨_, _, _, _, _, _, rfl⟩ := h; rfl
  unfold blockFailed
  rw [hblk]
  obtain ⟨_, _, _, _, _, _, e⟩ := h.drawAhead c
  rw [e]
  exact ⟨⟨rfl, rfl, rfl, rfl, rfl, rfl, rfl⟩, rfl, ⟨rfl, rfl, rfl, rfl, rfl, rfl, rfl, rfl, rfl, rfl, rfl, rfl, rfl⟩,
    ⟨rfl, rfl, rfl, rfl, rfl, rfl⟩, rfl, rfl⟩

/-- The error itself changes a byte only as a race, or of an incomplete block with ECB_PARALLEL (R213, R311). -/
theorem blockFailed_get {c : StreamOp} {s u : State} {code : ErrCode} {y : Nat} (h : MemoryOnly s u) (hw : u.mem.wf = true)
    (hr : y ∉ s.racedDst)
    (hy : (y < s.dstAddr.toNat + s.dstLen.toNat ∨ s.dstAddr.toNat + s.dstLen.toNat + (s.outReq.toNat - s.dstLen.toNat) ≤ y) ∨
      s.plat.ecbParallel = false ∨ c.cbc = true) :
    (blockFailed c u code).mem.get y = u.mem.get y := by
  obtain ⟨_, _, _, _, _, _, rfl⟩ := h
  refine (settleRaces_keeps (drawAhead_wf hw) (by rw [drawAhead_racedDst]; exact hr)).trans (drawAhead_get hw ?_)
  rcases hy with (hy | hy) | hy
  · exact .inl hy
  · exact .inr (.inl (by simp only; omega))
  · exact .inr (.inr hy)

theorem keepsDone_blockFailed {c : StreamOp} {s u : State} {code : ErrCode} {a n : Nat} (h : MemoryOnly s u)
    (hw : s.mem.wf = true → u.mem.wf = true)
    (hdone : s.mem.wf = true → sameOutside s u (s.dstAddr.toNat + s.dstLen.toNat) (s.outReq.toNat - s.dstLen.toNat))
    (hout : s.mem.wf = true → sameOutside s u a n) : KeepsDone c s (blockFailed c u code) a n where
  complete hm y hy hr := (blockFailed_get h (hw hm) hr (.inl hy)).trans (hdone hm y hy)
  others hp hm y hy hr := (blockFailed_get h (hw hm) hr (.inr hp)).trans (hout hm y hy)

theorem blockFailed_mem {c : StreamOp} {s u : State} {code : ErrCode} (h : MemoryOnly s u) (hr : s.raced = [])
    (hp : s.plat.ecbParallel = false ∨ c.cbc = true) : (blockFailed c u code).mem = u.mem := by
  obtain ⟨_, _, _, _, _, _, rfl⟩ := h
  unfold blockFailed State.drawAhead
  rw [if_neg (by rcases hp with hp | hp <;> simp [hp])]
  exact settleRaces_mem_of_raced hr

/-- The block step ends in error `code` with nothing written. -/
def FailsUnwritten (c : StreamOp) (s : State) (r : StepResult) (code : BitVec 8) : Prop :=
  ∃ t, r = .next t ∧ EndsInError s t code s.seq.blk ∧ t.seq.hdr = s.seq.hdr ∧ KeepsOperands s t ∧ KeepsStream s t ∧
    t.nblkDone = s.seq.blk ∧ t.result = s.result ∧ KeepsDone c s t 0 0 ∧
    (s.raced = [] → s.plat.ecbParallel = false ∨ c.cbc = true → t.mem = s.mem)

/-- The block step ends in a bus error on the write of its `n` bytes. -/
def FailsWriting (c : StreamOp) (s : State) (r : StepResult) (n : Nat) : Prop :=
  ∃ t, r = .next t ∧ EndsInError s t 0x0B s.seq.blk ∧ t.seq.hdr = s.seq.hdr ∧ KeepsOperands s t ∧ KeepsStream s t ∧
    t.nblkDone = s.seq.blk ∧ t.result = s.result ∧ KeepsDone c s t (s.dstBlock c) n ∧
    (s.raced = [] → s.plat.ecbParallel = false ∨ c.cbc = true → sameOutside s t (s.dstBlock c) n)

theorem failsUnwritten_raiseBlock {c : StreamOp} {s u : State} (hok : BlocksOk c s) (h : MemoryOnly s u) (hmem : u.mem = s.mem)
    (code : ErrCode) : FailsUnwritten c s (raiseBlock c u code) code.code := by
  obtain ⟨hends, hhdr, hoperands, hstream, hdone, hresult⟩ := blockError_blockFailed (c := c) h code
  refine ⟨_, raiseBlock_eq c u code, hends, hhdr, hoperands, hstream, hdone.trans hok.blk.symm, hresult, ?keeps, ?all⟩
  case keeps =>
    exact keepsDone_blockFailed h (fun hm => hmem ▸ hm) (fun _ => sameOutside_of_mem hmem _ _)
      (fun _ => sameOutside_of_mem hmem _ _)
  case all => exact fun hr hp => (blockFailed_mem h hr hp).trans hmem

/-- A bus error on the write of a block draws the block's own bytes, which are of no completed block (R86, R210). -/
theorem failsWriting_finishBlock {c : StreamOp} {s : State} {out cb : List Byte} {width : Word} {n : Nat} (hw : s.mem.wf = true)
    (hok : BlocksOk c s) (hlt : s.seq.blk < s.nblkTotal) (hn : s.outWidth c = n) (hlen : out.length = n)
    (hbus : busErrIn s.plat true (s.dstBlock c) n = true) : FailsWriting c s (finishBlock c (afterRead s c) out cb width) n := by
  subst hn
  have hmo := (memoryOnly_afterRead s c).drawRange (s.dstBlock c) (s.outWidth c)
  have hstep : finishBlock c (afterRead s c) out cb width =
      raiseBlock c ((afterRead s c).drawRange (s.dstBlock c) (s.outWidth c)) .busError := by
    have hwrite : dmaWrite (afterRead s c) (s.dstBlock c) out = .busError ((afterRead s c).drawRange (s.dstBlock c) out.length) :=
      dmaWrite_busError (by rw [hlen]; exact dstBlock_fits hok hlt) (by rw [hlen]; exact hbus)
    rw [← hlen, finishBlock, show (afterRead s c).dstBlock c = s.dstBlock c from rfl, hwrite]
  have hown : sameOutside s ((afterRead s c).drawRange (s.dstBlock c) (s.outWidth c)) (s.dstBlock c) (s.outWidth c) :=
    sameOutside_drawRange (s := afterRead s c) hw _ _
  obtain ⟨hat, hroom⟩ := dstBlock_range hok hlt
  obtain ⟨hends, hhdr, hoperands, hstream, hdone, hresult⟩ := blockError_blockFailed (c := c) hmo .busError
  refine ⟨_, hstep, hends, hhdr, hoperands, hstream, hdone.trans hok.blk.symm, hresult, ?keeps, ?own⟩
  case keeps =>
    exact keepsDone_blockFailed hmo (fun hm => drawRange_wf (s := afterRead s c) hm _ _)
      (fun _ => sameOutside_mono hown (by omega) (by omega)) (fun _ => hown)
  case own =>
    exact fun hr hp y hy => (congrArg (Memory.get · y) (blockFailed_mem hmo hr hp)).trans (hown y hy)

/-! ### The statements -/

theorem modexp_eq_pow_mod (b x n : Nat) : modexp b x n = b ^ x % n := by
  rw [modexp, modexpLoop_eq _ _ _ _ _ (Nat.mod_mod 1 n), Nat.mod_eq_of_lt (lt_pow_bitLen x)]
  calc 1 % n * (b % n) ^ x % n = 1 * b ^ x % n := (Nat.mod_modEq 1 n).mul ((Nat.mod_modEq b n).pow x)
    _ = b ^ x % n := by rw [Nat.one_mul]

theorem decValue_eq {c : StreamOp} (hc : c.dec = true) (s : State) :
    decValue s c = beNat (s.sourceBytes c) ^ s.valD % s.valN := by
  rw [decValue, modexp_eq_pow_mod, State.exponent, hc, if_pos rfl]

theorem chainXor_length {s : State} {c : StreamOp} {pb : List Byte} (h : pb.length = s.ebs.toNat) :
    (s.chainXor c pb).length = s.ebs.toNat := by
  unfold State.chainXor
  split <;> simp [h]

theorem exec_decBlock {c : StreamOp} {s : State} (hc : c.dec = true) (hrun : s.runs c.op false .blocks)
    (hlt : s.seq.blk < s.nblkTotal) : exec c.instr s = decBlock c s := by
  rw [exec_stream_block hrun hlt, blockStep, hc, if_pos rfl]

theorem exec_encBlock {c : StreamOp} {s : State} (hc : c.dec = false) (hrun : s.runs c.op false .blocks)
    (hlt : s.seq.blk < s.nblkTotal) : exec c.instr s = encBlock c s := by
  rw [exec_stream_block hrun hlt, blockStep, hc, if_neg Bool.false_ne_true]

/-- Settles O36: the read is a block step's first action, whichever way the command goes. -/
theorem blockReadBusError : Obligations.BlockReadBusError := by
  intro c s hrun hok hlt hbus
  have hread : dmaRead s (s.srcBlock c) (s.srcTake c) = .busError s := dmaRead_busError (srcBlock_fits hok hlt) hbus
  have hstep : exec c.instr s = raiseBlock c s .busError := by
    cases hc : c.dec with
    | true => rw [exec_decBlock hc hrun hlt, decBlock, hread]
    | false => rw [exec_encBlock hc hrun hlt, encBlock, hread]
  rw [hstep]
  exact failsUnwritten_raiseBlock hok (memoryOnly_refl s) rfl .busError

/-- Settles O37: the block's value is in range, so the step comes to its write. -/
theorem encWriteBusError : Obligations.EncWriteBusError := by
  intro c s hc hrun hw hok hlt hread hin hbus
  rw [exec_encBlock hc hrun hlt]
  have hwidth : s.outWidth c = s.cwidth.toNat := by rw [State.outWidth, hc, if_neg Bool.false_ne_true]
  rcases encBlock_cases c s with ⟨hover, -⟩ | ⟨-, hbad, -⟩ | ⟨-, hrange, -⟩ | ⟨-, -, cb, hcb, e⟩
  · exact absurd hover (Nat.not_lt.mpr (srcBlock_fits hok hlt))
  · rw [hread] at hbad
    cases hbad
  · exact absurd hrange (Nat.not_le.mpr hin)
  · rw [e]
    exact failsWriting_finishBlock hw hok hlt hwidth (by rw [hcb, beBytes_length]) hbus

/-- Settles O35: `decBlock`'s checks in their order, and its write. -/
theorem decErrors : Obligations.DecErrors := by
  intro c s hc hrun hok hlt hread
  rw [exec_decBlock hc hrun hlt, ← decValue_eq hc]
  have hwidth : s.outWidth c = s.ebs.toNat := by rw [State.outWidth, hc, if_pos rfl]
  have hafter := memoryOnly_afterRead s c
  rcases decBlock_cases c s with ⟨hover, -⟩ | ⟨-, hbad, -⟩ | ⟨-, hcrange, e⟩ | ⟨-, hin, hoverflow, e⟩ | ⟨-, hin, hsmall, e⟩
  · exact absurd hover (Nat.not_lt.mpr (srcBlock_fits hok hlt))
  · rw [hread] at hbad
    cases hbad
  · rw [e]
    refine ⟨fun _ => ?_, fun _ hin => absurd hcrange (Nat.not_le.mpr hin)⟩
    rw [if_pos hcrange]
    exact failsUnwritten_raiseBlock hok hafter rfl .encCRange
  · rw [e]
    refine ⟨fun _ => ?_, fun _ _ hsmall => absurd hoverflow (Nat.not_le.mpr hsmall)⟩
    rw [if_neg (Nat.not_le.mpr hin)]
    exact failsUnwritten_raiseBlock hok hafter rfl .encOverflow
  · rw [e]
    refine ⟨fun h => ?_, fun hw _ _ hbus => ?_⟩
    · rcases h with h | h <;> omega
    · exact failsWriting_finishBlock hw hok hlt hwidth (chainXor_length (beBytes_length _ _)) hbus

end Sys2Proof.Proofs
end

section
/-! PROOF. What the engine touches of memory (spec/20_memory.md R87, R89): under the invariant its step ends in a next state that
has every byte outside the running command's destination as before, so it never leaves the address space. -/

namespace Sys2Proof.Proofs

open Sys2Proof.Machine Sys2Proof.Laws

/-! ### Updates that stay in a range -/

theorem sameOutside_trans {s t u : State} {a n : Nat} (h : sameOutside s t a n) (h' : sameOutside t u a n) :
    sameOutside s u a n := fun y hy => (h' y hy).trans (h y hy)

theorem sameOutside_dmaPut {s : State} (hw : s.mem.wf = true) {a : Nat} {bs : List Byte}
    (h : a + bs.length ≤ Config.addressSpace) : sameOutside s (s.dmaPut a bs) a bs.length :=
  fun _ hy => get_setBytes_outside hw h hy

theorem sameOutside_drawAhead {s : State} (hw : s.mem.wf = true) (c : StreamOp) :
    sameOutside s (s.drawAhead c) s.dstAddr.toNat s.outReq.toNat :=
  fun _ hy => drawAhead_get hw (by omega)

theorem sameOutside_settleRaces {s : State} (hw : s.mem.wf = true) :
    sameOutside s s.settleRaces s.dstAddr.toNat s.dstSpan := fun _ hy => settleRaces_get hw hy

/-- The step answers a next state that has every byte outside `[a, a+n)` as before. -/
def Within (s : State) (a n : Nat) (r : StepResult) : Prop := ∃ t, r = .next t ∧ sameOutside s t a n

theorem within_next {s u : State} {a n : Nat} (h : sameOutside s u a n) : Within s a n (.next u) := ⟨u, rfl, h⟩

/-- `u` is reached inside the step from `s`: the command's destination is `[a, a+n)`, and no byte outside it has changed. -/
structure InDst (s u : State) (a n : Nat) : Prop where
  same : sameOutside s u a n
  wf   : u.mem.wf = true
  addr : u.dstAddr.toNat = a
  span : u.dstSpan = n

namespace InDst

variable {s u v : State} {a n : Nat}

theorem refl (hw : s.mem.wf = true) : InDst s s s.dstAddr.toNat s.dstSpan := ⟨fun _ _ => rfl, hw, rfl, rfl⟩

theorem of_mem (h : InDst s u a n) (hmem : v.mem = u.mem) (haddr : v.dstAddr = u.dstAddr) (hspan : v.dstSpan = u.dstSpan) :
    InDst s v a n :=
  ⟨sameOutside_trans h.same (sameOutside_of_mem hmem a n), hmem ▸ h.wf, haddr ▸ h.addr, hspan.trans h.span⟩

theorem drawRange (h : InDst s u a n) {b m : Nat} (hlo : a ≤ b) (hhi : b + m ≤ a + n) : InDst s (u.drawRange b m) a n :=
  ⟨sameOutside_trans h.same (sameOutside_mono (sameOutside_drawRange h.wf b m) hlo hhi), drawRange_wf h.wf b m, h.addr, h.span⟩

theorem dmaPut (h : InDst s u a n) {b : Nat} {bs : List Byte} (hlo : a ≤ b) (hhi : b + bs.length ≤ a + n)
    (hfits : b + bs.length ≤ Config.addressSpace) : InDst s (u.dmaPut b bs) a n :=
  ⟨sameOutside_trans h.same (sameOutside_mono (sameOutside_dmaPut h.wf hfits) hlo hhi), wf_setBytes h.wf hfits, h.addr, h.span⟩

theorem drawAhead (h : InDst s u a n) (hout : u.outReq.toNat = n) (c : StreamOp) : InDst s (u.drawAhead c) a n where
  same := sameOutside_trans h.same (h.addr ▸ hout ▸ sameOutside_drawAhead h.wf c)
  wf := drawAhead_wf h.wf
  addr := by rw [drawAhead_dstAddr, h.addr]
  span := by rw [drawAhead_dstSpan, h.span]

theorem raise (h : InDst s u a n) (code : ErrCode) (info : Word) : Within s a n (.next (u.raise code info)) :=
  within_next (sameOutside_trans h.same (h.addr ▸ h.span ▸ sameOutside_settleRaces h.wf))

theorem complete (h : InDst s u a n) : Within s a n (.next u.complete) :=
  within_next (sameOutside_trans h.same (h.addr ▸ h.span ▸ sameOutside_settleRaces h.wf))

theorem raiseBlock (h : InDst s u a n) (hout : u.outReq.toNat = n) (c : StreamOp) (code : ErrCode) :
    Within s a n (raiseBlock c u code) := (h.drawAhead hout c).raise _ _

theorem enterBlocks (h : InDst s u a n) (hout : u.outReq.toNat = n) (c : StreamOp) : Within s a n (enterBlocks c u) := by
  obtain ⟨hsame, hw, rfl, -⟩ := h
  subst hout
  exact within_next (sameOutside_trans hsame
    (sameOutside_drawAhead (s := { u with seq := { u.seq with phase := .blocks, blk := 0 } }) hw c))

end InDst

/-! ### The start step (R190, R204) -/

/-- The IV header lies in its range, which the start step has checked (R197, R198). -/
theorem header_fits {c : StreamOp} {s : State} {p : Plan} {cw : Nat}
    (hp : plan c s.ivhdr s.srcLen.toNat s.ebs.toNat cw = some p)
    (hr : badRange s.srcAddr.toNat s.srcLen.toNat s.dstAddr.toNat p.out s.dstCap.toNat = false) :
    HeaderFits c s ∧ (c = .cbcEnc → s.ivhdr = true → s.ebs.toNat ≤ p.out) := by
  obtain ⟨hsrc, -, hdst, -⟩ := badRange_eq_false.mp hr
  have henc (hc : c = .cbcEnc) (hi : s.ivhdr = true) : s.ebs.toNat ≤ p.out := by
    subst hc
    obtain ⟨hhdr, -, hout⟩ := plan_enc rfl hp
    simp only [StreamOp.cbc, hi, Bool.and_self, if_true] at hhdr
    omega
  have hdec (hc : c = .cbcDec) (hi : s.ivhdr = true) : s.ebs.toNat ≤ s.srcLen.toNat := by
    subst hc
    obtain ⟨hhdr, hlen, -⟩ := plan_dec rfl hp
    simp only [StreamOp.cbc, hi, Bool.and_self, if_true] at hhdr
    omega
  refine ⟨⟨fun hc hi => ?_, fun hc hi => ?_⟩, henc⟩
  · have := henc hc hi
    omega
  · have := hdec hc hi
    omega

/-- Chain initialisation touches its header's bytes and, with ECB_PARALLEL, the blocks' (R204, R213). -/
theorem within_chainInit {c : StreamOp} {s u : State} {a n : Nat} (h : InDst s u a n) (hout : u.outReq.toNat = n)
    (hfits : HeaderFits c u) (hin : c = .cbcEnc → u.ivhdr = true → u.ebs.toNat ≤ n) : Within s a n (chainInit c u) := by
  rcases chainInit_cases c u with ⟨-, e⟩ | ⟨-, -, e⟩ | ⟨rfl, hi, u1, hu1, e⟩ | ⟨rfl, hi, e⟩ <;> rw [e]
  · exact h.enterBlocks hout c
  · have h1 : InDst s (u.clearChain.setChain u.ivBytes) a n := h.of_mem rfl rfl (by simp)
    exact h1.enterBlocks hout c
  · have h1 : InDst s u1 a n := by subst hu1; exact h.of_mem rfl rfl (by simp)
    have hout1 : u1.outReq.toNat = n := by rw [hu1]; exact hout
    have hlo : a ≤ u.dstAddr.toNat := h.addr.ge
    have hhi : u.dstAddr.toNat + u.ivBytes.length ≤ a + n := by
      rw [ivBytes_length, h.addr]
      exact Nat.add_le_add_left (hin rfl hi) a
    have hroom : u.dstAddr.toNat + u.ivBytes.length ≤ Config.addressSpace := by
      rw [ivBytes_length]
      exact hfits.1 rfl hi
    rcases dmaWrite_cases u1 u.dstAddr.toNat u.ivBytes with ⟨hover, -⟩ | ⟨-, -, e⟩ | ⟨-, -, e⟩
    · exact absurd hover (Nat.not_lt.mpr hroom)
    · rw [e]
      exact (h1.drawRange hlo hhi).raise _ _
    · rw [e]
      have h2 : InDst s { u1.dmaPut u.dstAddr.toNat u.ivBytes with dstLen := u1.ebs } a n :=
        (h1.dmaPut hlo hhi hroom).of_mem rfl rfl rfl
      exact h2.enterBlocks hout1 _
  · have h1 : InDst s u.clearChain a n := h.of_mem rfl rfl (by simp)
    rcases dmaRead_cases u.clearChain u.srcAddr.toNat u.ebs.toNat with ⟨hover, -⟩ | ⟨-, -, e⟩ | ⟨-, -, e⟩
    · exact absurd hover (Nat.not_lt.mpr (hfits.2 rfl hi))
    · rw [e]
      exact h1.raise _ _
    · rw [e]
      have h2 (header : List Byte) :
          InDst s (State.setChain { u.clearChain with draws := u.clearChain.draws + u.ebs.toNat } header) a n :=
        h1.of_mem rfl rfl rfl
      exact (h2 _).enterBlocks hout _

/-- A start step touches nothing where a check refuses the command, and else what chain initialisation touches. -/
theorem within_streamStart {c : StreamOp} {s : State} (hw : s.mem.wf = true) (hb : s.busy = true) (hop : s.seq.op = c.op) :
    Within s s.dstAddr.toNat s.dstSpan (streamStart c s) := by
  have hwidths : InDst s (startWidths s) s.dstAddr.toNat s.dstSpan := (InDst.refl hw).of_mem rfl rfl (startWidths_dstSpan s)
  have hsizes : InDst s (startSizes s) s.dstAddr.toNat s.dstSpan := (InDst.refl hw).of_mem rfl rfl (startSizes_dstSpan s)
  rcases streamStart_cases c s with ⟨-, e⟩ | ⟨-, -, e⟩ | ⟨-, -, -, e⟩ | ⟨p, hmod, hsize, hplan, h⟩
  · rw [e]; exact hwidths.raise _ _
  · rw [e]; exact hsizes.raise _ _
  · rw [e]; exact hsizes.raise _ _
  have hplanned : InDst s ((startSizes s).setPlan p) s.dstAddr.toNat s.dstSpan := hsizes.of_mem rfl rfl (setPlan_dstSpan _ p)
  rcases h with ⟨-, e⟩ | ⟨hrange, e⟩ <;> rw [e]
  · exact hplanned.raise _ _
  · have hspan : s.dstSpan = p.out := (dstSpan_start hb hop hmod hsize hplan hrange).2
    have hout : ((startSizes s).setPlan p).outReq.toNat = p.out := by
      have hmax := (badRange_eq_false.mp hrange).2.1
      have hlt : p.out < 2 ^ 32 := by
        simp only [Config.outReqMax] at hmax
        omega
      rw [setPlan_outReq, Nat.min_eq_left hmax, BitVec.toNat_ofNat, Nat.mod_eq_of_lt hlt]
    have hivhdr : ((startSizes s).setPlan p).ivhdr = s.ivhdr := by simp [State.ivhdr]
    obtain ⟨hfits, hin⟩ := header_fits (s := (startSizes s).setPlan p) (by simpa [hivhdr] using hplan) (by simpa using hrange)
    rw [hspan] at hplanned ⊢
    exact within_chainInit hplanned hout hfits hin

/-! ### The block steps (R205 to R208) -/

/-- The write of a block that fits its place in the destination (R86, R198). -/
theorem within_finishBlock {c : StreamOp} {s : State} {out cb : List Byte} {width : Word}
    (h : InDst s (afterRead s c) s.dstAddr.toNat s.outReq.toNat) (hok : BlocksOk c s) (hlt : s.seq.blk < s.nblkTotal)
    (hlen : out.length = s.outWidth c) :
    Within s s.dstAddr.toNat s.outReq.toNat (finishBlock c (afterRead s c) out cb width) := by
  obtain ⟨hat, hroom⟩ := dstBlock_range hok hlt
  have hfits : s.dstBlock c + out.length ≤ Config.addressSpace := by rw [hlen]; exact dstBlock_fits hok hlt
  have hlo : s.dstAddr.toNat ≤ s.dstBlock c := by omega
  have hhi : s.dstBlock c + out.length ≤ s.dstAddr.toNat + s.outReq.toNat := by omega
  rcases finishBlock_cases c (afterRead s c) out cb width with ⟨hover, -⟩ | ⟨-, -, e⟩ | ⟨-, -, e⟩
  · exact absurd hover (Nat.not_lt.mpr hfits)
  · rw [e]
    exact (h.drawRange hlo hhi).raiseBlock rfl c _
  · rw [e]
    have hdone : InDst s ((((afterRead s c).dmaPut (s.dstBlock c) out).chainUpdate c cb).blockDone width)
        s.dstAddr.toNat s.outReq.toNat := (h.dmaPut hlo hhi hfits).of_mem (by simp) (by simp) (by simp)
    exact within_next (hdone.drawAhead (by simp) c).same

theorem within_blockStep {c : StreamOp} {s : State} (hw : s.mem.wf = true) (hok : BlocksOk c s) (hlt : s.seq.blk < s.nblkTotal)
    (hspan : s.dstSpan = s.outReq.toNat) : Within s s.dstAddr.toNat s.outReq.toNat (blockStep c s) := by
  have h : InDst s s s.dstAddr.toNat s.outReq.toNat := hspan ▸ InDst.refl hw
  have hread : InDst s (afterRead s c) s.dstAddr.toNat s.outReq.toNat := h.of_mem rfl rfl (afterRead_dstSpan s c)
  have hfits := Nat.not_lt.mpr (srcBlock_fits hok hlt)
  unfold blockStep
  cases hc : c.dec with
  | true =>
    rw [if_pos rfl]
    rcases decBlock_cases c s with ⟨hover, -⟩ | ⟨-, -, e⟩ | ⟨-, -, e⟩ | ⟨-, -, -, e⟩ | ⟨-, -, -, e⟩
    · exact absurd hover hfits
    · rw [e]; exact h.raiseBlock rfl c _
    · rw [e]; exact hread.raiseBlock rfl c _
    · rw [e]; exact hread.raiseBlock rfl c _
    · rw [e]
      refine within_finishBlock hread hok hlt ?_
      rw [chainXor_length (beBytes_length _ _), State.outWidth, hc, if_pos rfl]
  | false =>
    rw [if_neg Bool.false_ne_true]
    rcases encBlock_cases c s with ⟨hover, -⟩ | ⟨-, -, e⟩ | ⟨-, -, e⟩ | ⟨-, -, cb, hcb, e⟩
    · exact absurd hover hfits
    · rw [e]; exact h.raiseBlock rfl c _
    · rw [e]; exact hread.raiseBlock rfl c _
    · rw [e]
      refine within_finishBlock hread hok hlt ?_
      rw [hcb, beBytes_length, State.outWidth, hc, if_neg Bool.false_ne_true]

/-! ### The engine's step (R146) -/

theorem within_streamEngine {c : StreamOp} {s : State} (hi : Inv s) (hb : s.busy = true) (hop : s.seq.op = c.op) :
    Within s s.dstAddr.toNat s.dstSpan (streamEngine c (blockStep c) s) := by
  rcases streamEngine_cases c s with ⟨-, e⟩ | ⟨hp, hlt, e⟩ | ⟨-, -, e⟩ | ⟨-, -, e⟩ | ⟨-, e⟩ <;> rw [e]
  · exact within_streamStart hi.mem hb hop
  · obtain ⟨c', hop', hok⟩ := hi.seq.blocks hp
    obtain rfl : c' = c := streamOp_op_injective (hop'.symm.trans hop)
    have hspan := dstSpan_blocks hok hp hop
    rw [hspan]
    exact within_blockStep hi.mem hok hlt hspan
  · exact (InDst.refl hi.mem).complete
  · exact within_next (sameOutside_of_mem rfl _ _)
  · exact within_next (sameOutside_of_mem rfl _ _)

theorem within_modexpEngine {s : State} (hw : s.mem.wf = true) (x : Nat) :
    Within s s.dstAddr.toNat s.dstSpan (modexpEngine x s) := by
  have hstart : Within s s.dstAddr.toNat s.dstSpan (.next (modexpStart s)) := by
    have h : InDst s s.updateWidths s.dstAddr.toNat s.dstSpan := (InDst.refl hw).of_mem rfl rfl (updateWidths_dstSpan s)
    unfold modexpStart
    simp only
    split
    · exact h.raise _ _
    · exact within_next (sameOutside_of_mem rfl _ _)
  have hcompute : InDst s { s with result := BitVec.ofNat 8192 (modexp s.valBase x s.valN) } s.dstAddr.toNat s.dstSpan :=
    (InDst.refl hw).of_mem rfl rfl rfl
  unfold modexpEngine
  split
  · exact hstart
  · exact hcompute.complete
  · exact within_next (sameOutside_of_mem rfl _ _)
  · exact within_next (sameOutside_of_mem rfl _ _)

/-- The engine's step is performed and stays in the running command's destination. -/
theorem within_engineStep {s : State} (hi : Inv s) (ht : s.turn = .engine) :
    Within s s.dstAddr.toNat s.dstSpan (engineStep s) := by
  rcases engineStep_cases s with ⟨i, hb, hd, e⟩ | ⟨-, e⟩ <;> rw [e]
  swap
  · exact within_next (sameOutside_of_mem rfl _ _)
  rcases decodeOp_kind hd with ⟨rfl, hop, he⟩ | ⟨hmod, hop⟩ | ⟨c, rfl, hop, he⟩
  · rw [exec, execNop, command_engine ht, if_pos ⟨hop, he⟩]
    split
    · exact (InDst.refl hi.mem).complete
    all_goals exact within_next (sameOutside_of_mem rfl _ _)
  · obtain ⟨x, ex⟩ := exec_modexp_engine hmod ht hop
    rw [ex]
    exact within_modexpEngine hi.mem x
  · rw [exec_stream, command_engine ht, if_pos ⟨hop, he⟩]
    exact within_streamEngine hi hb hop

theorem inv_taking {s : State} (hi : Inv s) (who : Agent) (rest : List Move) : Inv (s.taking who rest) :=
  (keepsBlock_taking s who rest).inv hi

/-- Settles O56: an engine move is `engineStep` on the state with the move taken. -/
theorem engineWritesOnlyDestination : Obligations.EngineWritesOnlyDestination := by
  intro s t hi hnext h
  rcases step_cases s with ⟨rest, -, e⟩ | ⟨x, rest, hs, -⟩ | ⟨rest, hs, -⟩
  · obtain ⟨t', e', hsame⟩ := within_engineStep (inv_taking hi .engine rest) rfl
    rw [e, e'] at h
    cases h
    exact hsame
  all_goals simp [hs] at hnext

/-! ### The host's step -/

/-- The step answers a next state, or stops on a host access past the top of memory (R80). -/
def NextOrHostOutside (r : StepResult) : Prop := (∃ t, r = .next t) ∨ r = .fault .hostOutside

theorem exec_host_next (i : Instr) {s : State} (ht : s.turn = .host) : ∃ t, exec i s = .next t := by
  by_cases hf : i.format = .cmd32
  · exact ⟨_, exec_host hf ht⟩
  · cases i with
    | ctrlAbort reserved =>
      rw [exec, execCtrlAbort]
      split <;> exact ⟨_, rfl⟩
    | ctrlSrst abort reserved => exact ⟨_, rfl⟩
    | _ => exact absurd rfl hf

theorem writeReg_host_next {s : State} (ht : s.turn = .host) (r : Reg) (v : Word) : ∃ t, writeReg s r v = .next t := by
  rcases writeReg_cases s r v with ⟨i, -, -, e⟩ | ⟨_, -, -, e⟩ | ⟨i, -, -, e⟩ | ⟨-, e⟩ | ⟨-, -, e⟩ <;> rw [e]
  case inl | inr.inr.inl => exact exec_host_next i ht
  all_goals exact ⟨_, rfl⟩

theorem portRead_next (s : State) (addr : Word) (bytes : Nat) : ∃ t, portRead s addr bytes = .next t := by
  obtain ⟨_, _, _, e⟩ := portRead_cases s addr bytes
  exact ⟨_, e⟩

theorem hostStep_nextOrHostOutside {s : State} (ht : s.turn = .host) (h : HostStep) : NextOrHostOutside (hostStep h s) := by
  cases h with
  | portRead addr bytes => exact .inl (portRead_next s addr bytes)
  | portWrite addr lanes =>
    left
    rcases portWrite_cases s addr lanes with ⟨a, e⟩ | ⟨_, r, v, -, -, -, e⟩ <;> rw [hostStep, e]
    · exact ⟨_, rfl⟩
    · exact writeReg_host_next (s := s.answer .ok) ht r v
  | memRead addr len duty =>
    rw [hostStep, hostRead]
    split
    · exact .inr rfl
    · exact .inl ⟨_, rfl⟩
  | memWrite addr data duty =>
    rw [hostStep, hostWrite]
    split
    · exact .inr rfl
    · exact .inl ⟨_, rfl⟩
  | wait => exact .inl (portRead_next _ _ _)
  | barrier | clean addr len | invalidate addr len | sampleIrq => exact .inl ⟨_, rfl⟩

/-- Settles O52: the engine's step is always performed, and a host step stops on the host's own access alone. -/
theorem engineStaysInAddressSpace : Obligations.EngineStaysInAddressSpace := by
  intro s hi
  have key : NextOrHostOutside (step s) := by
    rcases step_cases s with ⟨rest, -, e⟩ | ⟨h, rest, -, e⟩ | ⟨rest, -, e⟩ <;> rw [e]
    · obtain ⟨t, e', -⟩ := within_engineStep (inv_taking hi .engine rest) rfl
      exact .inl ⟨t, e'⟩
    · exact hostStep_nextOrHostOutside rfl h
    · exact .inl ⟨_, rfl⟩
  rcases key with ⟨t, e⟩ | e <;> simp [e]

end Sys2Proof.Proofs
end

section
/-! PROOF. What the two agents see of memory (spec/20_memory.md R85, R93, R94, R97, spec/70_reset_and_hazards.md R311 to R313): an
agent that no lagging write concerns finds the bytes of memory, and the host's duties leave no lagging write. -/

namespace Sys2Proof.Proofs

open Sys2Proof.Machine Sys2Proof.Laws

/-! ### Lists of lagging writes -/

theorem lagging_eq_nil {l : List Lag} {x : Nat} (h : ∀ e ∈ l, e.addr ≠ x) : lagging l x = [] := by
  simpa [lagging] using h

theorem cellsAt_eq_nil {l : List Host.Cell} {x : Nat} (h : ∀ c ∈ l, c.1 ≠ x) : cellsAt l x = [] := by
  simpa [cellsAt] using h

theorem inRange_iff {first len x : Nat} : inRange first len x = true ↔ first ≤ x ∧ x < first + len := by simp [inRange]

theorem mem_lagsOutside {l : List Lag} {first len : Nat} {e : Lag} :
    e ∈ lagsOutside l first len ↔ e ∈ l ∧ ¬ (first ≤ e.addr ∧ e.addr < first + len) := by
  simp [lagsOutside, ← inRange_iff]

/-- A barrier leaves, without coherence alone, what no maintenance has covered and what a dirty line lies over (R97, R318). -/
theorem mem_afterBarrier {p : Config.Platform} {l : List Lag} {e : Lag} :
    e ∈ afterBarrier p l ↔ p.dmaCoherent = false ∧ e ∈ l ∧ (e.dirty = true ∨ e.maintained = false) := by
  unfold afterBarrier
  split
  next h => simp [h]
  next h => simp [h]

/-- Maintenance covers the entries of its range and leaves their addresses and dirty lines. -/
theorem mem_maintain {a n : Nat} {l : List Lag} {e : Lag} (h : e ∈ maintain a n l) :
    ∃ x ∈ l, e.addr = x.addr ∧ e.dirty = x.dirty ∧ (inRange a n e.addr = true → e.maintained = true) := by
  obtain ⟨x, hx, rfl⟩ := List.mem_map.mp h
  refine ⟨x, hx, ?_⟩
  split
  · exact ⟨rfl, rfl, fun _ => rfl⟩
  next hout => exact ⟨rfl, rfl, fun hin => absurd hin hout⟩

/-- After maintenance of a range over which no line is dirty, a barrier leaves none of its entries (R97). -/
theorem outside_of_afterBarrier_maintain {p : Config.Platform} {a n : Nat} {l : List Lag} {e : Lag}
    (hclean : ∀ x ∈ l, inRange a n x.addr = true → x.dirty = false) (h : e ∈ afterBarrier p (maintain a n l)) :
    inRange a n e.addr = false := by
  obtain ⟨-, hmem, hkept⟩ := mem_afterBarrier.mp h
  obtain ⟨x, hx, haddr, hdirty, hmaint⟩ := mem_maintain hmem
  by_contra hin
  have hin : inRange a n e.addr = true := by simpa using hin
  rw [hdirty, hclean x hx (haddr ▸ hin), hmaint hin] at hkept
  simp at hkept

theorem settleLines_clean {a n : Nat} {l : List Lag} {e : Lag} (h : e ∈ settleLines a n l) (hin : inRange a n e.addr = true) :
    e.dirty = false := by
  obtain ⟨x, -, rfl⟩ := List.mem_map.mp h
  by_cases hx : inRange a n x.addr = true
  · rw [if_pos hx]
  · rw [if_neg hx] at hin
    exact absurd hin hx

/-! ### DMA reads (R85, R311, R312) -/

theorem dmaBytes_eq_getBytes {s : State} {a n : Nat}
    (h : ∀ x, a ≤ x → x < a + n → (∀ l ∈ s.unseen, l.addr ≠ x) ∧ ∀ c ∈ s.raced, c.1 ≠ x) (k : Nat) :
    s.dmaBytes k a n = s.mem.getBytes a n := by
  induction n generalizing k a with
  | zero => rfl
  | succ n ih =>
    obtain ⟨hunseen, hraced⟩ := h a le_rfl (by omega)
    have hbyte : s.dmaByte k a = s.mem.get a := by
      rw [State.dmaByte, lagging_eq_nil hunseen, cellsAt_eq_nil hraced]
      rfl
    rw [State.dmaBytes, Memory.getBytes, hbyte, ih fun x h1 h2 => h x (by omega) (by omega)]

/-- A host write stores its bytes and no other, and with its duty is visible at once (R311, R312). -/
theorem hostWrite_spec {s : State} {a : Nat} {bs : List Byte} (duty : Bool)
    (hfits : a + bs.length ≤ Config.addressSpace) (hrel : ∀ x, a ≤ x → x < a + bs.length → s.notReleased x = false) :
    ∃ t, hostWrite s a bs duty = .next t ∧ t.mem = s.mem.setBytes a bs ∧
      (duty = true → t.posted = lagsOutside s.posted a bs.length) := by
  refine ⟨_, by rw [hostWrite, if_neg (Nat.not_lt.mpr hfits)], ?_, ?_⟩
  · rw [answer_mem, landed_of_released _ _ _ hrel]
  · rintro rfl
    rfl

/-- Where no earlier breach left a byte uncertain, a command may not see the posted writes alone (R312, R318). -/
theorem unseenAtCmd_of_clean {s : State} (h : ∀ l ∈ s.lags, l.dirty = false) : s.unseenAtCmd = s.posted := by
  have hnone : (writesOf s.unobserved ++ s.stale).filter (·.dirty) = [] := by
    simp only [List.filter_eq_nil_iff]
    intro l hl
    rw [h l (by rw [State.lags, List.append_assoc]; exact List.mem_append_right _ hl)]
    exact Bool.false_ne_true
  rw [State.unseenAtCmd, hnone, List.append_nil]

/-- Settles O39: each clause keeps lagging writes out of the range, and a DMA read of such a range finds memory. -/
theorem dmaReadsMemory : Obligations.DmaReadsMemory := by
  refine ⟨fun s k a n h => dmaBytes_eq_getBytes h k, ?write, ?barrier, ?clean, ?accept⟩
  case write =>
    intro s a bs duty hw hfits hrel
    obtain ⟨t, e, hmem, hposted⟩ := hostWrite_spec duty hfits hrel
    refine ⟨t, e, ?_, ?_, ?_⟩
    · rw [hmem, getBytes_setBytes hw hfits]
    · intro y hy
      rw [hmem, get_setBytes_outside hw hfits hy]
    · intro hduty l hl
      rw [hposted hduty, mem_lagsOutside] at hl
      omega
  case barrier =>
    intro s
    refine ⟨_, rfl, rfl, fun hcoh => ?_⟩
    rw [answer_posted, barrier_posted, afterBarrier, if_pos hcoh]
  case clean =>
    intro s a n
    refine ⟨(s.clean a.toNat n).answer .ok, ((s.clean a.toNat n).answer .ok).barrier.answer .ok, rfl, rfl, by simp,
      fun l hl => ?_⟩
    rw [answer_posted, barrier_posted, answer_posted, clean_posted] at hl
    have hout : ¬ inRange a.toNat n l.addr = true := by
      rw [outside_of_afterBarrier_maintain (fun x => settleLines_clean) hl]
      exact Bool.false_ne_true
    rw [inRange_iff] at hout
    omega
  case accept =>
    intro i s a n hi ht hb hr hposted hdirty
    refine ⟨_, exec_host hi ht, fun k => ?_⟩
    rw [cmdWrite_idle hb]
    refine dmaBytes_eq_getBytes (s := s.accept _ _) (fun x h1 h2 => ⟨fun l hl hx => ?_, fun c hc => ?_⟩) k
    · rw [accept_unseen, unseenAtCmd_of_clean hdirty] at hl
      have := hposted l hl
      omega
    · rw [accept_raced, hr] at hc
      cases hc

/-! ### Host reads (R311, R313) -/

/-- The host finds the byte of memory at `x`: no destination it may not read yet has it, and no engine write lags there. -/
def SettledAt (s : State) (x : Nat) : Prop :=
  inRange s.dstAddr.toNat s.dstSpan x = false ∧ s.notReleased x = false ∧ ∀ l ∈ s.lags, l.addr ≠ x

theorem hostBytes_eq_getBytes {s : State} {a n : Nat} (h : ∀ x, a ≤ x → x < a + n → SettledAt s x) (k : Nat) :
    s.hostBytes k a n = s.mem.getBytes a n := by
  induction n generalizing k a with
  | zero => rfl
  | succ n ih =>
    obtain ⟨hdst, hrel, hlags⟩ := h a le_rfl (by omega)
    have hbyte : s.hostByte k a = s.mem.get a := by
      rw [State.hostByte, hdst, hrel, lagging_eq_nil hlags]
      rfl
    rw [State.hostBytes, Memory.getBytes, hbyte, ih fun x h1 h2 => h x (by omega) (by omega)]

/-- A host read of bytes that are settled once its duty is done answers memory's bytes and changes no memory. -/
theorem hostRead_eq {s : State} {a n : Nat} {duty : Bool} (hfits : a + n ≤ Config.addressSpace)
    (h : ∀ x, a ≤ x → x < a + n → SettledAt (if duty then s.orderReads a n else s) x) :
    ∃ t, hostRead s a n duty = .next t ∧ t.resp = .bytes (s.mem.getBytes a n) ∧ t.mem = s.mem ∧ t.seq = s.seq := by
  refine ⟨_, by rw [hostRead, if_neg (Nat.not_lt.mpr hfits)], ?_, ?_, ?_⟩
  · cases duty <;> exact congrArg Response.bytes (hostBytes_eq_getBytes h _)
  · cases duty <;> rfl
  · cases duty <;> rfl

/-! ### What the host owns (R93, R94, R313) -/

theorem mem_writesOf {l : List Ended} {x : Lag} : x ∈ writesOf l ↔ ∃ e ∈ l, x ∈ e.writes := List.mem_flatMap

theorem mem_lags {s : State} {l : Lag} : l ∈ s.lags ↔ l ∈ s.written ++ writesOf s.unobserved ∨ l ∈ s.stale := List.mem_append

/-- With no destination withheld and no engine write in view but observed ones, every byte is the host's. -/
theorem hostOwns_of_released {s : State} (hspan : s.dstSpan = 0) (hends : s.unobserved = []) (hwritten : s.written = [])
    (hstale : ∀ l ∈ s.stale, l.dirty = false) (a n : Nat) : s.hostOwns a n := by
  intro x _ _
  refine ⟨?_, by rw [State.notReleased, hends]; rfl, by simp [hends, hwritten, writesOf], fun l hl _ => hstale l hl⟩
  rw [hspan, Bool.eq_false_iff, ne_eq, inRange_iff]
  omega

/-- What the host is left to order its reads after lagged before the observation. -/
theorem mem_lags_of_observe_stale {s : State} {f : BitVec 3 → Bool} {l : Lag} (h : l ∈ (s.observe f).stale) : l ∈ s.lags := by
  rw [observe_stale, List.mem_append, mem_writesOf] at h
  rw [mem_lags, List.mem_append, mem_writesOf]
  rcases h with ⟨e, he, hl⟩ | hl
  · exact .inl (.inr ⟨e, List.mem_of_mem_filter he, hl⟩)
  · exact .inr hl

/-- An owned byte is settled once no entry of `stale` lags there; the host's maintenance only marks the others. -/
theorem settledAt_of_hostOwns {s t : State} {a n x : Nat} (h : s.hostOwns a n) (hlo : a ≤ x) (hhi : x < a + n)
    (hdst : t.dstAddr = s.dstAddr) (hspan : t.dstSpan = s.dstSpan) (hrel : t.notReleased x = s.notReleased x)
    (haddr : ∀ l ∈ t.written ++ writesOf t.unobserved, ∃ k ∈ s.written ++ writesOf s.unobserved, l.addr = k.addr)
    (hstale : ∀ l ∈ t.stale, l.addr ≠ x) : SettledAt t x := by
  obtain ⟨hin, hnot, hwrites, -⟩ := h x hlo hhi
  refine ⟨by rw [hdst, hspan, hin], hrel.trans hnot, fun l hl => ?_⟩
  rcases mem_lags.mp hl with hl | hl
  · obtain ⟨k, hk, e⟩ := haddr l hl
    exact e ▸ hwrites k hk
  · exact hstale l hl

theorem settledAt_answer (s : State) (r : Response) (x : Nat) : SettledAt (s.answer r) x ↔ SettledAt s x := Iff.rfl

theorem barrier_answer (s : State) (r : Response) : (s.answer r).barrier = s.barrier.answer r := rfl

theorem settledAt_orderReads {s : State} {a n x : Nat} (h : s.hostOwns a n) (hlo : a ≤ x) (hhi : x < a + n) :
    SettledAt (s.orderReads a n) x := by
  refine settledAt_of_hostOwns h hlo hhi rfl rfl rfl (fun l hl => ⟨l, hl, rfl⟩) ?_
  rintro l hl rfl
  obtain ⟨-, -, -, hclean⟩ := h l.addr hlo hhi
  rw [orderReads_stale, ordered, List.mem_filter, inRange_iff.mpr ⟨hlo, hhi⟩] at hl
  obtain ⟨hmem, hkept⟩ := hl
  rw [hclean l hmem rfl] at hkept
  cases hkept

theorem settledAt_barrier {s : State} {a n x : Nat} (h : s.hostOwns a n) (hlo : a ≤ x) (hhi : x < a + n)
    (hcoh : s.plat.dmaCoherent = true) : SettledAt s.barrier x := by
  refine settledAt_of_hostOwns h hlo hhi rfl rfl rfl (fun l hl => ⟨l, hl, rfl⟩) fun l hl => ?_
  rw [barrier_stale, mem_afterBarrier, hcoh] at hl
  cases hl.1

theorem mem_maintainDirty {a n : Nat} {l : List Lag} {e : Lag} (h : e ∈ maintainDirty a n l) : ∃ x ∈ l, e.addr = x.addr := by
  obtain ⟨x, hx, rfl⟩ := List.mem_map.mp h
  exact ⟨x, hx, by split <;> rfl⟩

/-- Cache maintenance leaves the addresses of the writes it marks. -/
theorem dropLines_addr {s : State} {a n : Nat} {l : Lag}
    (h : l ∈ (s.dropLines a n).written ++ writesOf (s.dropLines a n).unobserved) :
    ∃ k ∈ s.written ++ writesOf s.unobserved, l.addr = k.addr := by
  simp only [List.mem_append, mem_writesOf] at h ⊢
  rcases h with h | ⟨e, he, hl⟩
  · obtain ⟨k, hk, e⟩ := mem_maintainDirty h
    exact ⟨k, .inl hk, e⟩
  · obtain ⟨e', he', rfl⟩ := List.mem_map.mp he
    obtain ⟨k, hk, ek⟩ := mem_maintainDirty hl
    exact ⟨k, .inr ⟨e', he', hk⟩, ek⟩

theorem dropLines_notReleased (s : State) (a n x : Nat) : (s.dropLines a n).notReleased x = s.notReleased x := by
  simp only [State.notReleased, State.dropLines, List.any_map]
  rfl

@[simp] theorem invalidate_unobserved (s : State) (a n : Nat) : (s.invalidate a n).unobserved = (s.dropLines a n).unobserved := rfl

theorem settledAt_invalidate_barrier {s : State} {a n x : Nat} (h : s.hostOwns a n) (hlo : a ≤ x) (hhi : x < a + n) :
    SettledAt (s.invalidate a n).barrier x := by
  refine settledAt_of_hostOwns h hlo hhi (by simp) (by simp) ?_ (fun l hl => dropLines_addr hl) ?_
  · rw [← dropLines_notReleased s a n x, State.notReleased, barrier_unobserved, invalidate_unobserved, State.notReleased]
  rintro l hl rfl
  rw [barrier_stale, invalidate_stale] at hl
  have hout := outside_of_afterBarrier_maintain (fun k hk hin => ?_) hl
  · rw [inRange_iff.mpr ⟨hlo, hhi⟩] at hout
    cases hout
  · obtain ⟨hk1, hk2⟩ := inRange_iff.mp hin
    obtain ⟨-, -, -, hclean⟩ := h k.addr hk1 hk2
    exact hclean k hk rfl

/-! ### A reset leaves no breach behind (R302) -/

/-- No dirty line lies over a byte the engine wrote, or may be found by the command (R97, R318). -/
structure NoDirtyLine (s : State) : Prop where
  written : ∀ l ∈ s.written, l.dirty = false
  ended   : ∀ e ∈ s.unobserved, ∀ l ∈ e.writes, l.dirty = false
  stale   : ∀ l ∈ s.stale, l.dirty = false
  unseen  : ∀ l ∈ s.unseen, l.dirty = false

theorem noDirtyLine_of_lags {s : State} (h : ∀ l ∈ s.lags ++ s.unseen, l.dirty = false) : NoDirtyLine s := by
  simp only [State.lags, List.mem_append, mem_writesOf] at h
  exact ⟨fun l hl => h l (.inl (.inl (.inl hl))), fun e he l hl => h l (.inl (.inl (.inr ⟨e, he, hl⟩))),
    fun l hl => h l (.inl (.inr hl)), fun l hl => h l (.inr hl)⟩

theorem NoDirtyLine.lags {s : State} (h : NoDirtyLine s) : ∀ l ∈ s.lags, l.dirty = false := by
  simp only [State.lags, List.mem_append, mem_writesOf]
  rintro l ((hl | ⟨e, he, hl⟩) | hl)
  exacts [h.written l hl, h.ended e he l hl, h.stale l hl]

theorem lagsOf_dirty {m : Memory} {dirty : Nat → Bool} {a n : Nat} {l : Lag} (h : l ∈ lagsOf m dirty a n) :
    l.dirty = dirty l.addr := by
  induction n generalizing a with
  | zero => cases h
  | succ n ih =>
    rcases List.mem_cons.mp h with rfl | h
    · rfl
    · exact ih h

theorem dirtyAt_eq_false {s : State} (h : NoDirtyLine s) (x : Nat) : s.dirtyAt x = false := by
  rw [State.dirtyAt, List.any_eq_false]
  intro l hl
  simp [h.unseen l hl]

theorem rewritten_dirty {s : State} {a n : Nat} {l : List Lag} (h : ∀ x ∈ l, x.dirty = false) :
    ∀ e ∈ s.rewritten a n l, e.dirty = false := by
  intro e he
  obtain ⟨x, hx, rfl⟩ := List.mem_map.mp he
  split
  · rfl
  · exact h x hx

theorem noDirtyLine_drawRange {s : State} (h : NoDirtyLine s) (a n : Nat) : NoDirtyLine (s.drawRange a n) where
  written l hl := by
    rcases List.mem_append.mp hl with hl | hl
    · rw [lagsOf_dirty hl, dirtyAt_eq_false h]
    · exact h.written l hl
  ended e he := by
    obtain ⟨e', he', rfl⟩ := List.mem_map.mp he
    exact rewritten_dirty (h.ended e' he')
  stale := rewritten_dirty h.stale
  unseen := h.unseen

theorem noDirtyLine_settleRaces {s : State} (h : NoDirtyLine s) : NoDirtyLine s.settleRaces where
  written _ hl := (List.not_mem_nil hl).elim
  ended e he := by
    rw [settleRaces_unobserved, List.mem_append, State.ended] at he
    rcases he with he | he
    · split at he
      · cases he
      · obtain rfl := List.mem_singleton.mp he
        exact h.written
    · exact h.ended e he
  stale := h.stale
  unseen := h.unseen

theorem noDirtyLine_settleReset {s : State} (h : NoDirtyLine s) : NoDirtyLine s.settleReset := by
  unfold State.settleReset
  split
  · exact noDirtyLine_settleRaces (noDirtyLine_drawRange (noDirtyLine_drawRange h _ _) _ _)
  · exact h

theorem hostOwns_resetAction {s : State} (h : NoDirtyLine s) (a n : Nat) : s.resetAction.hostOwns a n :=
  hostOwns_of_released (s := s.resetAction) (dstSpan_idle rfl) rfl rfl
    (fun l hl => (noDirtyLine_settleReset h).lags l (mem_lags_of_observe_stale (f := fun _ => true) hl)) a n

/-- Settles O49: a duty, a barrier or an invalidation settles what the host owns; an observed end and a reset give it every
byte, and acceptance moves nothing but the destination. -/
theorem hostReadsFinalBytes : Obligations.HostReadsFinalBytes := by
  refine ⟨?duty, ?observed, ?accept, ?reset, ?unordered⟩
  case duty =>
    intro s a n h hfits
    exact hostRead_eq hfits fun x hlo hhi => settledAt_orderReads h hlo hhi
  case observed =>
    intro s hi hb hend hclean
    refine ⟨_, portRead_eq s (r := .status) (by rintro w k ⟨⟩), ?_⟩
    exact hostOwns_of_released (s := (s.observe (s.showsEnd .status)).answer _) (dstSpan_idle hb)
      (unobserved_of_statusRead hb hend) (hi.written hb) (fun l hl => hclean l (mem_lags_of_observe_stale hl))
  case accept =>
    intro i s a n hf ht hb h
    refine ⟨_, exec_host hf ht, fun hdst x hlo hhi => ⟨hdst x hlo hhi, ?_⟩⟩
    rw [cmdWrite_idle hb]
    exact (h x hlo hhi).2
  case reset => exact fun s abort reserved h => ⟨_, rfl, hostOwns_resetAction (noDirtyLine_of_lags h)⟩
  case unordered =>
    intro s a n h hfits
    constructor
    · intro hcoh
      obtain ⟨u, e, hresp, hmem, -⟩ := hostRead_eq (s := s.barrier.answer .ok) (duty := false) hfits
        fun x hlo hhi => settledAt_barrier h hlo hhi hcoh
      exact ⟨_, u, rfl, e, hresp, hmem⟩
    · have hsettled (x : Nat) (hlo : a.toNat ≤ x) (hhi : x < a.toNat + n) :
          SettledAt (((s.invalidate a.toNat n).answer .ok).barrier.answer .ok) x := by
        rw [barrier_answer, settledAt_answer, settledAt_answer]
        exact settledAt_invalidate_barrier h hlo hhi
      obtain ⟨v, e, hresp, hmem, -⟩ := hostRead_eq (duty := false) hfits hsettled
      exact ⟨_, _, v, rfl, rfl, e, by simpa using hresp, by simpa using hmem⟩

end Sys2Proof.Proofs
end

section
/-! PROOF. Decoding and encoding (spec/30_encoding.md R110 to R115): a word is its fields, each format's decoder answers an
instruction exactly on that instruction's word, and the four statements from it. -/

namespace Sys2Proof.Proofs

open Sys2Proof.Laws

/-! ### A word is its fields (R111, R115) -/

theorem cmdWord_fields (w : Word) : cmdReserved w ++ BitVec.ofBool (eselField w) ++ opField w = w := by
  ext k hk
  simp only [cmdReserved, eselField, opField, BitVec.getElem_append, BitVec.getElem_extractLsb', BitVec.getElem_ofBool]
  grind

theorem ctrlWord_fields (w : Word) :
    w.extractLsb' 2 30 ++ BitVec.ofBool (w.getLsbD 1) ++ BitVec.ofBool (w.getLsbD 0) = w := by
  ext k hk
  simp only [BitVec.getElem_append, BitVec.getElem_extractLsb', BitVec.getElem_ofBool]
  grind

/-- Two command words with the same fields are the same word. -/
theorem cmdWord_ext {v w : Word} (hop : opField v = opField w) (hesel : eselField v = eselField w)
    (hres : cmdReserved v = cmdReserved w) : v = w := by
  rw [← cmdWord_fields v, hop, hesel, hres, cmdWord_fields]

section Fields
variable (r : BitVec 30) (b1 b0 : Bool)

theorem ctrlWord_srst : (r ++ BitVec.ofBool b1 ++ BitVec.ofBool b0).getLsbD 1 = b1 := by
  rw [BitVec.getLsbD_append, BitVec.getLsbD_append]
  simp

theorem ctrlWord_abort : (r ++ BitVec.ofBool b1 ++ BitVec.ofBool b0).getLsbD 0 = b0 := by
  rw [BitVec.getLsbD_append]
  simp

theorem ctrlWord_ignored : (r ++ BitVec.ofBool b1 ++ BitVec.ofBool b0).extractLsb' 2 30 = r := by
  rw [BitVec.append_assoc, BitVec.cast_eq]
  exact BitVec.extractLsb'_append_eq_left

end Fields

/-- The word of an abort has SRST clear and ABORT set (R115). -/
theorem encode_ctrlAbort (reserved : Nat) :
    encode (.ctrlAbort reserved) = BitVec.ofNat 30 reserved ++ BitVec.ofBool false ++ BitVec.ofBool true := by
  rw [BitVec.append_assoc]
  rfl

theorem encode_ctrlSrst (abort : Bool) (reserved : Nat) :
    encode (.ctrlSrst abort reserved) = BitVec.ofNat 30 reserved ++ BitVec.ofBool true ++ BitVec.ofBool abort := rfl

/-! ### A control word, by its bits 1 and 0 (R115) -/

theorem decodeCtrl_of_srst {w : Word} (h1 : w.getLsbD 1 = true) :
    decodeCtrl w = .instr (.ctrlSrst (w.getLsbD 0) (w.extractLsb' 2 30).toNat) := if_pos h1

theorem decodeCtrl_of_abort {w : Word} (h1 : w.getLsbD 1 = false) (h0 : w.getLsbD 0 = true) :
    decodeCtrl w = .instr (.ctrlAbort (w.extractLsb' 2 30).toNat) := by
  rw [decodeCtrl, if_neg (Bool.eq_false_iff.mp h1), if_pos h0]

theorem decodeCtrl_of_neither {w : Word} (h1 : w.getLsbD 1 = false) (h0 : w.getLsbD 0 = false) :
    decodeCtrl w = .noAction := by
  rw [decodeCtrl, if_neg (Bool.eq_false_iff.mp h1), if_neg (Bool.eq_false_iff.mp h0)]

/-! ### The decoders answer an instruction exactly on its word -/

theorem decodeCmd_encode {i : Instr} (hf : i.format = .cmd32) : decodeCmd (encode i) = .instr i := by
  cases i with
  | ctrlAbort | ctrlSrst => cases hf
  | _ => rfl

theorem decodeCmd_eq_instr_iff {w : Word} {i : Instr} :
    decodeCmd w = .instr i ↔ i.format = .cmd32 ∧ encode i = w := by
  constructor
  · intro h
    obtain ⟨hf, hop, hesel, hres⟩ := decodeCmd_spec h
    obtain ⟨-, -, -, hres'⟩ := decodeCmd_spec (decodeCmd_encode hf)
    exact ⟨hf, cmdWord_ext hop hesel (hres'.trans hres.symm)⟩
  · rintro ⟨hf, rfl⟩
    exact decodeCmd_encode hf

/-- A control action's ignored bits are a 30-bit field, so the word keeps them whole (R115). -/
theorem decodeCtrl_encode {i : Instr} (hf : i.format = .ctrl32) (hwf : i.wellFormed = true) :
    decodeCtrl (encode i) = .instr i := by
  cases i with
  | ctrlAbort reserved =>
    have hlt : reserved < 2 ^ 30 := of_decide_eq_true hwf
    rw [encode_ctrlAbort, decodeCtrl_of_abort (ctrlWord_srst ..) (ctrlWord_abort ..), ctrlWord_ignored,
      BitVec.toNat_ofNat, Nat.mod_eq_of_lt hlt]
  | ctrlSrst abort reserved =>
    have hlt : reserved < 2 ^ 30 := of_decide_eq_true hwf
    rw [encode_ctrlSrst, decodeCtrl_of_srst (ctrlWord_srst ..), ctrlWord_abort, ctrlWord_ignored,
      BitVec.toNat_ofNat, Nat.mod_eq_of_lt hlt]
  | _ => cases hf

theorem decodeCtrl_eq_instr_iff {w : Word} {i : Instr} :
    decodeCtrl w = .instr i ↔ i.format = .ctrl32 ∧ i.wellFormed = true ∧ encode i = w := by
  constructor
  · intro h
    have hlt : (w.extractLsb' 2 30).toNat < 1073741824 := (w.extractLsb' 2 30).isLt
    have hw := ctrlWord_fields w
    cases h1 : w.getLsbD 1 with
    | true =>
      obtain rfl := Decoded.instr.inj ((decodeCtrl_of_srst h1).symm.trans h)
      exact ⟨rfl, decide_eq_true hlt, by rwa [encode_ctrlSrst, BitVec.ofNat_toNat, BitVec.setWidth_eq, ← h1]⟩
    | false =>
      cases h0 : w.getLsbD 0 with
      | true =>
        obtain rfl := Decoded.instr.inj ((decodeCtrl_of_abort h1 h0).symm.trans h)
        exact ⟨rfl, decide_eq_true hlt, by rwa [encode_ctrlAbort, BitVec.ofNat_toNat, BitVec.setWidth_eq, ← h1, ← h0]⟩
      | false => cases (decodeCtrl_of_neither h1 h0).symm.trans h
  · rintro ⟨hf, hwf, rfl⟩
    exact decodeCtrl_encode hf hwf

theorem wellFormed_of_cmd32 {i : Instr} (hf : i.format = .cmd32) : i.wellFormed = true := by
  cases i with
  | ctrlAbort | ctrlSrst => cases hf
  | _ => rfl

/-- In either format a word decodes to an instruction exactly when it is the word of that instruction, well-formed and of that
format (R110, R112, R115). -/
theorem decode_eq_instr_iff {f : Format} {w : Word} {i : Instr} :
    decode f w = .instr i ↔ i.format = f ∧ i.wellFormed = true ∧ encode i = w := by
  cases f with
  | cmd32 => exact decodeCmd_eq_instr_iff.trans (and_congr_right fun hf => (and_iff_right (wellFormed_of_cmd32 hf)).symm)
  | ctrl32 => exact decodeCtrl_eq_instr_iff

/-- The lanes of a word carry it, so its bytes decode as it does (R83). -/
theorem decodeBytes_lanesOf (f : Format) (w : Word) : decodeBytes f (lanesOf w) = decode f w :=
  congrArg (decode f) (wordOfLanes_lanes w)

/-- Settles O2: the lanes carry the word, and `decode` answers the instruction on its word. -/
theorem decodeEncodeAgree : Obligations.DecodeEncodeAgree := by
  intro i hwf
  rw [decodeBytes_lanesOf]
  exact decode_eq_instr_iff.mpr ⟨rfl, hwf, rfl⟩

/-- Settles O3: the other direction of `decode_eq_instr_iff`. -/
theorem encodeDecodeAgree : Obligations.EncodeDecodeAgree :=
  fun _ _ _ => decode_eq_instr_iff.mp

/-! ### Every word has an answer (R114, R115) -/

/-- The seven legal command words of R112 are the words of the CMD32 instructions. -/
theorem mem_cmdWords_iff {w : Word} :
    w ∈ ([0x00000000, 0x00000001, 0x00000011, 0x00000004, 0x00000005, 0x00000006, 0x00000007] : List Word) ↔
      ∃ i : Instr, i.format = .cmd32 ∧ encode i = w := by
  constructor
  · intro hw
    have hlegal : w ∈ [Instr.nop, .modexpE, .modexpD, .ecbEnc, .ecbDec, .cbcEnc, .cbcDec].map encode := hw
    obtain ⟨i, hi, rfl⟩ := List.mem_map.mp hlegal
    have hformat : ∀ j ∈ [Instr.nop, .modexpE, .modexpD, .ecbEnc, .ecbDec, .cbcEnc, .cbcDec], j.format = .cmd32 := by decide
    exact ⟨i, hformat i hi, rfl⟩
  · rintro ⟨i, hf, rfl⟩
    cases i with
    | ctrlAbort | ctrlSrst => cases hf
    | _ => decide

/-- Settles O4: the command words that decode are the words of the CMD32 instructions; a control word is split by its bits 1
and 0. -/
theorem decodeIsTotal : Obligations.DecodeIsTotal := by
  intro w
  refine ⟨?legal, ?answered, fun h1 => ⟨_, _, decodeCtrl_of_srst h1⟩, fun h1 h0 => ⟨_, decodeCtrl_of_abort h1 h0⟩,
    decodeCtrl_of_neither⟩
  case legal => exact (exists_congr fun _ => decodeCmd_eq_instr_iff).trans mem_cmdWords_iff.symm
  case answered =>
    cases hd : decodeCmd w with
    | instr i => exact .inl ⟨i, rfl⟩
    | rejected r => exact .inr ⟨r, rfl⟩
    | noAction => exact absurd hd (decodeCmd_noAction w)

/-- Settles O1: the legal words are those of R112's and R115's instructions; CTRL 0 and the words of I3, I4 and I5 are
evaluated. -/
theorem specWordsDecode : Obligations.SpecWordsDecode :=
  ⟨decodeCmd_encode (i := .nop) rfl, decodeCmd_encode (i := .modexpE) rfl, decodeCmd_encode (i := .modexpD) rfl,
    decodeCmd_encode (i := .ecbEnc) rfl, decodeCmd_encode (i := .ecbDec) rfl, decodeCmd_encode (i := .cbcEnc) rfl,
    decodeCmd_encode (i := .cbcDec) rfl, decodeCtrl_encode (i := .ctrlAbort 0) rfl rfl,
    decodeCtrl_encode (i := .ctrlSrst false 0) rfl rfl, decodeCtrl_encode (i := .ctrlSrst true 0) rfl rfl,
    decodeCtrl_of_neither rfl rfl, by decide, by decide, by decide⟩

end Sys2Proof.Proofs
end

section
/-! PROOF. The command interface (spec/40_command_interface.md): acceptance (R144), the writes to CMD that start nothing (R143,
R145), the engine's move (R146), NOP (R147). -/

namespace Sys2Proof.Proofs

open Sys2Proof.Machine Sys2Proof.Laws

/-! ### A write to CMD (R142, R143, R145) -/

theorem exec_idle {i : Instr} {s : State} (hf : i.format = .cmd32) (ht : s.turn = .host) (hb : s.busy = false) :
    exec i s = .next (s.accept (opField (encode i)) (eselField (encode i))) := by
  rw [exec_host hf ht, cmdWrite_idle hb]

theorem exec_busy {i : Instr} {s : State} (hf : i.format = .cmd32) (ht : s.turn = .host) (hb : s.busy = true) :
    exec i s = .next s.ignoredBusy := by
  rw [exec_host hf ht, cmdWrite_busy hb]

theorem writeCmd_rejected {s : State} {v : Word} {r : Reject} (hd : decodeCmd v = .rejected r) :
    writeCmd s v = .next (if s.busy then s.ignoredBusy else s.illegal (opField v)) := by
  rw [writeCmd, hd]

/-- Settles O7: while idle a command's word is accepted. -/
theorem commandAcceptance : Obligations.CommandAcceptance :=
  fun _ _ hf ht hb => exec_idle hf ht hb

/-- Settles O8: a legal word and an illegal one are ignored alike. -/
theorem busyCommandIgnored : Obligations.BusyCommandIgnored := by
  intro s v ht hb
  show writeCmd s v = .next s.ignoredBusy
  cases hd : decodeCmd v with
  | instr i => rw [writeCmd_instr hd, exec_busy (decodeCmd_spec hd).1 ht hb]
  | noAction => exact absurd hd (decodeCmd_noAction v)
  | rejected r => rw [writeCmd_rejected hd, if_pos hb]

theorem keepsOperands_illegal (s : State) (op : BitVec 4) : KeepsOperands s (s.illegal op) := by constructor <;> rfl

theorem keepsStream_illegal (s : State) (op : BitVec 4) : KeepsStream s (s.illegal op) := by constructor <;> rfl

/-- The sequencer is idle already, so the error leaves it. -/
theorem illegal_seq {s : State} (hb : s.busy = false) (op : BitVec 4) : (s.illegal op).seq = s.seq := by
  show { s.seq with phase := Phase.idle } = s.seq
  rw [← (busy_eq_false_iff s).mp hb]

/-- No command runs, so there is no race to settle (R311). -/
theorem illegal_mem {s : State} (hb : s.busy = false) (op : BitVec 4) : (s.illegal op).mem = s.mem :=
  settleRaces_mem_of_span (s := { s with status := { s.status with lastOp := op } }) (dstSpan_idle hb)

/-- Settles O9: while idle a rejected word raises ILLEGAL_CMD, and no command was running to end. -/
theorem illegalCommand : Obligations.IllegalCommand := by
  intro s v r hb hd
  have hstep : writeCmd s v = .next (s.illegal (opField v)) := by
    rw [writeCmd_rejected hd, if_neg (Bool.eq_false_iff.mp hb)]
  exact ⟨_, hstep, rfl, rfl, rfl, rfl, rfl, rfl, illegal_seq hb _, keepsOperands_illegal s _, keepsStream_illegal s _,
    rfl, rfl, rfl, illegal_mem hb _⟩

/-! ### The engine's move (R146, R147) -/

/-- An engine move, or an empty schedule, is the engine's step. -/
theorem step_engine {s : State} {rest : List Move} (hs : s.schedule = .engine :: rest ∨ (s.schedule = [] ∧ rest = [])) :
    step s = engineStep (s.taking .engine rest) := by
  rcases hs with hs | ⟨hs, rfl⟩ <;> rw [step, takeMove, hs]

theorem engineStep_running {s : State} {i : Instr} (hb : s.busy = true) (hd : decodeOp s.seq.op s.seq.esel = .instr i) :
    engineStep s = exec i s := by
  simp only [engineStep, runningInstr, hb, hd, if_true]

theorem engineStep_idle {s : State} (hb : s.busy = false) : engineStep s = .next s := by
  simp only [engineStep, runningInstr, hb, Bool.false_eq_true, if_false]

/-- Settles O6: the step is `engineStep` on the state with the move taken, which is as busy and runs the same command. -/
theorem stepRunsEngine : Obligations.StepRunsEngine := by
  intro s rest hs
  rw [step_engine hs]
  exact ⟨fun _ hb hd => engineStep_running (s := s.taking .engine rest) hb hd,
    fun hb => engineStep_idle (s := s.taking .engine rest) hb⟩

theorem exec_nop_start {s : State} (h : s.runs 0 false .start) : exec .nop s = .next s.complete := by
  obtain ⟨ht, hop, hesel, hp⟩ := h
  rw [exec, execNop, command_engine ht, if_pos ⟨hop, hesel⟩, hp]

theorem keepsOperands_complete (s : State) : KeepsOperands s s.complete := by constructor <;> rfl

theorem keepsStream_complete (s : State) : KeepsStream s s.complete := by constructor <;> rfl

/-- A command that is no stream command completes with memory unchanged. -/
theorem complete_mem_of_noStream {s : State} (h : streamOf s.seq.op = none) : s.complete.mem = s.mem :=
  settleRaces_mem_of_span (dstSpan_noStream h)

/-- Settles O10: the start step is `complete`, and NOP has no destination. -/
theorem nopCompletes : Obligations.NopCompletes := by
  intro s h
  have hnop : streamOf s.seq.op = none := by
    obtain ⟨-, hop, -⟩ := h
    rw [hop]
    decide
  exact ⟨_, exec_nop_start h, rfl, rfl, rfl, rfl, rfl, rfl, rfl, complete_mem_of_noStream hnop, keepsOperands_complete s,
    keepsStream_complete s⟩

end Sys2Proof.Proofs
end

section
/-! PROOF. The control actions and `rst` (spec/40_command_interface.md R148, R149, spec/70_reset_and_hazards.md R300, R302). -/

namespace Sys2Proof.Proofs

open Sys2Proof.Machine Sys2Proof.Laws

/-! ### CTRL.ABORT (R148) -/

/-- The state an abort raises ABORTED from: the destination bytes of a stream command not counted in DST_LEN are drawn (R148). -/
def abandoned (s : State) : State := if (streamOf s.seq.op).isSome then s.drawPending else s

theorem exec_abort_busy {s : State} (hb : s.busy = true) (reserved : Nat) :
    exec (.ctrlAbort reserved) s = .next ((abandoned s).raise .aborted Config.noBlock) := if_pos hb

theorem exec_abort_idle {s : State} (hb : s.busy = false) (reserved : Nat) : exec (.ctrlAbort reserved) s = .next s :=
  if_neg (Bool.eq_false_iff.mp hb)

theorem abandoned_of_noStream {s : State} (h : streamOf s.seq.op = none) : abandoned s = s := by simp [abandoned, h]

theorem memoryOnly_abandoned (s : State) : MemoryOnly s (abandoned s) := by
  unfold abandoned
  split
  · exact (memoryOnly_refl s).drawRange _ _
  · exact memoryOnly_refl s

theorem sameOutside_abandoned {s : State} (hw : s.mem.wf = true) :
    sameOutside s (abandoned s) (s.dstAddr.toNat + s.dstLen.toNat) (s.outReq.toNat - s.dstLen.toNat) := by
  unfold abandoned
  split
  · exact sameOutside_drawRange hw _ _
  · exact sameOutside_of_mem rfl _ _

section
variable {s u : State} (h : MemoryOnly s u) (code : ErrCode) (info : Word)
include h

/-- An error raised after accesses to memory alone is the running command's (R266). -/
theorem MemoryOnly.endsInError_raise : EndsInError s (u.raise code info) code.code info := by
  obtain ⟨_, _, _, _, _, _, rfl⟩ := h
  constructor <;> rfl

theorem MemoryOnly.keepsOperands_raise : KeepsOperands s (u.raise code info) := by
  obtain ⟨_, _, _, _, _, _, rfl⟩ := h
  constructor <;> rfl

theorem MemoryOnly.keepsStream_raise : KeepsStream s (u.raise code info) := by
  obtain ⟨_, _, _, _, _, _, rfl⟩ := h
  constructor <;> rfl

/-- An error itself writes neither RESULT nor the widths, and leaves `hdr` (R266). -/
theorem MemoryOnly.raise_rest : (u.raise code info).seq.hdr = s.seq.hdr ∧ (u.raise code info).result = s.result ∧
    (u.raise code info).nbits = s.nbits ∧ (u.raise code info).cwidth = s.cwidth := by
  obtain ⟨_, _, _, _, _, _, rfl⟩ := h
  exact ⟨rfl, rfl, rfl, rfl⟩

theorem MemoryOnly.raise_mem (hr : s.raced = []) : (u.raise code info).mem = u.mem := by
  obtain ⟨_, _, _, _, _, _, rfl⟩ := h
  exact settleRaces_mem_of_raced hr

end

/-- Settles O17: while busy the abort draws what is not yet counted in DST_LEN and raises ABORTED. -/
theorem abort : Obligations.Abort := by
  intro s reserved
  refine ⟨fun hb => exec_abort_idle hb reserved, fun hb => ?busy⟩
  case busy =>
    have hm := memoryOnly_abandoned s
    obtain ⟨hhdr, hresult, hnbits, hcwidth⟩ := hm.raise_rest .aborted Config.noBlock
    refine ⟨_, exec_abort_busy hb reserved, hm.endsInError_raise _ _, hhdr, hresult, hnbits, hcwidth,
      hm.keepsOperands_raise _ _, hm.keepsStream_raise _ _, ?pending, ?noStream⟩
    case pending =>
      exact fun hw hr y hy => (congrArg (Memory.get · y) (hm.raise_mem _ _ hr)).trans (sameOutside_abandoned hw y hy)
    case noStream =>
      intro hno
      rw [abandoned_of_noStream hno]
      exact settleRaces_mem_of_span (dstSpan_noStream hno)

/-! ### The reset action (R149, R300, R302) -/

theorem resetAction_readReg (s : State) (r : Reg) :
    s.resetAction.readReg r = ({ State.reset with plat := s.plat } : State).readReg r := by
  cases r <;> rfl

theorem settleReset_of_noStream {s : State} (h : s.busy = false ∨ streamOf s.seq.op = none) : s.settleReset = s := by
  unfold State.settleReset
  rw [if_neg]
  rcases h with h | h <;> simp [h]

theorem resetTo_resetAction (s : State) : ResetTo s s.resetAction where
  regs := resetAction_readReg s
  seq := rfl
  irq := (by decide : State.reset.irq = false)
  plat := rfl
  dst hw _ hy hr := settleReset_get hw (.inr (.inl ⟨hy, hr⟩))
  src hw _ hlo hhi := settleReset_get hw (.inr (.inr ⟨hlo, hhi⟩))
  mem h := congrArg (·.mem) (settleReset_of_noStream h)

theorem step_reset {s : State} {rest : List Move} (hs : s.schedule = .reset :: rest) :
    step s = .next (s.taking .host rest).resetAction := by
  rw [step, takeMove, hs]

/-- What a reset leaves does not depend on the moves to come. -/
theorem resetTo_of_taking {s t : State} {who : Agent} {rest : List Move} (h : ResetTo (s.taking who rest) t) : ResetTo s t :=
  ⟨h.regs, h.seq, h.irq, h.plat, h.dst, h.src, h.mem⟩

/-- Settles O19: SRST and `rst` are the reset action. -/
theorem softReset : Obligations.SoftReset := by
  intro s
  refine ⟨fun _ _ => ⟨_, rfl, resetTo_resetAction s⟩, fun rest hs => ⟨_, step_reset hs, ?_, rfl⟩⟩
  exact resetTo_of_taking (resetTo_resetAction (s.taking .host rest))

end Sys2Proof.Proofs
end

section
/-! PROOF. The operand and configuration registers while a command runs (spec/40_command_interface.md R153). -/

namespace Sys2Proof.Proofs

open Sys2Proof.Machine Sys2Proof.Laws

/-- The operand and configuration registers of R153 are in `t` as in `s`. -/
def SameOperands (s t : State) : Prop :=
  t.n = s.n ∧ t.e = s.e ∧ t.d = s.d ∧ t.base = s.base ∧ t.iv = s.iv ∧ t.cfg = s.cfg ∧ t.blksz = s.blksz ∧
    t.srcAddr = s.srcAddr ∧ t.srcLen = s.srcLen ∧ t.dstAddr = s.dstAddr ∧ t.dstCap = s.dstCap

theorem sameOperands_of_keepsOperands {s t : State} (h : KeepsOperands s t) : SameOperands s t :=
  ⟨h.n, h.e, h.d, h.base, h.iv, h.cfg, h.blksz, h.srcAddr, h.srcLen, h.dstAddr, h.dstCap⟩

theorem sameOperands_blockOf {s t : State} : SameOperands (blockOf s) (blockOf t) ↔ SameOperands s t := Iff.rfl

theorem KeepsBlock.sameOperands {s t : State} (h : KeepsBlock s t) : SameOperands s t := by
  rw [← sameOperands_blockOf, h.block]
  exact ⟨rfl, rfl, rfl, rfl, rfl, rfl, rfl, rfl, rfl, rfl, rfl⟩

theorem Raises.idle {b : Bool} {s t : State} (h : Raises b s t) : t.busy = false := by
  obtain ⟨u, code, info, -, -, rfl⟩ := h
  rfl

theorem keepsOperands_modexpStart (s : State) : KeepsOperands s (modexpStart s) := by
  unfold modexpStart
  simp only
  split <;> constructor <;> rfl

/-- A stream command's step ends the command or keeps its operands. -/
theorem StreamWorks.keepsOperands {c : StreamOp} {s t : State} (h : StreamWorks c s t) (hb : t.busy = true) :
    KeepsOperands s t := by
  rcases h with ⟨-, hr⟩ | ⟨-, p, -, rfl⟩ | ⟨-, -, out, cb, -, rfl⟩
  · exact absurd hb (Bool.eq_false_iff.mp hr.idle)
  · exact keepsOperands_startedState c s p
  · exact keepsOperands_blockEnd c s out cb

theorem sameOperands_engineStep {s t : State} (ht : s.turn = .engine) (h : engineStep s = .next t) (hb : t.busy = true) :
    SameOperands s t := by
  refine sameOperands_of_keepsOperands ?_
  rcases engineStep_next ht h with rfl | ⟨-, rfl⟩ | ⟨-, -, rfl⟩ | ⟨-, -, x, rfl⟩ | ⟨c, -, -, hw⟩
  · constructor <;> rfl
  · cases hb
  · exact keepsOperands_modexpStart s
  · cases hb
  · exact hw.keepsOperands hb

/-- A port write stores an operand in an idle block alone, and what ends or resets a command leaves it idle. -/
theorem sameOperands_writeReg {s t : State} {r : Reg} {v : Word} (ht : s.turn = .host) (hs : s.busy = true)
    (h : writeReg s r v = .next t) (hb : t.busy = true) : SameOperands s t := by
  rcases writeReg_next ht h with hk | hr | ⟨hidle, -⟩ | ⟨hidle, -⟩ | ⟨-, -, rfl⟩
  · exact hk.sameOperands
  · exact absurd hb (Bool.eq_false_iff.mp hr.idle)
  · exact absurd hs (Bool.eq_false_iff.mp hidle)
  · exact absurd hs (Bool.eq_false_iff.mp hidle)
  · cases hb

theorem sameOperands_hostStep {x : HostStep} {s t : State} (ht : s.turn = .host) (hs : s.busy = true)
    (h : hostStep x s = .next t) (hb : t.busy = true) : SameOperands s t := by
  rcases hostStep_next h with hk | ⟨_, _, _, _, _, -, -, -, -, hw⟩
  · exact hk.sameOperands
  · exact sameOperands_writeReg (s := s.answer .ok) ht hs hw hb

/-- Settles O53: of the moves that leave the command running, the engine's and the host's keep every operand. -/
theorem operandsFrozenWhileBusy : Obligations.OperandsFrozenWhileBusy := by
  intro s t hs h hb
  rcases step_cases s with ⟨rest, -, e⟩ | ⟨x, rest, -, e⟩ | ⟨rest, -, e⟩ <;> rw [e] at h
  · exact sameOperands_engineStep (s := s.taking .engine rest) rfl h hb
  · exact sameOperands_hostStep (s := s.taking .host rest) rfl hs h hb
  · cases h
    cases hb

end Sys2Proof.Proofs
end

section
/-! PROOF. The modular-exponentiation commands (spec/41_modexp.md): the value of `modexp` (R170), MODEXP's two steps (R171 to
R173, R180), the RSA inverse law (R179). -/

namespace Sys2Proof.Proofs

open Sys2Proof.Machine Sys2Proof.Laws

/-- Settles O11: the loop over all `bitLen(x)` bits of the exponent is the power. -/
theorem modexpIsPower : Obligations.ModexpIsPower := modexp_eq_pow_mod

/-! ### MODEXP's instruction (R113, R172) -/

/-- The MODEXP instruction of an ESEL (R113). -/
abbrev modexpInstr (esel : Bool) : Instr := if esel then .modexpD else .modexpE

/-- The exponent ESEL selects: `W[D]` or `W[E]` (R113). -/
abbrev modexpExponent (esel : Bool) (s : State) : Nat := if esel then s.valD else s.valE

/-- MODEXP's meaning, in one form for both exponents. -/
theorem exec_modexpInstr (esel : Bool) (s : State) :
    exec (modexpInstr esel) s = command 1 esel (fun u => modexpEngine (modexpExponent esel u) u) s := by cases esel <;> rfl

theorem exec_modexp_running {s : State} {esel : Bool} {p : Phase} (h : s.runs 1 esel p) :
    exec (modexpInstr esel) s = modexpEngine (modexpExponent esel s) s := by
  obtain ⟨ht, hop, hesel, -⟩ := h
  rw [exec_modexpInstr, command_engine ht, if_pos ⟨hop, hesel⟩]

theorem exec_modexp_start {s : State} {esel : Bool} (h : s.runs 1 esel .start) :
    exec (modexpInstr esel) s = .next (modexpStart s) := by
  have ⟨_, _, _, hp⟩ := h
  rw [exec_modexp_running h, modexpEngine, hp]

theorem exec_modexp_compute {s : State} {esel : Bool} (h : s.runs 1 esel .compute) :
    exec (modexpInstr esel) s = .next (modexpCompute (modexpExponent esel s) s) := by
  have ⟨_, _, _, hp⟩ := h
  rw [exec_modexp_running h, modexpEngine, hp]

theorem streamOf_modexp {s : State} {esel : Bool} {p : Phase} (h : s.runs 1 esel p) : streamOf s.seq.op = none := by
  obtain ⟨-, hop, -⟩ := h
  rw [hop]
  decide

/-! ### The start step (R171, R173) -/

theorem modexpStart_pos {s : State} (h : 0 < s.valN) :
    modexpStart s = { s.updateWidths with seq := { s.seq with phase := .compute } } := if_neg h.ne'

theorem modexpStart_zero {s : State} (h : s.valN = 0) : modexpStart s = s.updateWidths.raise .domain Config.noBlock := if_pos h

/-- R171: a modulus of 0 has no bits. -/
theorem updateWidths_zero {s : State} (h : s.valN = 0) : s.updateWidths.nbits = 0 ∧ s.updateWidths.cwidth = 0 := by
  rw [updateWidths_nbits, updateWidths_cwidth, h]
  decide

/-- Settles O12: the start step writes the widths and goes on. -/
theorem modexpStartStep : Obligations.ModexpStartStep := by
  intro s esel h hn
  rw [exec_modexp_start h, modexpStart_pos hn]
  rfl

/-- Settles O13: DOMAIN is raised after the widths are written, and MODEXP has no destination. -/
theorem modexpDomain : Obligations.ModexpDomain := by
  intro s esel h hn
  have hstep : exec (modexpInstr esel) s = .next (s.updateWidths.raise .domain Config.noBlock) := by
    rw [exec_modexp_start h, modexpStart_zero hn]
  have hmem : s.updateWidths.settleRaces.mem = s.mem :=
    settleRaces_mem_of_span (s := s.updateWidths) (dstSpan_noStream (streamOf_modexp h))
  obtain ⟨hnbits, hcwidth⟩ := updateWidths_zero hn
  refine ⟨_, hstep, ?ends, rfl, rfl, hnbits, hcwidth, hmem, ?operands, ?stream⟩
  case ends => constructor <;> rfl
  case operands => constructor <;> rfl
  case stream => constructor <;> rfl

/-! ### The compute step (R172, R180) -/

/-- RESULT holds the whole residue: it is below `W[N]`, and a window holds that (R41). -/
theorem modexpCompute_result {s : State} (x : Nat) (hn : 0 < s.valN) :
    (modexpCompute x s).result.toNat = s.valBase ^ x % s.valN := by
  have hle : s.valN ≤ s.n.toNat := Nat.mod_le _ _
  rw [modexpCompute, complete_result, BitVec.toNat_ofNat, modexp_eq_pow_mod]
  exact Nat.mod_eq_of_lt (((Nat.mod_lt _ hn).trans_le hle).trans s.n.isLt)

/-- The step completes the command with `RESULT = BASE^x mod N` and changes nothing else. -/
def CompletesWithPower (s : State) (r : StepResult) (x : Nat) : Prop :=
  ∃ t, r = .next t ∧ t.result.toNat = s.valBase ^ x % s.valN ∧ t.seq = { s.seq with phase := .idle } ∧
    t.status = { s.status with done := true } ∧ t.intStat = s.intStat ||| 0b001 ∧ t.errInfo = s.errInfo ∧
    t.nbits = s.nbits ∧ t.cwidth = s.cwidth ∧ t.mem = s.mem ∧ KeepsOperands s t ∧ KeepsStream s t

theorem completesWithPower_compute {s : State} {esel : Bool} (h : s.runs 1 esel .compute) (hn : 0 < s.valN) :
    CompletesWithPower s (exec (modexpInstr esel) s) (modexpExponent esel s) := by
  have hmem : (modexpCompute (modexpExponent esel s) s).mem = s.mem :=
    complete_mem_of_noStream (s := { s with result := _ }) (streamOf_modexp h)
  refine ⟨_, exec_modexp_compute h, modexpCompute_result _ hn, rfl, rfl, rfl, rfl, rfl, rfl, hmem, ?operands, ?stream⟩
  case operands => constructor <;> rfl
  case stream => constructor <;> rfl

/-- Settles O14: the compute step with ESEL = 0. -/
theorem modexpEResult : Obligations.ModexpEResult := fun _ h hn => completesWithPower_compute h hn

/-- Settles O15: the compute step with ESEL = 1. -/
theorem modexpDResult : Obligations.ModexpDResult := fun _ h hn => completesWithPower_compute h hn

/-! ### The RSA inverse law (R179) -/

/-- Fermat's little theorem for every base, also one the prime divides. -/
theorem pow_pred_mul_add_one_modEq {p : Nat} (hp : p.Prime) (m k : Nat) : m ^ ((p - 1) * k + 1) ≡ m [MOD p] := by
  by_cases hdvd : p ∣ m
  · exact (Nat.modEq_zero_iff_dvd.mpr (dvd_pow hdvd (Nat.succ_ne_zero _))).trans (Nat.modEq_zero_iff_dvd.mpr hdvd).symm
  · have hfermat : m ^ (p - 1) ≡ 1 [MOD p] := by
      rw [← Nat.totient_prime hp]
      exact Nat.ModEq.pow_totient ((hp.coprime_iff_not_dvd.mpr hdvd).symm)
    calc m ^ ((p - 1) * k + 1) = (m ^ (p - 1)) ^ k * m := by rw [pow_succ, pow_mul]
      _ ≡ 1 ^ k * m [MOD p] := (hfermat.pow k).mul_right m
      _ = m := by rw [one_pow, one_mul]

/-- R30: raising to `e*d` is the identity modulo both primes, so modulo their product. -/
theorem pow_mul_modEq_of_validKey {n e d : Nat} (h : ValidKey n e d) (m : Nat) : m ^ (e * d) ≡ m [MOD n] := by
  obtain ⟨p, q, hp, hq, hne, rfl, hed⟩ := h
  obtain ⟨k, hk⟩ : ∃ k, e * d = (p - 1) * (q - 1) * k + 1 := by
    have hdiv := Nat.div_add_mod (e * d) ((p - 1) * (q - 1))
    rw [hed] at hdiv
    exact ⟨_, hdiv.symm⟩
  refine (Nat.modEq_and_modEq_iff_modEq_mul ((Nat.coprime_primes hp hq).mpr hne)).mp ⟨?modp, ?modq⟩
  case modp =>
    rw [hk, mul_assoc]
    exact pow_pred_mul_add_one_modEq hp m _
  case modq =>
    rw [hk, mul_comm (p - 1), mul_assoc]
    exact pow_pred_mul_add_one_modEq hq m _

/-- Settles O16: the two exponentiations are one, to the power `e*d`. -/
theorem rsaInverseLaw : Obligations.RsaInverseLaw := by
  intro n e d m hkey hm
  calc modexp (modexp m e n) d n = (m ^ e % n) ^ d % n := by simp only [modexp_eq_pow_mod]
    _ = m ^ (e * d) % n := by rw [← Nat.pow_mod, ← pow_mul]
    _ = m % n := pow_mul_modEq_of_validKey hkey m
    _ = m := Nat.mod_eq_of_lt hm

end Sys2Proof.Proofs
end

section
/-! PROOF. The start step of a stream command (spec/42_mode_controller.md R190 to R204, R218): the plan and the range checks, what
each failed check leaves, what chain initialisation leaves of CHAIN and memory. -/

namespace Sys2Proof.Proofs

open Sys2Proof.Machine Sys2Proof.Laws

/-! ### The plan and the range checks (R197, R198) -/

/-- Settles O20: `plan` for each of the four commands; ECB has no header whatever CFG.IVHDR says. -/
theorem blockPlan : Obligations.BlockPlan := by
  intro ivhdr len bs cw
  refine ⟨?ecbEnc, rfl, ?ecbDec, rfl⟩
  case ecbEnc => simp [plan, StreamOp.cbc, StreamOp.dec, ceilDiv]
  case ecbDec => simp [plan, StreamOp.cbc, StreamOp.dec]

/-- Two non-empty ranges share a byte exactly when each begins before the other ends. -/
theorem exists_shared_iff {src len dst out : Nat} :
    (0 < len ∧ 0 < out ∧ ∃ a, src ≤ a ∧ a < src + len ∧ dst ≤ a ∧ a < dst + out) ↔
      0 < len ∧ 0 < out ∧ src < dst + out ∧ dst < src + len := by
  constructor
  · rintro ⟨hlen, hout, a, h⟩
    omega
  · rintro ⟨hlen, hout, h⟩
    exact ⟨hlen, hout, max src dst, by omega⟩

/-- Settles O21: `badRange` tests (a) to (d) as they stand, and (e) by the ends of the two ranges. -/
theorem rangeChecks : Obligations.RangeChecks := by
  intro src len dst out cap
  rw [RangeFault, exists_shared_iff]
  simp only [badRange, Bool.or_eq_true, Bool.and_eq_true, decide_eq_true_eq, or_assoc, and_assoc]
  rfl

/-! ### The sizes of a start step (R171, R193) -/

theorem eq_startSizes_ebs {s : State} {bs : Nat} (h : bs = if s.bssel then s.blksz.toNat else bitLen s.valN / 16) :
    bs = (startSizes s).ebs.toNat := h.trans (startSizes_ebs s).symm

theorem startSizes_cwidth_eq (s : State) : (startSizes s).cwidth.toNat = (bitLen s.valN + 7) / 8 := startSizes_cwidth s

/-! ### The start step by the first check that fails (R190) -/

section
variable {c : StreamOp} {s : State}

theorem streamStart_modulus (h : s.valN ≤ 1) :
    streamStart c s = .next ((startWidths s).raise .encModulus Config.noBlock) := by
  rcases streamStart_cases c s with ⟨-, e⟩ | ⟨hmod, -⟩ | ⟨hmod, -⟩ | ⟨_, hmod, -⟩
  · exact e
  all_goals omega

variable (hmod : 1 < s.valN)
include hmod

theorem streamStart_blockSize (hsize : badBs (startSizes s).ebs.toNat (startSizes s).cwidth.toNat = true) :
    streamStart c s = .next ((startSizes s).raise .cfgBlksz Config.noBlock) := by
  rcases streamStart_cases c s with ⟨h, -⟩ | ⟨-, -, e⟩ | ⟨-, h, -⟩ | ⟨_, -, h, -⟩
  · omega
  · exact e
  all_goals cases hsize.symm.trans h

variable (hsize : badBs (startSizes s).ebs.toNat (startSizes s).cwidth.toNat = false)
include hsize

theorem streamStart_width
    (hplan : plan c s.ivhdr s.srcLen.toNat (startSizes s).ebs.toNat (startSizes s).cwidth.toNat = none) :
    streamStart c s = .next ((startSizes s).raise .encWidth Config.noBlock) := by
  rcases streamStart_cases c s with ⟨h, -⟩ | ⟨-, h, -⟩ | ⟨-, -, -, e⟩ | ⟨_, -, -, h, -⟩
  · omega
  · cases hsize.symm.trans h
  · exact e
  · cases hplan.symm.trans h

variable {p : Plan}
  (hplan : plan c s.ivhdr s.srcLen.toNat (startSizes s).ebs.toNat (startSizes s).cwidth.toNat = some p)
include hplan

theorem streamStart_planned :
    streamStart c s = if badRange s.srcAddr.toNat s.srcLen.toNat s.dstAddr.toNat p.out s.dstCap.toNat = true then
      .next (((startSizes s).setPlan p).raise .cfgRange Config.noBlock) else chainInit c ((startSizes s).setPlan p) := by
  rcases streamStart_cases c s with ⟨h, -⟩ | ⟨-, h, -⟩ | ⟨-, -, h, -⟩ | ⟨p', -, -, h, hrange⟩
  · omega
  · cases hsize.symm.trans h
  · cases hplan.symm.trans h
  · obtain rfl : p' = p := Option.some.inj (h.symm.trans hplan)
    rcases hrange with ⟨h, e⟩ | ⟨h, e⟩ <;> simp [h, e]

end

/-- A command has a destination only where its start step passes every check (R311). -/
theorem startPlan_some {c : StreamOp} {s : State} {p : Plan} (h : startPlan c s = some p) :
    1 < s.valN ∧ badBs (startSizes s).ebs.toNat (startSizes s).cwidth.toNat = false ∧
      plan c s.ivhdr s.srcLen.toNat (startSizes s).ebs.toNat (startSizes s).cwidth.toNat = some p ∧
      badRange s.srcAddr.toNat s.srcLen.toNat s.dstAddr.toNat p.out s.dstCap.toNat = false := by
  have hrange := startPlan_range h
  unfold startPlan at h
  simp only at h
  split at h
  · cases h
  next hmod =>
    split at h
    · cases h
    next hsize =>
      split at h
      · cases h
      next p' hplan =>
        split at h <;> cases h
        exact ⟨Nat.lt_of_not_le hmod, Bool.eq_false_iff.mpr hsize, hplan, hrange⟩

/-- An error is the running command's where the updates before it left the sequencer, STATUS and INT_STAT alone (R266). -/
theorem endsInError_raise {s u : State} (hseq : u.seq = { s.seq with hdr := u.seq.hdr }) (hstatus : u.status = s.status)
    (hint : u.intStat = s.intStat) (code : ErrCode) (info : Word) : EndsInError s (u.raise code info) code.code info where
  seq := by rw [raise_seq, hseq]
  done := rfl
  err := rfl
  lastOp := by rw [raise_status, hstatus]
  errCode := rfl
  errInfo := rfl
  intStat := by rw [raise_intStat, hint]

/-- An error changes no operand (R266). -/
theorem keepsOperands_raise {s u : State} (h : KeepsOperands s u) (code : ErrCode) (info : Word) :
    KeepsOperands s (u.raise code info) :=
  ⟨h.n, h.e, h.d, h.base, h.iv, h.cfg, h.blksz, h.srcAddr, h.srcLen, h.dstAddr, h.dstCap, h.intEn, h.plat⟩

/-! ### What a refused start step leaves (R192 to R199) -/

/-- `u` is `s` but for what a start step writes before the IV header: the widths, the cleared counters, the block size, the
plan. -/
structure Prepares (s u : State) : Prop where
  seq      : u.seq = { s.seq with hdr := u.seq.hdr }
  status   : u.status = s.status
  intStat  : u.intStat = s.intStat
  nbits    : u.nbits.toNat = bitLen s.valN
  cwidth   : u.cwidth.toNat = (bitLen s.valN + 7) / 8
  nblkDone : u.nblkDone = 0
  dstLen   : u.dstLen = 0
  chain    : u.chain = s.chain
  result   : u.result = s.result
  mem      : u.mem = s.mem
  span     : u.dstSpan = s.dstSpan
  operands : KeepsOperands s u

theorem prepares_startSizes (s : State) : Prepares s (startSizes s) := by
  constructor
  case nbits => exact startSizes_nbits s
  case cwidth => exact startSizes_cwidth_eq s
  case operands => constructor <;> simp
  all_goals simp

theorem prepares_startWidths (s : State) : Prepares s (startWidths s) :=
  have h := prepares_startSizes s
  ⟨h.seq, h.status, h.intStat, h.nbits, h.cwidth, h.nblkDone, h.dstLen, h.chain, h.result, h.mem, startWidths_dstSpan s,
    (by constructor <;> simp)⟩

theorem prepares_planned (s : State) (p : Plan) : Prepares s ((startSizes s).setPlan p) :=
  have h := prepares_startSizes s
  ⟨rfl, h.status, h.intStat, h.nbits, h.cwidth, h.nblkDone, h.dstLen, h.chain, h.result, h.mem, h.span,
    (by constructor <;> simp)⟩

/-- The start step ended in error `code` with the widths written, the counters cleared, and nothing done for the stream. -/
structure Refused (s t : State) (code : BitVec 8) : Prop where
  ends     : EndsInError s t code Config.noBlock
  nbits    : t.nbits.toNat = bitLen s.valN
  cwidth   : t.cwidth.toNat = (bitLen s.valN + 7) / 8
  nblkDone : t.nblkDone = 0
  dstLen   : t.dstLen = 0
  chain    : t.chain = s.chain
  result   : t.result = s.result
  mem      : t.mem = s.mem
  operands : KeepsOperands s t

/-- A command that a check refuses has no destination, so its error settles no race (R311). -/
theorem refused_raise {c : StreamOp} {s u : State} (hrun : s.runs c.op false .start) (hnone : ∀ p, startPlan c s ≠ some p)
    (h : Prepares s u) (code : ErrCode) : Refused s (u.raise code Config.noBlock) code.code where
  ends := endsInError_raise h.seq h.status h.intStat code Config.noBlock
  nbits := h.nbits
  cwidth := h.cwidth
  nblkDone := h.nblkDone
  dstLen := h.dstLen
  chain := h.chain
  result := h.result
  mem := by
    obtain ⟨-, hop, -⟩ := hrun
    have hspan : u.dstSpan = 0 := h.span.trans (dstSpan_refused hop (Option.eq_none_iff_forall_ne_some.mpr hnone))
    rw [raise_mem, settleRaces_mem_of_span hspan, h.mem]
  operands := keepsOperands_raise h.operands code Config.noBlock

/-- Settles O25: the modulus is checked before the block size is written. -/
theorem modulusCheck : Obligations.ModulusCheck := by
  intro c s h hmod
  have hnone (p : Plan) (hp : startPlan c s = some p) : False := by
    obtain ⟨hbig, -⟩ := startPlan_some hp
    omega
  obtain ⟨hends, hnbits, hcwidth, hdone, hdst, hchain, hresult, hmem, hoperands⟩ :=
    refused_raise h hnone (prepares_startWidths s) .encModulus
  exact ⟨_, (exec_stream_start h).trans (streamStart_modulus hmod), hends, by simp, hnbits, hcwidth, hdone, hdst, by simp, hchain,
    by simp, by simp, hresult, hmem, hoperands⟩

theorem badBs_eq_true {bs cw : Nat} : badBs bs cw = true ↔ bs = 0 ∨ cw < bs := by simp [badBs]

/-- Settles O26: EBS is written before it is checked. -/
theorem blockSizeCheck : Obligations.BlockSizeCheck := by
  intro c s bs h hmod hbs hbad
  obtain rfl := eq_startSizes_ebs hbs
  have hsize : badBs (startSizes s).ebs.toNat (startSizes s).cwidth.toNat = true := by
    rwa [badBs_eq_true, startSizes_cwidth_eq]
  have hnone (p : Plan) (hp : startPlan c s = some p) : False := by
    obtain ⟨-, hgood, -⟩ := startPlan_some hp
    cases hsize.symm.trans hgood
  obtain ⟨hends, hnbits, hcwidth, hdone, hdst, hchain, hresult, hmem, hoperands⟩ :=
    refused_raise h hnone (prepares_startSizes s) .cfgBlksz
  exact ⟨_, (exec_stream_start h).trans (streamStart_blockSize hmod hsize), hends, by simp, by simp, hnbits, hcwidth, hdone, hdst,
    hchain, by simp, by simp, hresult, hmem, hoperands⟩

/-- Settles O27: the plan is computed before it is written. -/
theorem widthCheck : Obligations.WidthCheck := by
  intro c s bs cw h hmod hbs hcw hpos hle hplan
  obtain rfl := eq_startSizes_ebs hbs
  obtain rfl := hcw.trans (startSizes_cwidth_eq s).symm
  have hnone (p : Plan) (hp : startPlan c s = some p) : False := by
    obtain ⟨-, -, hsome, -⟩ := startPlan_some hp
    cases hplan.symm.trans hsome
  obtain ⟨hends, -, -, hdone, hdst, hchain, hresult, hmem, hoperands⟩ :=
    refused_raise h hnone (prepares_startSizes s) .encWidth
  exact ⟨_, (exec_stream_start h).trans (streamStart_width hmod (badBs_eq_false.mpr ⟨hpos, hle⟩) hplan), hends, by simp, by simp,
    by simp, hdone, hdst, by simp, by simp, hchain, hresult, hmem, hoperands⟩

theorem setPlan_nblkTotal_toNat (s : State) {p : Plan} (h : p.nb < 2 ^ 32) : (s.setPlan p).nblkTotal.toNat = p.nb := by
  rw [setPlan_nblkTotal, BitVec.toNat_ofNat, Nat.mod_eq_of_lt h]

/-- OUT_REQ saturates (R46). -/
theorem setPlan_outReq_toNat (s : State) (p : Plan) : (s.setPlan p).outReq.toNat = min p.out Config.outReqMax := by
  have hle : min p.out Config.outReqMax < 2 ^ 32 := (Nat.min_le_right _ _).trans_lt (by decide)
  rw [setPlan_outReq, BitVec.toNat_ofNat, Nat.mod_eq_of_lt hle]

/-- Settles O28: the plan is written, and then the ranges are checked. -/
theorem rangeCheck : Obligations.RangeCheck := by
  intro c s p bs cw h hmod hbs hcw hpos hle hplan hfault
  obtain rfl := eq_startSizes_ebs hbs
  obtain rfl := hcw.trans (startSizes_cwidth_eq s).symm
  have hrange : badRange s.srcAddr.toNat s.srcLen.toNat s.dstAddr.toNat p.out s.dstCap.toNat = true :=
    (rangeChecks _ _ _ _ _).mpr hfault
  have hstep : exec c.instr s = .next (((startSizes s).setPlan p).raise .cfgRange Config.noBlock) := by
    rw [exec_stream_start h, streamStart_planned hmod (badBs_eq_false.mpr ⟨hpos, hle⟩) hplan, if_pos hrange]
  have hnone (p' : Plan) (hp : startPlan c s = some p') : False := by
    obtain ⟨-, -, hsome, hgood⟩ := startPlan_some hp
    obtain rfl : p = p' := Option.some.inj (hplan.symm.trans hsome)
    cases hrange.symm.trans hgood
  have hnb : p.nb < 2 ^ 32 := (plan_nb_le hpos hle hplan).trans_lt s.srcLen.isLt
  obtain ⟨hends, -, -, hdone, hdst, hchain, hresult, hmem, hoperands⟩ :=
    refused_raise h hnone (prepares_planned s p) .cfgRange
  exact ⟨_, hstep, hends, by simp, by simp, by simp, hdone, hdst, setPlan_nblkTotal_toNat (startSizes s) hnb,
    setPlan_outReq_toNat (startSizes s) p, hchain, hresult, hmem, hoperands⟩

/-! ### What a start step leaves that goes on to BLOCKS (R190, R204, R213) -/

theorem streamStart_started {c : StreamOp} {s : State} {p : Plan} (h : Started c s p)
    (hclear : HeaderClear c ((startSizes s).setPlan p)) : streamStart c s = .next (startedState c s p) := by
  rw [streamStart_planned h.modulus h.size h.plan, if_neg (Bool.eq_false_iff.mp h.range), chainInit_done h.header hclear]
  rfl

theorem started_of_blocks {c : StreamOp} {s t : State} (h : streamStart c s = .next t) (hp : t.seq.phase = .blocks) :
    ∃ p, Started c s p ∧ HeaderClear c ((startSizes s).setPlan p) ∧ t = startedState c s p := by
  obtain ⟨p, hmod, hsize, hplan, hrange, hfits, hclear, e⟩ := streamStart_blocks h hp
  exact ⟨p, ⟨hmod, hsize, hplan, hrange, hfits⟩, hclear, e⟩

/-- Nothing is drawn ahead for CBC, or without ECB_PARALLEL (R213). -/
theorem drawAhead_eq_self {c : StreamOp} {s : State} (h : s.plat.ecbParallel = false ∨ c.cbc = true) : s.drawAhead c = s := by
  unfold State.drawAhead
  rw [if_neg (by rcases h with h | h <;> simp [h])]

theorem startedState_mem {c : StreamOp} {s : State} (p : Plan) (h : s.plat.ecbParallel = false ∨ c.cbc = true) :
    (startedState c s p).mem = (afterHeader c ((startSizes s).setPlan p)).mem := by
  rw [startedState, entered, drawAhead_eq_self (by simpa using h)]

/-- Chain initialisation writes memory for the IV header of CBC_ENC alone (R204). -/
theorem afterHeader_mem_of_noWrite {c : StreamOp} {s : State} (h : c = .cbcEnc → s.ivhdr = false) :
    (afterHeader c s).mem = s.mem := by
  cases c with
  | cbcEnc => simp [afterHeader, h rfl]
  | ecbEnc | ecbDec => rfl
  | cbcDec => cases hi : s.ivhdr <;> simp [afterHeader, hi]

/-- The bytes CHAIN is initialised with: the source's header for CBC_DEC with IVHDR, else the IV (R204). -/
def initialChain (c : StreamOp) (s : State) : List Byte :=
  if c.dec && s.ivhdr then s.dmaBytes s.draws s.srcAddr.toNat s.ebs.toNat else s.ivBytes

theorem initialChain_length (c : StreamOp) (s : State) : (initialChain c s).length = s.ebs.toNat := by
  unfold initialChain
  split <;> simp

theorem afterHeader_chain {c : StreamOp} (hc : c.cbc = true) (s : State) :
    (afterHeader c s).chain = setBytes 0 (initialChain c s) := by
  cases c with
  | ecbEnc | ecbDec => cases hc
  | cbcEnc | cbcDec => cases hi : s.ivhdr <;> simp [afterHeader, initialChain, hi, StreamOp.dec]

@[simp] theorem planned_ivhdr (s : State) (p : Plan) : ((startSizes s).setPlan p).ivhdr = s.ivhdr := by simp [State.ivhdr]

/-- The initial chain value of a start step, by the state it begins in. -/
theorem initialChain_planned (c : StreamOp) (s : State) (p : Plan) :
    initialChain c ((startSizes s).setPlan p) =
      if c.dec && s.ivhdr then s.dmaBytes s.draws s.srcAddr.toNat (startSizes s).ebs.toNat
      else winBytes s.iv (startSizes s).ebs.toNat := by
  have hread := dmaBytes_congr (s := s) (t := (startSizes s).setPlan p) (by simp) (by simp) (by simp)
  simp [initialChain, hread, State.ivBytes]

/-- A byte window after a string of `n` bytes was written at its start (R203, R204). -/
theorem setBytes_spec (w : Window) {bs : List Byte} {n : Nat} (hlen : bs.length = n) (hn : n ≤ 1024) :
    winBytes (setBytes w bs) n = bs ∧ ∀ j, n ≤ j → j < 1024 → getByte (setBytes w bs) j = getByte w j := by
  subst hlen
  refine ⟨winBytes_setBytes w bs hn, fun j hj _ => ?_⟩
  rw [getByte_setBytes w bs j hn, if_neg (by omega)]

theorem getByte_zero (j : Nat) : getByte 0 j = 0 := by simp [getByte]

/-- A CBC start step that goes on to BLOCKS leaves its initial value in CHAIN, and 0 above (R204). -/
theorem startedState_chain {c : StreamOp} {s : State} {p : Plan} (hc : c.cbc = true) (h : Started c s p) :
    winBytes (startedState c s p).chain (startSizes s).ebs.toNat = initialChain c ((startSizes s).setPlan p) ∧
      ∀ j, (startSizes s).ebs.toNat ≤ j → j < 1024 → getByte (startedState c s p).chain j = 0 := by
  have hle : (startSizes s).ebs.toNat ≤ 1024 := (startSizes_ebs_le h.size).trans (maxBs_le _)
  rw [startedState, entered_chain, afterHeader_chain hc]
  simpa only [getByte_zero, setPlan_ebs] using setBytes_spec 0 (initialChain_length c ((startSizes s).setPlan p)) hle

/-- The IV header lies in the ranges that the start step has checked (R197, R198). -/
theorem headerFits_planned {c : StreamOp} {s : State} {p : Plan}
    (hplan : plan c s.ivhdr s.srcLen.toNat (startSizes s).ebs.toNat (startSizes s).cwidth.toNat = some p)
    (hrange : badRange s.srcAddr.toNat s.srcLen.toNat s.dstAddr.toNat p.out s.dstCap.toNat = false) :
    HeaderFits c ((startSizes s).setPlan p) :=
  (header_fits (s := (startSizes s).setPlan p) (by simpa using hplan) (by simpa using hrange)).1

theorem startedState_reports (c : StreamOp) (s : State) (p : Plan) :
    (startedState c s p).status = s.status ∧ (startedState c s p).errInfo = s.errInfo ∧
      (startedState c s p).intStat = s.intStat ∧ (startedState c s p).result = s.result := by simp [startedState]

/-- Settles O22: the header lies in the checked ranges, so it is written or read, and the step goes on to BLOCKS. -/
theorem streamStartSucceeds : Obligations.StreamStartSucceeds := by
  intro c s p bs cw h hmod hbs hcw hpos hle hplan hrange hwrite hread
  obtain rfl := eq_startSizes_ebs hbs
  obtain rfl := hcw.trans (startSizes_cwidth_eq s).symm
  have hsize := badBs_eq_false.mpr ⟨hpos, hle⟩
  have hstarted : Started c s p := ⟨hmod, hsize, hplan, hrange, headerFits_planned hplan hrange⟩
  have hclear : HeaderClear c ((startSizes s).setPlan p) := ⟨by simpa using hwrite, by simpa using hread⟩
  have hstep : streamStart c s = .next (startedState c s p) := streamStart_started hstarted hclear
  obtain ⟨hnbits, hcwidth, hebs⟩ := startedState_widths c s p
  obtain ⟨htotal, hdone, hout⟩ := startedState_counters hstarted
  obtain ⟨hstatus, hinfo, hint, hresult⟩ := startedState_reports c s p
  refine ⟨_, (exec_stream_start h).trans hstep, startedState_seq c s p, ?nbits, ?cwidth, ?ebs, htotal, hout, hdone, ?dstLen,
    hstatus, hinfo, hint, hresult, keepsOperands_startedState c s p, ?outside, ?ecb⟩
  case nbits => rw [hnbits, startSizes_nbits]
  case cwidth => rw [hcwidth]
  case ebs => rw [hebs]
  case dstLen =>
    rw [startedState_dstLen hstarted]
    cases c with
    | ecbEnc => exact (plan_enc rfl hplan).1
    | cbcEnc | ecbDec | cbcDec => rfl
  case outside =>
    intro hw
    obtain ⟨-, hop, -, hp⟩ := h
    have hbusy : s.busy = true := (busy_iff s).mpr (by simp [hp])
    obtain ⟨t, e, hsame⟩ := within_streamStart hw hbusy hop
    obtain rfl : startedState c s p = t := Host.Outcome.next.inj (hstep.symm.trans e)
    rwa [(dstSpan_start hbusy hop hmod hsize hplan hrange).2] at hsame
  case ecb =>
    intro hc
    refine ⟨(preserves_startedState hstarted).chain hc, fun hpar => ?_⟩
    rw [startedState_mem p (.inl hpar), afterHeader_mem_of_noWrite (by rintro rfl; cases hc), setPlan_mem, startSizes_mem]

theorem startedState_dstLen_zero {c : StreamOp} {s : State} {p : Plan} (h : Started c s p) (hc : c.dec = true ∨ p.hdr = 0) :
    (startedState c s p).dstLen = 0 := by
  apply BitVec.eq_of_toNat_eq
  rw [startedState_dstLen h]
  rcases hc with hc | hc <;> simp [hc]

/-- Settles O23: the chain value is the IV, and of memory the header alone is written. -/
theorem cbcEncStart : Obligations.CbcEncStart := by
  intro s t h hw e hp
  rw [show exec .cbcEnc s = streamStart .cbcEnc s from exec_stream_start (c := .cbcEnc) h] at e
  obtain ⟨p, hstarted, -, rfl⟩ := started_of_blocks e hp
  obtain ⟨-, -, hebs⟩ := startedState_widths .cbcEnc s p
  have hmem := startedState_mem (c := .cbcEnc) (s := s) p (.inr rfl)
  obtain ⟨hchain, habove⟩ := startedState_chain rfl hstarted
  rw [initialChain_planned] at hchain
  rw [hebs]
  refine ⟨hchain, habove, fun hi => ?header, fun hi => ⟨?mem, ?dstLen⟩⟩
  case header =>
    have hput : (afterHeader .cbcEnc ((startSizes s).setPlan p)).mem =
        s.mem.setBytes s.dstAddr.toNat (winBytes s.iv (startSizes s).ebs.toNat) := by
      simp [afterHeader, hi, State.ivBytes]
    have hfits : s.dstAddr.toNat + (winBytes s.iv (startSizes s).ebs.toNat).length ≤ Config.addressSpace := by
      simpa using hstarted.header.1 rfl (by simpa using hi)
    have hdst : (startedState .cbcEnc s p).dstLen = (startSizes s).ebs := by
      obtain ⟨hhdr, -, -⟩ := plan_enc rfl hstarted.plan
      apply BitVec.eq_of_toNat_eq
      rw [startedState_dstLen hstarted]
      simpa [hi, StreamOp.dec, StreamOp.cbc] using hhdr
    rw [hmem, hput]
    refine ⟨?_, hdst, fun y hy => ?_⟩
    · simpa using getBytes_setBytes hw hfits
    · rw [hmem, hput]
      exact get_setBytes_outside hw hfits (by simpa using hy)
  case mem => rw [hmem, afterHeader_mem_of_noWrite (by simpa using hi), setPlan_mem, startSizes_mem]
  case dstLen =>
    refine startedState_dstLen_zero hstarted (.inr ?_)
    obtain ⟨hhdr, -, -⟩ := plan_enc rfl hstarted.plan
    simpa [hi] using hhdr

/-- Settles O24: the chain value is what the header's read finds, or the IV, and no memory is written. -/
theorem cbcDecStart : Obligations.CbcDecStart := by
  intro s t h e hp
  rw [show exec .cbcDec s = streamStart .cbcDec s from exec_stream_start (c := .cbcDec) h] at e
  obtain ⟨p, hstarted, -, rfl⟩ := started_of_blocks e hp
  obtain ⟨-, -, hebs⟩ := startedState_widths .cbcDec s p
  obtain ⟨hchain, habove⟩ := startedState_chain rfl hstarted
  rw [initialChain_planned] at hchain
  rw [hebs]
  refine ⟨hchain, habove, ?mem, startedState_dstLen_zero hstarted (.inl rfl)⟩
  case mem => rw [startedState_mem p (.inr rfl), afterHeader_mem_of_noWrite (by simp), setPlan_mem, startSizes_mem]

/-! ### A bus error on the IV header (R86, R204) -/

/-- An error response to CBC_ENC's header write: CHAIN is initialised already. -/
theorem chainInit_writeError {s : State} (hi : s.ivhdr = true) (hfits : HeaderFits .cbcEnc s)
    (hbus : busErrIn s.plat true s.dstAddr.toNat s.ebs.toNat = true) :
    chainInit .cbcEnc s = .next (((s.clearChain.setChain s.ivBytes).drawRange s.dstAddr.toNat s.ebs.toNat).raise
      .busError Config.noBlock) := by
  rcases chainInit_cases .cbcEnc s with ⟨h, -⟩ | ⟨-, h, -⟩ | ⟨-, -, _, rfl, e⟩ | ⟨h, -⟩
  · cases h
  · cases hi.symm.trans h
  · rw [e, dmaWrite_busError (by simpa using hfits.1 rfl hi) (by simpa using hbus), ivBytes_length]
  · cases h

/-- An error response to CBC_DEC's header read: CHAIN is clear, and not yet initialised. -/
theorem chainInit_readError {s : State} (hi : s.ivhdr = true) (hfits : HeaderFits .cbcDec s)
    (hbus : busErrIn s.plat false s.srcAddr.toNat s.ebs.toNat = true) :
    chainInit .cbcDec s = .next (s.clearChain.raise .busError Config.noBlock) := by
  rcases chainInit_cases .cbcDec s with ⟨h, -⟩ | ⟨-, h, -⟩ | ⟨h, -⟩ | ⟨-, -, e⟩
  · cases h
  · cases hi.symm.trans h
  · cases h
  · rw [e, dmaRead_busError (hfits.2 rfl hi) (by simpa using hbus)]

/-- Settles O29: every check has passed, so chain initialisation comes to the header's access. -/
theorem headerBusError : Obligations.HeaderBusError := by
  refine ⟨fun s p bs cw h hmod hraced hw hbs hcw hpos hle hplan hrange hi hbus => ?write,
    fun s p bs cw h hmod hraced hbs hcw hpos hle hplan hrange hi hbus => ?read⟩
  all_goals
    obtain rfl := eq_startSizes_ebs hbs
    obtain rfl := hcw.trans (startSizes_cwidth_eq s).symm
    have hsize := badBs_eq_false.mpr ⟨hpos, hle⟩
    have hfits := headerFits_planned hplan hrange
    have hi' : ((startSizes s).setPlan p).ivhdr = true := by simpa using hi
  case write =>
    have hstep := (exec_stream_start (c := .cbcEnc) h).trans (streamStart_planned hmod hsize hplan)
    rw [if_neg (Bool.eq_false_iff.mp hrange), chainInit_writeError hi' hfits (by simpa using hbus)] at hstep
    have hchain : winBytes (setBytes 0 ((startSizes s).setPlan p).ivBytes) (startSizes s).ebs.toNat =
        ((startSizes s).setPlan p).ivBytes :=
      (setBytes_spec 0 (by simp) ((startSizes_ebs_le hsize).trans (maxBs_le _))).1
    refine ⟨_, hstep, endsInError_raise (by simp) (by simp) (by simp) _ _, by simp, by simp, ?_, fun y hy => ?_,
      keepsOperands_raise (by constructor <;> simp) _ _⟩
    · simpa [State.ivBytes] using hchain
    · rw [raise_mem, settleRaces_mem_of_raced (by simpa using hraced), drawRange_get (by simpa using hw) (by simpa using hy)]
      simp
  case read =>
    have hstep := (exec_stream_start (c := .cbcDec) h).trans (streamStart_planned hmod hsize hplan)
    rw [if_neg (Bool.eq_false_iff.mp hrange), chainInit_readError hi' hfits (by simpa using hbus)] at hstep
    refine ⟨_, hstep, endsInError_raise (by simp) (by simp) (by simp) _ _, by simp, by simp, by simp, ?_,
      keepsOperands_raise (by constructor <;> simp) _ _⟩
    rw [raise_mem, settleRaces_mem_of_raced (by simpa using hraced)]
    simp

/-! ### No chain across commands (R218) -/

theorem ivhdr_withChain (s : State) (x : Window) : State.ivhdr { s with chain := x } = s.ivhdr := rfl

/-- CBC's chain initialisation clears CHAIN before it reads or writes anything. -/
theorem afterHeader_withChain {c : StreamOp} (hc : c.cbc = true) (s : State) (x : Window) :
    afterHeader c { s with chain := x } = afterHeader c s := by
  have hread := dmaBytes_congr (s := s) (t := { s with chain := x }) rfl rfl rfl
  cases c with
  | ecbEnc | ecbDec => cases hc
  | cbcEnc | cbcDec =>
    cases hi : s.ivhdr <;> simp only [afterHeader, ivhdr_withChain, hi, hread] <;> rfl

theorem startedState_withChain {c : StreamOp} (hc : c.cbc = true) (s : State) (p : Plan) (x : Window) :
    startedState c { s with chain := x } p = startedState c s p :=
  congrArg (entered c) (afterHeader_withChain hc ((startSizes s).setPlan p) x)

/-- Settles O58: the checks of a start step do not read CHAIN, and chain initialisation clears it. -/
theorem noChainAcrossCommands : Obligations.NoChainAcrossCommands := by
  intro c s t x hc h e hp
  rw [exec_stream_start h] at e
  obtain ⟨p, hstarted, hclear, rfl⟩ := started_of_blocks e hp
  have hstarted' : Started c { s with chain := x } p :=
    ⟨hstarted.modulus, hstarted.size, hstarted.plan, hstarted.range, hstarted.header⟩
  rw [exec_stream_start (s := { s with chain := x }) h, streamStart_started hstarted' hclear, startedState_withChain hc]

end Sys2Proof.Proofs
end

section
/-! PROOF. The block steps of a stream command (spec/42_mode_controller.md R195, R200 to R210, R215): the state a completed block
leaves, said once for the four commands; the block value out of range; the last step. -/

namespace Sys2Proof.Proofs

open Sys2Proof.Machine Sys2Proof.Laws

/-! ### A block step that passes its checks (R205 to R208) -/

/-- `BE_CW(m^E mod N)` of the block integer `m` (R205, R207). -/
def encOut (s : State) (c : StreamOp) : List Byte := beBytes s.cwidth.toNat (s.encInput c ^ s.valE % s.valN)

/-- `BE_bs(c^D mod N)` of the cipher block's integer `c`, for CBC with the chain value XORed in (R206, R208). -/
def decOut (s : State) (c : StreamOp) : List Byte :=
  s.chainXor c (beBytes s.ebs.toNat (beNat (s.sourceBytes c) ^ s.valD % s.valN))

theorem decOut_length (s : State) (c : StreamOp) : (decOut s c).length = s.ebs.toNat := chainXor_length (beBytes_length _ _)

theorem encOut_length (s : State) (c : StreamOp) : (encOut s c).length = s.cwidth.toNat := beBytes_length _ _

theorem sourceBytes_length (s : State) (c : StreamOp) : (s.sourceBytes c).length = s.srcTake c := dmaBytes_length s _ _ _

section
variable {c : StreamOp} {s : State} (hok : BlocksOk c s) (hlt : s.seq.blk < s.nblkTotal)
include hok hlt

/-- The write of a block that gets no error response completes it. -/
theorem finishBlock_completes {out cb : List Byte} (hlen : out.length = s.outWidth c)
    (hbus : busErrIn s.plat true (s.dstBlock c) (s.outWidth c) = false) :
    finishBlock c (afterRead s c) out cb (if c.dec then s.ebs else s.cwidth) = .next (blockEnd c s out cb) := by
  have hwrite : dmaWrite (afterRead s c) (s.dstBlock c) out = .done [] ((afterRead s c).dmaPut (s.dstBlock c) out) :=
    dmaWrite_done (by rw [hlen]; exact dstBlock_fits hok hlt) (by rw [hlen]; exact hbus)
  rw [finishBlock, show (afterRead s c).dstBlock c = s.dstBlock c from rfl, hwrite]
  rfl

variable (hread : busErrIn s.plat false (s.srcBlock c) (s.srcTake c) = false)
include hread

theorem encBlock_completes (hc : c.dec = false) (hin : s.encInput c < s.valN)
    (hbus : busErrIn s.plat true (s.dstBlock c) s.cwidth.toNat = false) :
    encBlock c s = .next (blockEnd c s (encOut s c) (encOut s c)) := by
  have hwidth : s.outWidth c = s.cwidth.toNat := by rw [State.outWidth, hc, if_neg Bool.false_ne_true]
  rcases encBlock_cases c s with ⟨hover, -⟩ | ⟨-, hbad, -⟩ | ⟨-, hrange, -⟩ | ⟨-, -, cb, hcb, e⟩
  · exact absurd hover (Nat.not_lt.mpr (srcBlock_fits hok hlt))
  · cases hread.symm.trans hbad
  · exact absurd hrange (Nat.not_le.mpr hin)
  · obtain rfl : cb = encOut s c := by
      rw [hcb, modexp_eq_pow_mod, State.exponent, hc, if_neg Bool.false_ne_true]; rfl
    rw [e, ← finishBlock_completes hok hlt ((encOut_length s c).trans hwidth.symm) (hwidth ▸ hbus), hc,
      if_neg Bool.false_ne_true]

theorem encBlock_outOfRange (hin : s.valN ≤ s.encInput c) : encBlock c s = raiseBlock c (afterRead s c) .encRange := by
  rcases encBlock_cases c s with ⟨hover, -⟩ | ⟨-, hbad, -⟩ | ⟨-, -, e⟩ | ⟨-, hsmall, -⟩
  · exact absurd hover (Nat.not_lt.mpr (srcBlock_fits hok hlt))
  · cases hread.symm.trans hbad
  · exact e
  · omega

theorem decBlock_completes (hc : c.dec = true) (hin : beNat (s.sourceBytes c) < s.valN)
    (hsmall : beNat (s.sourceBytes c) ^ s.valD % s.valN < 256 ^ s.ebs.toNat)
    (hbus : busErrIn s.plat true (s.dstBlock c) s.ebs.toNat = false) :
    decBlock c s = .next (blockEnd c s (decOut s c) (s.sourceBytes c)) := by
  have hwidth : s.outWidth c = s.ebs.toNat := by rw [State.outWidth, hc, if_pos rfl]
  rw [← decValue_eq hc] at hsmall
  rcases decBlock_cases c s with ⟨hover, -⟩ | ⟨-, hbad, -⟩ | ⟨-, hrange, -⟩ | ⟨-, -, hbig, -⟩ | ⟨-, -, -, e⟩
  · exact absurd hover (Nat.not_lt.mpr (srcBlock_fits hok hlt))
  · cases hread.symm.trans hbad
  · omega
  · omega
  · rw [e, decValue_eq hc, ← finishBlock_completes hok hlt ((decOut_length s c).trans hwidth.symm) (hwidth ▸ hbus), hc, if_pos rfl]
    rfl

end

/-! ### What a completed block leaves (R202, R203, R213) -/

theorem blockEnd_reports (c : StreamOp) (s : State) (out cb : List Byte) :
    (blockEnd c s out cb).status = s.status ∧ (blockEnd c s out cb).errInfo = s.errInfo ∧
      (blockEnd c s out cb).intStat = s.intStat ∧ (blockEnd c s out cb).result = s.result := by simp [blockEnd]

/-- CHAIN takes the low bytes of the cipher block, for CBC alone (R203). -/
theorem blockEnd_chain (c : StreamOp) (s : State) (out cb : List Byte) :
    (blockEnd c s out cb).chain = if c.cbc then setBytes s.chain (lowBytes s.ebs.toNat cb) else s.chain := by
  cases hc : c.cbc <;> simp [blockEnd, State.chainUpdate, hc]

/-- The destination has room for the next block, so DST_LEN does not wrap. -/
theorem dstLen_add_width {c : StreamOp} {s : State} (hok : BlocksOk c s) (hlt : s.seq.blk < s.nblkTotal) :
    (s.dstLen + if c.dec then s.ebs else s.cwidth).toNat = s.dstLen.toNat + s.outWidth c := by
  have hroom := (dstBlock_range hok hlt).2
  have := s.outReq.isLt
  rw [BitVec.toNat_add, apply_ite BitVec.toNat, ← State.outWidth]
  exact Nat.mod_eq_of_lt (by omega)

/-- The state before ECB_PARALLEL draws the destination bytes of the later blocks. -/
def blockPut (c : StreamOp) (s : State) (out cb : List Byte) : State :=
  (((afterRead s c).dmaPut (s.dstBlock c) out).chainUpdate c cb).blockDone (if c.dec then s.ebs else s.cwidth)

theorem blockEnd_eq (c : StreamOp) (s : State) (out cb : List Byte) :
    blockEnd c s out cb = (blockPut c s out cb).drawAhead c := rfl

theorem blockPut_mem (c : StreamOp) (s : State) (out cb : List Byte) :
    (blockPut c s out cb).mem = s.mem.setBytes (s.dstBlock c) out := by simp [blockPut]

/-- What `drawAhead` reads of it: the destination of the command, of which one block more is counted. -/
theorem blockPut_counted {c : StreamOp} {s : State} (hok : BlocksOk c s) (hlt : s.seq.blk < s.nblkTotal) (out cb : List Byte) :
    (blockPut c s out cb).dstAddr = s.dstAddr ∧ (blockPut c s out cb).outReq = s.outReq ∧ (blockPut c s out cb).plat = s.plat ∧
      (blockPut c s out cb).dstLen.toNat = s.dstLen.toNat + s.outWidth c := by
  have hadd := dstLen_add_width hok hlt
  simpa [blockPut] using hadd

section
variable {c : StreamOp} {s : State} {out : List Byte} (hok : BlocksOk c s) (hlt : s.seq.blk < s.nblkTotal)
  (hw : s.mem.wf = true) (hlen : out.length = s.outWidth c) (cb : List Byte)
include hok hlt hw hlen

theorem blockPut_wf : (blockPut c s out cb).mem.wf = true := by
  rw [blockPut_mem]
  exact wf_setBytes hw (by rw [hlen]; exact dstBlock_fits hok hlt)

/-- The block's bytes are counted in DST_LEN, so they are not drawn. -/
theorem blockEnd_getBytes : (blockEnd c s out cb).mem.getBytes (s.dstBlock c) out.length = out := by
  have hat := (dstBlock_range hok hlt).1
  obtain ⟨haddr, -, -, hcounted⟩ := blockPut_counted hok hlt out cb
  have hin : s.dstBlock c + out.length ≤ (blockPut c s out cb).dstAddr.toNat + (blockPut c s out cb).dstLen.toNat := by
    rw [haddr, hcounted]
    omega
  rw [blockEnd_eq, drawAhead_getBytes (blockPut_wf hok hlt hw hlen cb) hin, blockPut_mem,
    getBytes_setBytes hw (by rw [hlen]; exact dstBlock_fits hok hlt)]

/-- No byte changes but the block's own and, with ECB_PARALLEL, those of the later blocks (R213). -/
theorem sameOutside_blockEnd : sameOutside s (blockEnd c s out cb) (s.dstBlock c)
    (if s.plat.ecbParallel && !c.cbc then s.outReq.toNat - s.dstLen.toNat else s.outWidth c) := by
  intro y hy
  obtain ⟨hat, hroom⟩ := dstBlock_range hok hlt
  obtain ⟨haddr, hout, hplat, hcounted⟩ := blockPut_counted hok hlt out cb
  have hput : (blockPut c s out cb).mem.get y = s.mem.get y := by
    rw [blockPut_mem]
    refine get_setBytes_outside hw (by rw [hlen]; exact dstBlock_fits hok hlt) ?_
    split at hy <;> omega
  rw [blockEnd_eq, drawAhead_get (blockPut_wf hok hlt hw hlen cb) ?undrawn, hput]
  case undrawn =>
    rw [haddr, hout, hplat, hcounted]
    split at hy
    · omega
    next hpar =>
      right; right
      simpa [or_iff_not_imp_left] using hpar

end

/-! ### The four block steps (R205 to R208) -/

/-- A block step from `s` to `t` that wrote `out` and counted `width` bytes, but for CHAIN, whichever command it is of. -/
structure BlockCounted (c : StreamOp) (s t : State) (out : List Byte) (width : Word) : Prop where
  bytes     : t.mem.getBytes (s.dstBlock c) width.toNat = out
  same      : sameOutside s t (s.dstBlock c)
    (if s.plat.ecbParallel && !c.cbc then s.outReq.toNat - s.dstLen.toNat else width.toNat)
  dstLen    : t.dstLen = s.dstLen + width
  nblkDone  : t.nblkDone = s.nblkDone + 1
  seq       : t.seq = { s.seq with blk := s.seq.blk + 1 }
  status    : t.status = s.status
  errInfo   : t.errInfo = s.errInfo
  intStat   : t.intStat = s.intStat
  result    : t.result = s.result
  nbits     : t.nbits = s.nbits
  cwidth    : t.cwidth = s.cwidth
  ebs       : t.ebs = s.ebs
  nblkTotal : t.nblkTotal = s.nblkTotal
  outReq    : t.outReq = s.outReq
  operands  : KeepsOperands s t

/-- An ECB block step to `t` wrote `out` at the block's destination and counted `width` bytes; nothing else changed but, with
ECB_PARALLEL, bytes of the later blocks. -/
def EcbBlockDone (c : StreamOp) (s t : State) (out : List Byte) (width : Word) : Prop :=
  t.mem.getBytes (s.dstBlock c) width.toNat = out ∧
    sameOutside s t (s.dstBlock c) (if s.plat.ecbParallel then s.outReq.toNat - s.dstLen.toNat else width.toNat) ∧
    t.dstLen = s.dstLen + width ∧ t.nblkDone = s.nblkDone + 1 ∧ t.seq = { s.seq with blk := s.seq.blk + 1 } ∧
    t.chain = s.chain ∧ t.status = s.status ∧ t.errInfo = s.errInfo ∧ t.intStat = s.intStat ∧ t.result = s.result ∧
    t.nbits = s.nbits ∧ t.cwidth = s.cwidth ∧ t.ebs = s.ebs ∧ t.nblkTotal = s.nblkTotal ∧ t.outReq = s.outReq ∧
    KeepsOperands s t

/-- A CBC block step to `t` wrote `out` at the block's destination, counted `width` bytes, and took the low bytes of `cb` into
CHAIN; nothing else changed. -/
def CbcBlockDone (c : StreamOp) (s t : State) (out cb : List Byte) (width : Word) : Prop :=
  t.mem.getBytes (s.dstBlock c) width.toNat = out ∧ sameOutside s t (s.dstBlock c) width.toNat ∧
    winBytes t.chain s.ebs.toNat = lowBytes s.ebs.toNat cb ∧
    (∀ j, s.ebs.toNat ≤ j → j < 1024 → getByte t.chain j = getByte s.chain j) ∧
    t.dstLen = s.dstLen + width ∧ t.nblkDone = s.nblkDone + 1 ∧ t.seq = { s.seq with blk := s.seq.blk + 1 } ∧
    t.status = s.status ∧ t.errInfo = s.errInfo ∧ t.intStat = s.intStat ∧ t.result = s.result ∧ t.nbits = s.nbits ∧
    t.cwidth = s.cwidth ∧ t.ebs = s.ebs ∧ t.nblkTotal = s.nblkTotal ∧ t.outReq = s.outReq ∧ KeepsOperands s t

section
variable {c : StreamOp} {s : State} {out : List Byte} {width : Word} (hok : BlocksOk c s) (hlt : s.seq.blk < s.nblkTotal)
  (hw : s.mem.wf = true) (hwidth : (if c.dec then s.ebs else s.cwidth) = width) (hlen : out.length = width.toNat)
include hok hlt hw hwidth hlen

theorem blockCounted_blockEnd (cb : List Byte) : BlockCounted c s (blockEnd c s out cb) out width := by
  subst hwidth
  have hout : out.length = s.outWidth c := by rw [hlen, apply_ite BitVec.toNat]; rfl
  obtain ⟨hdone, hdst⟩ := blockEnd_counters c s out cb
  obtain ⟨hnbits, hcwidth, hebs, htotal, houtReq⟩ := blockEnd_sizes c s out cb
  obtain ⟨hstatus, hinfo, hint, hresult⟩ := blockEnd_reports c s out cb
  refine ⟨?bytes, ?same, hdst, hdone, blockEnd_seq c s out cb, hstatus, hinfo, hint, hresult, hnbits, hcwidth, hebs, htotal, houtReq,
    keepsOperands_blockEnd c s out cb⟩
  case bytes => rw [← hlen, blockEnd_getBytes hok hlt hw hout cb]
  case same =>
    rw [← hlen, hout]
    exact sameOutside_blockEnd hok hlt hw hout cb

theorem ecbBlockDone_blockEnd (hc : c.cbc = false) (cb : List Byte) : EcbBlockDone c s (blockEnd c s out cb) out width := by
  have h := blockCounted_blockEnd hok hlt hw hwidth hlen cb
  have hsame := h.same
  have hchain := blockEnd_chain c s out cb
  simp only [hc, Bool.not_false, Bool.and_true, Bool.false_eq_true, if_false] at hsame hchain
  exact ⟨h.bytes, hsame, h.dstLen, h.nblkDone, h.seq, hchain, h.status, h.errInfo, h.intStat, h.result, h.nbits, h.cwidth, h.ebs,
    h.nblkTotal, h.outReq, h.operands⟩

theorem cbcBlockDone_blockEnd (hc : c.cbc = true) {cb : List Byte} (hcb : cb.length = s.cwidth.toNat) :
    CbcBlockDone c s (blockEnd c s out cb) out cb width := by
  have h := blockCounted_blockEnd hok hlt hw hwidth hlen cb
  have hsame := h.same
  simp only [hc, Bool.not_true, Bool.and_false, Bool.false_eq_true, if_false] at hsame
  have hlow : (lowBytes s.ebs.toNat cb).length = s.ebs.toNat := by
    rw [lowBytes_length, hcb, Nat.min_eq_left (badBs_eq_false.mp hok.size).2]
  obtain ⟨hfirst, habove⟩ := setBytes_spec s.chain hlow ((blocksOk_ebs_le hok).trans (maxBs_le _))
  rw [CbcBlockDone, blockEnd_chain, if_pos hc]
  exact ⟨h.bytes, hsame, hfirst, habove, h.dstLen, h.nblkDone, h.seq, h.status, h.errInfo, h.intStat, h.result, h.nbits, h.cwidth,
    h.ebs, h.nblkTotal, h.outReq, h.operands⟩

end

/-- ECB has no IV header (R197). -/
theorem hdr_of_ecbEnc {s : State} (hok : BlocksOk .ecbEnc s) : s.seq.hdr = 0 := (plan_enc rfl hok.plan).1

/-- Settles O30: the block is read and its value is in range, so the step comes to its write, which gets no error. -/
theorem ecbEncBlock : Obligations.EcbEncBlock := by
  intro s hrun hw hok hlt hread hbus hin
  have hstep := (exec_encBlock (c := .ecbEnc) rfl hrun hlt).trans (encBlock_completes hok hlt hread rfl hin hbus)
  have hhdr := hdr_of_ecbEnc hok
  refine ⟨rfl, rfl, _, hstep, ?addr, hhdr, ecbBlockDone_blockEnd hok hlt hw rfl (encOut_length s _) rfl _⟩
  case addr => exact Nat.add_right_comm _ _ _

/-- Settles O31: the block is read, its value and the decrypted one are in range, and the write gets no error. -/
theorem ecbDecBlock : Obligations.EcbDecBlock := by
  intro s hrun hw hok hlt hread hbus hin hsmall
  have hstep := (exec_decBlock (c := .ecbDec) rfl hrun hlt).trans (decBlock_completes hok hlt hread rfl hin hsmall hbus)
  exact ⟨rfl, rfl, _, hstep, rfl, ecbBlockDone_blockEnd hok hlt hw rfl (decOut_length s _) rfl _⟩

/-- Settles O32: as for ECB, with the chain value XORed into the block; the cipher block it writes is also the one CHAIN takes. -/
theorem cbcEncBlock : Obligations.CbcEncBlock := by
  intro s hrun hw hok hlt hread hbus hin
  have hstep := (exec_encBlock (c := .cbcEnc) rfl hrun hlt).trans (encBlock_completes hok hlt hread rfl hin hbus)
  exact ⟨rfl, rfl, _, _, hstep, rfl, rfl,
    cbcBlockDone_blockEnd hok hlt hw rfl (encOut_length s _) rfl (encOut_length s _)⟩

/-- Settles O33: as for ECB, with the chain value XORed out; the cipher block it read is the one CHAIN takes. -/
theorem cbcDecBlock : Obligations.CbcDecBlock := by
  intro s hrun hw hok hlt hread hbus hin hsmall
  have hstep := (exec_decBlock (c := .cbcDec) rfl hrun hlt).trans (decBlock_completes hok hlt hread rfl hin hsmall hbus)
  exact ⟨rfl, rfl, _, hstep, rfl,
    cbcBlockDone_blockEnd hok hlt hw rfl (decOut_length s _) rfl (sourceBytes_length s _)⟩

/-! ### The block value out of range, and the last step (R195, R209, R210) -/

/-- Settles O34: the value is checked before anything is written. -/
theorem encRangeError : Obligations.EncRangeError := by
  intro c s hc hrun hok hlt hread hin
  rw [exec_encBlock hc hrun hlt, encBlock_outOfRange hok hlt hread hin]
  exact failsUnwritten_raiseBlock hok (memoryOnly_afterRead s c) rfl .encRange

/-- Settles O38: the counters have reached their totals, and the step is `complete`. -/
theorem streamCompletes : Obligations.StreamCompletes := by
  intro c s hrun hok heq
  have hdst : s.dstLen = s.outReq := BitVec.eq_of_toNat_eq (dstLen_final hok (congrArg BitVec.toNat heq))
  exact ⟨_, exec_stream_last hrun heq, rfl, rfl, rfl, hdst, hok.blk.symm.trans heq, rfl, rfl, rfl, settleRaces_mem_of_raced,
    keepsOperands_complete s, keepsStream_complete s⟩

theorem padBlock_length {bs : Nat} {raw : List Byte} (h : raw.length ≤ bs) : (padBlock bs raw).length = bs := by
  rw [padBlock, List.length_append, zeros_length]
  omega

/-- The block integer of an encrypting command has at most `bs` bytes (R200, R207). -/
theorem encInput_lt {c : StreamOp} (hc : c.dec = false) (s : State) : s.encInput c < 256 ^ s.ebs.toNat := by
  have hraw : (s.sourceBytes c).length ≤ s.ebs.toNat := by
    rw [sourceBytes_length, State.srcTake, hc, if_neg Bool.false_ne_true]
    exact Nat.min_le_left _ _
  have hlt := beNat_lt (s.chainXor c (padBlock s.ebs.toNat (s.sourceBytes c)))
  rwa [chainXor_length (padBlock_length hraw)] at hlt

/-- A block of `floor(bitLen(v)/16)` bytes holds no more than half the digits of `v` (R195). -/
theorem pow_derivedBs_le {v : Nat} (h : 0 < v) : 256 ^ (bitLen v / Config.blockDivisor) ≤ v := by
  have hpos := bitLen_pos h
  calc 256 ^ (bitLen v / Config.blockDivisor) = 2 ^ (8 * (bitLen v / Config.blockDivisor)) := by rw [Nat.pow_mul]
    _ ≤ 2 ^ (bitLen v - 1) := Nat.pow_le_pow_right (by omega) (by simp only [Config.blockDivisor]; omega)
    _ ≤ v := pow_bitLen_le h

/-- Settles O41: the block integer has EBS bytes, and the modulus has at least twice the digits. -/
theorem derivedBlockNeverOutOfRange : Obligations.DerivedBlockNeverOutOfRange := by
  intro c s hc hok hderived
  have hebs : s.ebs.toNat = bitLen s.valN / Config.blockDivisor := by
    rw [hok.bs, effectiveBs, hderived, if_neg Bool.false_ne_true, hok.nbits]
  have hpos : 0 < s.valN := Nat.lt_of_lt_of_le Nat.one_pos hok.modulus.le
  exact (encInput_lt hc s).trans_le (hebs ▸ pow_derivedBs_le hpos)

/-! ### A block there and back (R215) -/

/-- Settles O60: the RSA inverse law gives the block integer back, and that is the block's XOR with the chain value. -/
theorem blockRoundTrip : Obligations.BlockRoundTrip := by
  intro n e d cw pb chain hkey hn hlen hin
  have hfits : modexp (beNat (xorBytes pb chain)) e n < 256 ^ cw := (modexp_lt _ _ (Nat.zero_lt_of_lt hin)).trans_le hn
  have hxor : (xorBytes pb chain).length = pb.length := by rw [xorBytes_length, hlen, Nat.min_self]
  have hback : beBytes pb.length (beNat (xorBytes pb chain)) = xorBytes pb chain := hxor ▸ beBytes_beNat (xorBytes pb chain)
  rw [beNat_beBytes, Nat.mod_eq_of_lt hfits, rsaInverseLaw n e d _ hkey hin, hback, xorBytes_cancel pb chain hlen.ge]

end Sys2Proof.Proofs
end

section
/-! PROOF. An ECB encryption run (spec/42_mode_controller.md R205, R209, R212, R214): by induction on the blocks left, with the
state between two block steps as the invariant. -/

namespace Sys2Proof.Proofs

open Sys2Proof.Machine Sys2Proof.Laws

/-- The integer of source block `i`, zero-padded, as memory holds it in `s` (R200). -/
def plainBlock (s : State) (i : Nat) : Nat :=
  beNat (padBlock s.ebs.toNat (s.mem.getBytes (s.srcAddr.toNat + i * s.ebs.toNat)
    (min s.ebs.toNat (s.srcLen.toNat - i * s.ebs.toNat))))

/-- Cipher block `i` (R205). -/
def cipherBlock (s : State) (i : Nat) : List Byte := beBytes s.cwidth.toNat (plainBlock s i ^ s.valE % s.valN)

/-- Destination block `i` holds its cipher block in `t` (R212). -/
def HoldsCipher (s t : State) (i : Nat) : Prop :=
  t.mem.getBytes (s.dstAddr.toNat + i * s.cwidth.toNat) s.cwidth.toNat = cipherBlock s i

/-- `t` is reached in an ECB_ENC run from `s` with `k` blocks done, between two block steps. -/
structure EncryptedTo (s : State) (k : Nat) (t : State) : Prop where
  schedule  : t.schedule = []
  op        : t.seq.op = 4
  esel      : t.seq.esel = false
  phase     : t.seq.phase = .blocks
  blk       : t.seq.blk.toNat = k
  ok        : BlocksOk .ecbEnc t
  wf        : t.mem.wf = true
  unseen    : t.unseen = []
  raced     : t.raced = []
  operands  : KeepsOperands s t
  cwidth    : t.cwidth = s.cwidth
  ebs       : t.ebs = s.ebs
  nblkTotal : t.nblkTotal = s.nblkTotal
  outReq    : t.outReq = s.outReq
  same      : sameOutside s t s.dstAddr.toNat s.outReq.toNat
  done      : ∀ i < k, HoldsCipher s t i

theorem encryptedTo_zero {s : State} (hi : Inv s) (hs : s.schedule = []) (hop : s.seq.op = 4) (hesel : s.seq.esel = false)
    (hp : s.seq.phase = .blocks) (hblk : s.seq.blk = 0) (hunseen : s.unseen = []) (hraced : s.raced = []) :
    EncryptedTo s 0 s := by
  obtain ⟨c, hop', hok⟩ := hi.seq.blocks hp
  obtain rfl : c = .ecbEnc := streamOp_op_injective (c' := .ecbEnc) (hop'.symm.trans hop)
  exact
    { schedule := hs, op := hop, esel := hesel, phase := hp, blk := by rw [hblk]; rfl, ok := hok, wf := hi.mem, unseen := hunseen
      raced := hraced, operands := ⟨rfl, rfl, rfl, rfl, rfl, rfl, rfl, rfl, rfl, rfl, rfl, rfl, rfl⟩, cwidth := rfl, ebs := rfl
      nblkTotal := rfl, outReq := rfl, same := sameOutside_of_mem rfl _ _, done := fun i hi => absurd hi (Nat.not_lt_zero i) }

/-- Handing the turn to the engine changes nothing the run speaks of. -/
theorem EncryptedTo.taking {s t : State} {k : Nat} (h : EncryptedTo s k t) : EncryptedTo s k (t.taking .engine []) :=
  { h with
    schedule := rfl
    ok := by rw [← blocksOk_blockOf, (keepsBlock_taking t .engine []).block, blocksOk_blockOf]; exact h.ok
    operands := ⟨h.operands.n, h.operands.e, h.operands.d, h.operands.base, h.operands.iv, h.operands.cfg, h.operands.blksz,
      h.operands.srcAddr, h.operands.srcLen, h.operands.dstAddr, h.operands.dstCap, h.operands.intEn, h.operands.plat⟩ }

/-- In such a state the step is ECB_ENC's, on the engine's turn. -/
theorem EncryptedTo.step_eq {s t : State} {k : Nat} (h : EncryptedTo s k t) :
    step t = exec .ecbEnc (t.taking .engine []) ∧ (t.taking .engine []).runs StreamOp.ecbEnc.op false .blocks := by
  have hbusy : (t.taking .engine []).busy = true := (busy_iff _).mpr (by simp [h.phase])
  refine ⟨?_, rfl, h.op, h.esel, h.phase⟩
  rw [step_engine (.inr ⟨h.schedule, rfl⟩)]
  refine engineStep_running hbusy ?_
  rw [taking_seq, h.op, h.esel]
  exact decodeOp_stream .ecbEnc

theorem busErrIn_of_nil {p : Config.Platform} (h : p.busErr = []) (write : Bool) (a n : Nat) : busErrIn p write a n = false := by
  induction n generalizing a with
  | zero => rfl
  | succ n ih => simp [busErrIn, busErrAt, h, ih]

/-- The source lies outside the destination, so the next block reads as at the start of the run (R198). -/
theorem EncryptedTo.encInput {s u : State} {k : Nat} (h : EncryptedTo s k u) (hk : k < s.nblkTotal.toNat) :
    u.encInput .ecbEnc = plainBlock s k := by
  have haddr : u.srcBlock .ecbEnc = s.srcAddr.toNat + k * s.ebs.toNat := by
    simp [State.srcBlock, StreamOp.dec, h.operands.srcAddr, h.blk, h.ebs]
  have htake : u.srcTake .ecbEnc = min s.ebs.toNat (s.srcLen.toNat - k * s.ebs.toNat) := by
    simp [State.srcTake, StreamOp.dec, h.operands.srcLen, h.blk, h.ebs]
  have hread : u.sourceBytes .ecbEnc = u.mem.getBytes (u.srcBlock .ecbEnc) (u.srcTake .ecbEnc) :=
    dmaBytes_eq_getBytes (fun x _ _ => by simp [h.unseen, h.raced]) _
  have hsame : u.mem.getBytes (u.srcBlock .ecbEnc) (u.srcTake .ecbEnc) =
      s.mem.getBytes (u.srcBlock .ecbEnc) (u.srcTake .ecbEnc) := by
    refine getBytes_congr fun j hj => h.same _ ?_
    have hin := srcBlock_range h.ok (by rw [h.blk, h.nblkTotal]; exact hk)
    obtain ⟨-, -, -, -, hapart⟩ := badRange_eq_false.mp h.ok.range
    rw [h.operands.dstAddr, h.outReq] at hapart
    omega
  rw [State.encInput, hread, hsame, haddr, htake, h.ebs]
  rfl

theorem EncryptedTo.dstBlock {s u : State} {k : Nat} (h : EncryptedTo s k u) :
    u.dstBlock .ecbEnc = s.dstAddr.toNat + k * s.cwidth.toNat := by
  simp [State.dstBlock, StreamOp.dec, hdr_of_ecbEnc h.ok, h.operands.dstAddr, h.blk, h.cwidth]

theorem EncryptedTo.encOut {s u : State} {k : Nat} (h : EncryptedTo s k u) (hk : k < s.nblkTotal.toNat) :
    encOut u .ecbEnc = cipherBlock s k := by
  have hvalE : u.valE = s.valE := by rw [State.valE, h.operands.plat, h.operands.e]; rfl
  rw [Proofs.encOut, h.encInput hk, h.cwidth, hvalE, (keepsOperands_derived h.operands).1]
  rfl

theorem EncryptedTo.blk_lt {s u : State} {k : Nat} (h : EncryptedTo s k u) (hk : k < s.nblkTotal.toNat) :
    u.seq.blk < u.nblkTotal := by
  rw [BitVec.lt_def, h.blk, h.nblkTotal]
  exact hk

theorem keepsOperands_trans {s t u : State} (h : KeepsOperands s t) (h' : KeepsOperands t u) : KeepsOperands s u :=
  ⟨h'.n.trans h.n, h'.e.trans h.e, h'.d.trans h.d, h'.base.trans h.base, h'.iv.trans h.iv, h'.cfg.trans h.cfg,
    h'.blksz.trans h.blksz, h'.srcAddr.trans h.srcAddr, h'.srcLen.trans h.srcLen, h'.dstAddr.trans h.dstAddr,
    h'.dstCap.trans h.dstCap, h'.intEn.trans h.intEn, h'.plat.trans h.plat⟩

/-- A completed block leaves the state of a run with one block more done. -/
theorem EncryptedTo.blockEnd {s u : State} {k : Nat} (h : EncryptedTo s k u) (hk : k < s.nblkTotal.toNat) :
    EncryptedTo s (k + 1) (blockEnd .ecbEnc u (cipherBlock s k) (cipherBlock s k)) := by
  have hlt := h.blk_lt hk
  have hlen : (cipherBlock s k).length = u.cwidth.toNat := by rw [← h.encOut hk, encOut_length]
  have hend := blockCounted_blockEnd (width := u.cwidth) h.ok hlt h.wf rfl hlen (cipherBlock s k)
  obtain ⟨hat, hroom⟩ := dstBlock_range h.ok hlt
  have hwidth : u.outWidth .ecbEnc = u.cwidth.toNat := rfl
  exact
    { schedule := by simp [Proofs.blockEnd, h.schedule]
      op := by rw [hend.seq, h.op]
      esel := by rw [hend.seq, h.esel]
      phase := by rw [hend.seq, h.phase]
      blk := by
        have hadd : (u.seq.blk + 1).toNat = u.seq.blk.toNat + 1 := by bv_omega
        rw [hend.seq, hadd, h.blk]
      ok := blocksOk_blockEnd h.ok hlt
      wf := by rw [blockEnd_eq]; exact drawAhead_wf (blockPut_wf h.ok hlt h.wf hlen _)
      unseen := by simp [Proofs.blockEnd, h.unseen]
      raced := by simp [Proofs.blockEnd, h.raced]
      operands := keepsOperands_trans h.operands hend.operands
      cwidth := hend.cwidth.trans h.cwidth
      ebs := hend.ebs.trans h.ebs
      nblkTotal := hend.nblkTotal.trans h.nblkTotal
      outReq := hend.outReq.trans h.outReq
      same := by
        rw [← h.operands.dstAddr, ← h.outReq]
        refine sameOutside_trans (by rw [h.operands.dstAddr, h.outReq]; exact h.same)
          (sameOutside_mono hend.same (by omega) ?_)
        split <;> omega
      done := fun i hi => by
        by_cases hik : i = k
        · subst hik
          have hbytes := hend.bytes
          rwa [h.dstBlock, h.cwidth] at hbytes
        · have hbefore : (i + 1) * s.cwidth.toNat ≤ k * s.cwidth.toNat := Nat.mul_le_mul_right _ (by omega)
          rw [Nat.add_mul, Nat.one_mul] at hbefore
          refine (getBytes_congr fun j hj => hend.same _ (.inl ?_)).trans (h.done i (by omega))
          rw [h.dstBlock]
          omega }

/-- The step after `k` of the blocks does block `k`. -/
theorem EncryptedTo.next {s t : State} {k : Nat} (h : EncryptedTo s k t) (hbus : s.plat.busErr = [])
    (hk : k < s.nblkTotal.toNat) (hin : plainBlock s k < s.valN) : ∃ u, step t = .next u ∧ EncryptedTo s (k + 1) u := by
  obtain ⟨hstep, hrun⟩ := h.step_eq
  have hu := h.taking
  have hlt := hu.blk_lt hk
  have hclear (write : Bool) (a n : Nat) : busErrIn (t.taking .engine []).plat write a n = false :=
    busErrIn_of_nil (hu.operands.plat ▸ hbus) write a n
  have hin' : (t.taking .engine []).encInput .ecbEnc < (t.taking .engine []).valN := by
    rwa [hu.encInput hk, (keepsOperands_derived hu.operands).1]
  have hdone := encBlock_completes hu.ok hlt (hclear _ _ _) rfl hin' (hclear _ _ _)
  rw [hu.encOut hk] at hdone
  exact ⟨_, hstep.trans ((exec_encBlock (c := .ecbEnc) rfl hrun hlt).trans hdone), hu.blockEnd hk⟩

/-- The run from `s` has ended in `t`: DONE, the counters at their totals, the destination holding the cipher blocks. -/
def EncryptionDone (s t : State) : Prop :=
  t.status.done = true ∧ t.busy = false ∧ t.dstLen = s.outReq ∧ t.nblkDone = s.nblkTotal ∧
    (∀ i < s.nblkTotal.toNat, HoldsCipher s t i) ∧ sameOutside s t s.dstAddr.toNat s.outReq.toNat

/-- The step after the last block completes the command, and there is no race to settle (R209, R311). -/
theorem EncryptedTo.complete {s t : State} (h : EncryptedTo s s.nblkTotal.toNat t) :
    ∃ u, step t = .next u ∧ EncryptionDone s u := by
  obtain ⟨hstep, hrun⟩ := h.step_eq
  have hu := h.taking
  have heq : (t.taking .engine []).seq.blk = (t.taking .engine []).nblkTotal :=
    BitVec.eq_of_toNat_eq (by rw [hu.blk, hu.nblkTotal])
  obtain ⟨u, hexec, hseq, hstatus, -, hdst, hnblk, -, -, -, hmem, -, hstream⟩ := streamCompletes .ecbEnc _ hrun hu.ok heq
  have hkept : u.mem = t.mem := hmem hu.raced
  refine ⟨u, hstep.trans hexec, by rw [hstatus], (busy_eq_false_iff u).mpr (by rw [hseq]), ?_, ?_, fun i hi => ?_, fun y hy => ?_⟩
  · rw [hdst, hstream.outReq, hu.outReq]
  · rw [hnblk, hstream.nblkTotal, hu.nblkTotal]
  · rw [HoldsCipher, hkept]
    exact h.done i hi
  · rw [hkept]
    exact h.same y hy

/-- The engine's steps for the blocks left, and the last one. -/
theorem EncryptedTo.run {s t : State} {j k : Nat} (hbus : s.plat.busErr = []) (hin : ∀ i < s.nblkTotal.toNat, plainBlock s i < s.valN)
    (h : EncryptedTo s k t) (hj : k + j = s.nblkTotal.toNat) :
    ∃ u, Sys2Proof.core.run (j + 1) t = .next u ∧ EncryptionDone s u := by
  induction j generalizing k t with
  | zero =>
    obtain rfl : k = s.nblkTotal.toNat := hj
    obtain ⟨u, hstep, hdone⟩ := h.complete
    exact ⟨u, run_next Sys2Proof.core hstep, hdone⟩
  | succ j ih =>
    have hk : k < s.nblkTotal.toNat := by omega
    obtain ⟨u, hstep, hnext⟩ := h.next hbus hk (hin k hk)
    rw [run_next Sys2Proof.core hstep]
    exact ih hnext (by omega)

/-- Settles O59: the run begins with no block done and every block left. -/
theorem ecbEncryptionRun : Obligations.EcbEncryptionRun := by
  intro s hi hs hop hesel hp hblk hbus hunseen hraced hin
  exact (encryptedTo_zero hi hs hop hesel hp hblk hunseen hraced).run hbus hin (Nat.zero_add _)

end Sys2Proof.Proofs
end

section
/-! PROOF. The interrupt registers and the line (spec/60_exceptions.md R272, R273). -/

namespace Sys2Proof.Proofs

open Sys2Proof.Machine Sys2Proof.Laws

/-! ### The line (R272) -/

/-- The three terms of R272 are the three bits a source can have. -/
theorem irq_eq_true_iff (s : State) :
    s.irq = true ↔ ∃ i < 3, s.intStat.getLsbD i = true ∧ s.intEn.getLsbD i = true := by
  simp only [State.irq, Bool.or_eq_true, Bool.and_eq_true]
  constructor
  · rintro ((h | h) | h)
    · exact ⟨0, by decide, h⟩
    · exact ⟨1, by decide, h⟩
    · exact ⟨2, by decide, h⟩
  · rintro ⟨i, hi, h⟩
    match i, hi with
    | 0, _ => exact .inl (.inl h)
    | 1, _ => exact .inl (.inr h)
    | 2, _ => exact .inr h

/-! ### The bits a write leaves (R273) -/

theorem getLsbD_intStat_writeIntStat (s : State) (v : Word) {i : Nat} (hi : i < 3) :
    (s.writeIntStat v).intStat.getLsbD i = (s.intStat.getLsbD i && !v.getLsbD i) := by
  simp [hi]

theorem getLsbD_intEn_writeIntEn (s : State) (v : Word) {i : Nat} (hi : i < 3) :
    (s.writeIntEn v).intEn.getLsbD i = v.getLsbD i := by
  simp [hi]

/-- Settles O48: neither register's write reads `busy`, and each stores its own register alone. -/
theorem interrupts : Obligations.Interrupts := by
  intro s v
  have hstat : writeReg s .intStat v = .next (s.writeIntStat v) := writeReg_plain s v (by decide)
  have hen : writeReg s .intEn v = .next (s.writeIntEn v) := writeReg_plain s v (by decide)
  exact ⟨irq_eq_true_iff s, ⟨_, _, _, hstat, fun _ hi => getLsbD_intStat_writeIntStat s v hi⟩,
    ⟨_, hen, fun _ hi => getLsbD_intEn_writeIntEn s v hi⟩⟩

end Sys2Proof.Proofs
end

section
/-! PROOF. The reset state (spec/70_reset_and_hazards.md R300, R301): what its registers read, and that the invariant holds of it. -/

namespace Sys2Proof.Proofs

open Sys2Proof.Machine Sys2Proof.Laws

/-! ### What the registers read (R34, R40, R301) -/

theorem maxWords_le (p : Config.Platform) : p.maxWords ≤ 256 := p.maxWordsPred.isLt

/-- REV and MAXWORDS share no bit of PARAM (R34). -/
theorem paramWord_eq_or (p : Config.Platform) : paramWord p = 0x00010000 ||| BitVec.ofNat 32 (p.maxW / 32) := by
  have hlt : p.maxWords < 2 ^ 16 := (maxWords_le p).trans_lt (by decide)
  have hfield : (BitVec.ofNat 32 (p.maxW / 32)).toNat = p.maxWords := by
    rw [maxW_div, BitVec.toNat_ofNat, Nat.mod_eq_of_lt (by omega)]
  refine BitVec.eq_of_toNat_eq ?_
  rw [paramWord_toNat, BitVec.toNat_or, hfield]
  exact Nat.two_pow_add_eq_or_of_lt hlt 1

theorem getWord_zero (k : Nat) : getWord 0 k = 0 := by simp [getWord]

theorem reset_statusWord : State.reset.statusWord = 0 := by decide

theorem reset_window (w : Win) : State.reset.window w = 0 := by cases w <;> rfl

/-- A window word reads 0 on either side of MAXWORDS. -/
theorem readReg_word_reset (p : Config.Platform) (w : Win) (k : Nat) :
    ({ State.reset with plat := p } : State).readReg (.word w k) = 0 := by
  have hwin : ({ State.reset with plat := p } : State).window w = 0 := reset_window w
  rw [readReg_word, hwin, getWord_zero, ite_self]

/-- Settles O18: PARAM and the window words are the registers whose value rests on the platform. -/
theorem resetRegisters : Obligations.ResetRegisters := by
  refine ⟨fun p r => ?_, rfl, by decide⟩
  cases r with
  | param => exact paramWord_eq_or p
  | status => exact reset_statusWord
  | word w k => exact readReg_word_reset p w k
  | _ => rfl

/-! ### The invariant -/

/-- The reset action leaves the reset state as it is: it is idle, so no byte is drawn. -/
theorem resetAction_reset : State.reset.resetAction = State.reset := by
  rw [resetAction_eq, settleReset_of_noStream (.inl rfl)]
  rfl

/-- Settles O50: the reset action reaches the invariant from the reset state's empty memory. -/
theorem invAtReset : Obligations.InvAtReset := by
  have h : Inv State.reset.resetAction := inv_resetAction rfl
  rwa [resetAction_reset] at h

end Sys2Proof.Proofs
end

section
/-! PROOF. A raced or unordered source byte (spec/70_reset_and_hazards.md R311, R312): what a DMA read may find, and what a host
write lists for it. -/

namespace Sys2Proof.Proofs

open Sys2Proof.Machine Sys2Proof.Laws

/-! ### What a DMA read finds -/

/-- A draw among several values is one of them. -/
theorem pick_eq_or_mem (k : Nat) (v : Byte) (os : List Byte) : pick k v os = v ∨ pick k v os ∈ os := by
  cases os with
  | nil => exact .inl rfl
  | cons o os =>
    refine List.mem_cons.mp ?_
    have hlt : Config.freeChoice k % (os.length + 2) < (v :: o :: os).length := Nat.mod_lt _ (Nat.succ_pos _)
    rw [pick, List.getD_eq_getElem _ _ hlt]
    exact List.getElem_mem hlt

theorem mem_lagging {l : List Lag} {a : Nat} {b : Byte} : b ∈ lagging l a ↔ ∃ x ∈ l, x.addr = a ∧ x.old = b := by
  simp [lagging, and_assoc]

theorem mem_cellsAt {l : List Host.Cell} {a : Nat} {b : Byte} : b ∈ cellsAt l a ↔ (a, b) ∈ l := by
  simp [cellsAt]

/-- A DMA read finds the byte of memory or an old value one of its two lists holds (R311, R312). -/
theorem dmaByte_oldOrNew (s : State) (k a : Nat) :
    s.dmaByte k a = s.mem.get a ∨ (∃ l ∈ s.unseen, l.addr = a ∧ s.dmaByte k a = l.old) ∨
      ∃ c ∈ s.raced, c.1 = a ∧ s.dmaByte k a = c.2 := by
  rcases pick_eq_or_mem k (s.mem.get a) (lagging s.unseen a ++ cellsAt s.raced a) with h | h
  · exact .inl h
  · rcases List.mem_append.mp h with h | h
    · obtain ⟨l, hl, haddr, hold⟩ := mem_lagging.mp h
      exact .inr (.inl ⟨l, hl, haddr, hold.symm⟩)
    · exact .inr (.inr ⟨_, mem_cellsAt.mp h, rfl, rfl⟩)

/-! ### What a host write lists -/

/-- What a host write that is performed leaves in the two lists a DMA read may take old values from. -/
theorem hostWrite_lists {s t : State} {a : Nat} {bs : List Byte} {duty : Bool} (h : hostWrite s a bs duty = .next t) :
    t.posted = (if duty then lagsOutside s.posted a bs.length
      else lagsOf s.mem (fun _ => !s.plat.dmaCoherent) a bs.length ++ s.posted) ∧
    t.raced = (if s.busy then cellsOf s.mem a bs.length ++ s.raced else s.raced) := by
  unfold hostWrite at h
  split at h <;> cases h
  exact ⟨rfl, rfl⟩

section
variable {s t : State} {a : Nat} {bs : List Byte} {duty : Bool} (h : hostWrite s a bs duty = .next t)
include h

/-- With its duty a host write posts nothing; without it, the byte it replaces at each address of its range. -/
theorem hostWrite_posts {l : Lag} (hl : l ∈ t.posted) (hnew : l ∉ s.posted) :
    a ≤ l.addr ∧ l.addr < a + bs.length ∧ l.old = s.mem.get l.addr := by
  rw [(hostWrite_lists h).1] at hl
  cases duty with
  | true => exact absurd (mem_lagsOutside.mp hl).1 hnew
  | false => exact lagsOf_mem ((List.mem_append.mp hl).resolve_right hnew)

theorem hostWrite_races {c : Host.Cell} (hc : c ∈ t.raced) (hnew : c ∉ s.raced) :
    s.busy = true ∧ a ≤ c.1 ∧ c.1 < a + bs.length ∧ c.2 = s.mem.get c.1 := by
  rw [(hostWrite_lists h).2] at hc
  split at hc
  next hb => exact ⟨hb, cellsOf_mem.mp ((List.mem_append.mp hc).resolve_right hnew)⟩
  next => exact absurd hc hnew

theorem hostWrite_posted_of_noDuty (hd : duty = false) {x : Nat} (hlo : a ≤ x) (hhi : x < a + bs.length) :
    ∃ l ∈ t.posted, l.addr = x ∧ l.old = s.mem.get x := by
  obtain ⟨l, hl, hx⟩ := lagsOf_has (m := s.mem) (dirty := fun _ => !s.plat.dmaCoherent) hlo hhi
  refine ⟨l, ?_, hx⟩
  rw [(hostWrite_lists h).1, if_neg (Bool.eq_false_iff.mp hd)]
  exact List.mem_append_left _ hl

theorem hostWrite_raced_of_busy (hb : s.busy = true) {x : Nat} (hlo : a ≤ x) (hhi : x < a + bs.length) :
    (x, s.mem.get x) ∈ t.raced := by
  rw [(hostWrite_lists h).2, if_pos hb]
  exact List.mem_append_left _ (cellsOf_mem.mpr ⟨hlo, hhi, rfl⟩)

end

/-- Settles O40: a DMA read draws from memory and two lists, and a host write lists the bytes of its range as they were. -/
theorem dmaReadsOldOrNew : Obligations.DmaReadsOldOrNew := by
  refine ⟨dmaByte_oldOrNew, fun s t a bs duty h => ⟨fun l => hostWrite_posts h, fun c => hostWrite_races h, ?_⟩⟩
  exact fun x hlo hhi => ⟨fun hd => hostWrite_posted_of_noDuty h hd hlo hhi, fun hb => hostWrite_raced_of_busy h hb hlo hhi⟩

end Sys2Proof.Proofs
end

section
/-! PROOF. Every command ends (spec/70_reset_and_hazards.md R316): each engine step of a running command ends it or leaves fewer
steps to take. -/

namespace Sys2Proof.Proofs

open Sys2Proof.Machine Sys2Proof.Laws

/-! ### How many steps are left -/

/-- A bound on the engine steps the running command still takes, by phase (R146): the start step, a step for each block left, and
the step that completes. -/
def stepsLeft (s : State) : Nat :=
  match s.seq.phase with
  | .idle => 0
  | .start => s.plannedBlocks + 2
  | .compute => 1
  | .blocks => s.nblkTotal.toNat - s.seq.blk.toNat + 1

theorem stepsLeft_start {s : State} (h : s.seq.phase = .start) : stepsLeft s = s.plannedBlocks + 2 := by rw [stepsLeft, h]

theorem stepsLeft_compute {s : State} (h : s.seq.phase = .compute) : stepsLeft s = 1 := by rw [stepsLeft, h]

theorem stepsLeft_blocks {s : State} (h : s.seq.phase = .blocks) :
    stepsLeft s = s.nblkTotal.toNat - s.seq.blk.toNat + 1 := by rw [stepsLeft, h]

theorem stepsLeft_pos {s : State} (hb : s.busy = true) : 0 < stepsLeft s := by
  unfold stepsLeft
  split
  next hp => exact absurd hp ((busy_iff s).mp hb)
  all_goals exact Nat.succ_pos _

theorem plannedBlocks_eq {c : StreamOp} {s : State} {p : Plan} (hop : s.seq.op = c.op) (h : startPlan c s = some p) :
    s.plannedBlocks = p.nb := by
  simp [State.plannedBlocks, hop, streamOf_op, h]

/-- Between block steps the registers still give the plan of the start step (R153). -/
theorem plannedBlocks_blocks {c : StreamOp} {s : State} (hok : BlocksOk c s) (hp : s.seq.phase = .blocks) (hop : s.seq.op = c.op) :
    s.plannedBlocks = s.nblkTotal.toNat := by
  have hebs : (startSizes s).ebs.toNat = s.ebs.toNat := by rw [startSizes_ebs, hok.bs, effectiveBs, hok.nbits]
  have hcwidth : (startSizes s).cwidth.toNat = s.cwidth.toNat := (startSizes_cwidth s).trans hok.cwidth.symm
  obtain ⟨hplan, -⟩ := dstSpan_start ((busy_iff s).mpr (by simp [hp])) hop hok.modulus (by rw [hebs, hcwidth]; exact hok.size)
    (by rw [hebs, hcwidth]; exact hok.plan) hok.range
  exact plannedBlocks_eq hop hplan

/-- The bound of R316. -/
theorem stepsLeft_le {s : State} (hi : Inv s) : stepsLeft s ≤ s.plannedBlocks + 2 := by
  cases hp : s.seq.phase with
  | idle => simp [stepsLeft, hp]
  | start => exact (stepsLeft_start hp).le
  | compute => rw [stepsLeft_compute hp]; omega
  | blocks =>
    obtain ⟨c, hop, hok⟩ := hi.seq.blocks hp
    rw [stepsLeft_blocks hp, plannedBlocks_blocks hok hp hop]
    omega

/-! ### What a step of a running command achieves -/

/-- No command runs, and the last one reports its end. -/
def HasEnded (t : State) : Prop := t.busy = false ∧ (t.status.done = true ∨ t.status.err = true)

/-- The step from `s` to `t` ended the command, or left it running with fewer steps to take and the same moves to come. -/
def Advances (s t : State) : Prop :=
  HasEnded t ∨ (t.busy = true ∧ t.schedule = s.schedule ∧ stepsLeft t < stepsLeft s)

theorem advances_complete (s u : State) : Advances s u.complete := .inl ⟨rfl, .inl rfl⟩

theorem advances_raise (s u : State) (code : ErrCode) (info : Word) : Advances s (u.raise code info) := .inl ⟨rfl, .inr rfl⟩

theorem Raises.advances {b : Bool} {s t : State} (h : Raises b s t) : Advances s t := by
  obtain ⟨u, code, info, -, -, rfl⟩ := h
  exact advances_raise s u code info

theorem advances_modexpStart {s : State} (hp : s.seq.phase = .start) : Advances s (modexpStart s) := by
  rcases Nat.eq_zero_or_pos s.valN with hzero | hpos
  · rw [modexpStart_zero hzero]
    exact advances_raise _ _ _ _
  · rw [modexpStart_pos hpos]
    refine .inr ⟨rfl, rfl, ?_⟩
    rw [stepsLeft_compute rfl, stepsLeft_start hp]
    omega

theorem advances_startedState {c : StreamOp} {s : State} {p : Plan} (hp : s.seq.phase = .start) (hop : s.seq.op = c.op)
    (h : Started c s p) : Advances s (startedState c s p) := by
  have hseq := startedState_seq c s p
  obtain ⟨hplan, -⟩ := dstSpan_start ((busy_iff s).mpr (by simp [hp])) hop h.modulus h.size h.plan h.range
  refine .inr ⟨(busy_iff _).mpr (by simp [hseq]), by simp [startedState], ?_⟩
  rw [stepsLeft_blocks (by rw [hseq]), (startedState_counters h).1, stepsLeft_start hp, plannedBlocks_eq hop hplan]
  omega

theorem advances_blockEnd {c : StreamOp} {s : State} (hp : s.seq.phase = .blocks) (hlt : s.seq.blk < s.nblkTotal)
    (out cb : List Byte) : Advances s (blockEnd c s out cb) := by
  have hseq := blockEnd_seq c s out cb
  obtain ⟨-, -, -, htotal, -⟩ := blockEnd_sizes c s out cb
  refine .inr ⟨(busy_iff _).mpr (by simp [hseq, hp]), by simp [blockEnd], ?_⟩
  have hblk : (s.seq.blk + 1).toNat = s.seq.blk.toNat + 1 := by bv_omega
  rw [stepsLeft_blocks (by rw [hseq, hp]), stepsLeft_blocks hp, htotal, hseq, hblk]
  bv_omega

/-! ### Every step of a running command (R146, R316) -/

/-- Under the invariant BLOCKS is a stream command's phase. -/
theorem phase_ne_blocks {s : State} (hi : Inv s) (h : streamOf s.seq.op = none) : s.seq.phase ≠ .blocks := by
  intro hp
  obtain ⟨c, hop, -⟩ := hi.seq.blocks hp
  rw [hop, streamOf_op] at h
  cases h

/-- Under the invariant COMPUTE is MODEXP's phase. -/
theorem phase_ne_compute {s : State} (hi : Inv s) (h : s.seq.op ≠ 1) : s.seq.phase ≠ .compute :=
  fun hp => h (hi.seq.compute hp).1

/-- So a running NOP is before its start step. -/
theorem phase_of_nop {s : State} (hi : Inv s) (hb : s.busy = true) (hop : s.seq.op = 0) : s.seq.phase = .start := by
  cases hp : s.seq.phase with
  | start => rfl
  | idle => exact absurd hp ((busy_iff s).mp hb)
  | compute => exact absurd hp (phase_ne_compute hi (by rw [hop]; decide))
  | blocks => exact absurd hp (phase_ne_blocks hi (by rw [hop]; decide))

theorem advances_modexpEngine {s t : State} {x : Nat} (hi : Inv s) (hb : s.busy = true) (hop : s.seq.op = 1)
    (h : modexpEngine x s = .next t) : Advances s t := by
  cases hp : s.seq.phase <;> rw [modexpEngine, hp] at h <;> cases h
  case start => exact advances_modexpStart hp
  case compute => exact advances_complete s _
  case idle => exact absurd hp ((busy_iff s).mp hb)
  case blocks => exact absurd hp (phase_ne_blocks hi (by rw [hop]; decide))

theorem advances_streamEngine {c : StreamOp} {s t : State} (hi : Inv s) (hb : s.busy = true) (hop : s.seq.op = c.op)
    (h : streamEngine c (blockStep c) s = .next t) : Advances s t := by
  rcases streamEngine_cases c s with ⟨hp, e⟩ | ⟨hp, hlt, e⟩ | ⟨-, -, e⟩ | ⟨hp, hgt, -⟩ | ⟨hp | hp, -⟩
  · rcases streamStart_next (e ▸ h) with hr | ⟨p, hs, rfl⟩
    · exact hr.advances
    · exact advances_startedState hp hop hs
  · rcases blockStep_next (e ▸ h) with hr | ⟨out, cb, -, rfl⟩
    · exact hr.advances
    · exact advances_blockEnd hp hlt out cb
  · rw [e] at h
    cases h
    exact advances_complete s s
  · obtain ⟨_, -, hok⟩ := hi.seq.blocks hp
    exact absurd hgt (Nat.not_lt.mpr hok.le)
  · exact absurd hp ((busy_iff s).mp hb)
  · exact absurd hp (phase_ne_compute hi (by rw [hop]; cases c <;> decide))

theorem advances_engineStep {s t : State} (hi : Inv s) (ht : s.turn = .engine) (hb : s.busy = true)
    (h : engineStep s = .next t) : Advances s t := by
  obtain ⟨i, hd⟩ := hi.seq.legal hb
  rw [engineStep_running hb hd] at h
  rcases decodeOp_kind hd with ⟨rfl, hop, he⟩ | ⟨hmod, hop⟩ | ⟨c, rfl, hop, he⟩
  · rw [exec_nop_start ⟨ht, hop, he, phase_of_nop hi hb hop⟩] at h
    cases h
    exact advances_complete s s
  · obtain ⟨x, ex⟩ := exec_modexp_engine hmod ht hop
    exact advances_modexpEngine hi hb hop (ex ▸ h)
  · rw [exec_stream, command_engine ht, if_pos ⟨hop, he⟩] at h
    exact advances_streamEngine hi hb hop h

/-- With the turn left to the engine, the step of a running command is performed and advances it. -/
theorem step_advances {s : State} (hi : Inv s) (hs : s.schedule = []) (hb : s.busy = true) :
    ∃ t, step s = .next t ∧ Inv t ∧ (HasEnded t ∨ (t.busy = true ∧ t.schedule = [] ∧ stepsLeft t < stepsLeft s)) := by
  have htaking := inv_taking hi .engine []
  obtain ⟨t, e, -⟩ := within_engineStep htaking rfl
  have hstep : step s = .next t := (step_engine (.inr ⟨hs, rfl⟩)).trans e
  exact ⟨t, hstep, invKept s t hi hstep, advances_engineStep htaking rfl hb e⟩

/-- A running command ends within the steps it has left. -/
theorem run_hasEnded {s : State} (hi : Inv s) (hs : s.schedule = []) (hb : s.busy = true) :
    ∃ k t, k ≤ stepsLeft s ∧ Sys2Proof.core.run k s = .next t ∧ HasEnded t := by
  induction hn : stepsLeft s using Nat.strong_induction_on generalizing s with
  | _ n ih =>
    subst hn
    obtain ⟨u, hstep, hu, hend | ⟨hbu, hsu, hlt⟩⟩ := step_advances hi hs hb
    · exact ⟨1, u, stepsLeft_pos hb, run_next Sys2Proof.core hstep, hend⟩
    · obtain ⟨k, t, hk, hrun, hend⟩ := ih _ hlt hu hsu hbu rfl
      exact ⟨k + 1, t, by omega, (run_next Sys2Proof.core hstep).trans hrun, hend⟩

/-- Settles O57: an idle block has ended in no steps, and a running command has at most the bound left. -/
theorem everyCommandEnds : Obligations.EveryCommandEnds := by
  intro s hi hs
  cases hb : s.busy with
  | false => exact ⟨0, s, Nat.zero_le _, rfl, hb, by simp⟩
  | true =>
    obtain ⟨k, t, hk, hrun, hidle, hreport⟩ := run_hasEnded hi hs hb
    exact ⟨k, t, hk.trans (stepsLeft_le hi), hrun, hidle, fun _ => hreport⟩

end Sys2Proof.Proofs
end
